-- ==== Sys2Proof/Word.lean ====
section
/-! DEFINITION. The units the spec computes with: the 8-bit byte of the stream and of `residual` (00_scope.md R9, R14),
the 32-bit word of SHA-256 (R15), the 64-bit counter (10_state.md R23), and a byte string that is never empty. -/

namespace Sys2Proof

/-- One byte of the input stream or of `residual` (R9, R14). -/
abbrev Byte := BitVec 8

/-- A word of `42_sha256.md`: 32 bits, addition modulo 2^32 (R15). -/
abbrev Word := BitVec 32

/-- A counter, a status item: 64 bits, unsigned (R23, R30). -/
abbrev Counter := BitVec 64

/-- A byte string of length ≥ 1: what a Seed and a registered Name are (R7, R100, R107). U8 asks for the non-emptiness
to be part of the type, so that an empty seed cannot be written down. -/
structure NEBytes where
  head : Byte
  tail : List Byte
  deriving DecidableEq, Repr

namespace NEBytes

/-- The bytes, in order. -/
def toList (b : NEBytes) : List Byte := b.head :: b.tail

/-- Its length, at least 1. -/
def length (b : NEBytes) : Nat := b.tail.length + 1

end NEBytes

/-- The newline byte 0x0A, class `NL` (R72, R76). -/
def newline : Byte := 0x0A#8

end Sys2Proof
end

