-- ==== Sys2Proof/Config.lean ====
section
/-! DEFINITION. The implementation parameters of 00_scope.md section 2 (R4 to R8, R10), which "the model takes as an
argument": one record of plain data, the same for the whole life of an instance (U10, R261). Also the free values. -/

namespace Sys2Proof

/-- A pattern of the catalog: its name and its seed (R7, R100). The generator and the verifier are the same for every
pattern. -/
structure CatalogEntry where
  name : NEBytes
  seed : NEBytes
  deriving DecidableEq, Repr

/-- The parameters of one sink instance. A bound `none` is the spec's ∞. -/
structure Config where
  /-- `SYNC_INIT` (R4): the value of `sync` after RESET. -/
  syncInit : Bool
  /-- `RESIDUAL_CAP` (R5): the largest length of `residual` at rest. -/
  residualCap : Option Nat
  /-- `LEN_MAX` (R6): the largest `Length` value that parses. -/
  lenMax : Option Nat
  /-- `CATALOG` (R7): a finite map as a list, the first entry of a name counting. DESIGN CHOICE, log entry 4. -/
  catalog : List CatalogEntry
  /-- `UNICODE_WORD` (R8): the non-ASCII code points that are word characters, as inclusive ranges. The domain is finite
  (code points end at U+10FFFF), so every predicate on it is such a list. DESIGN CHOICE, log entry 3. -/
  unicodeWord : List (Nat × Nat)
  /-- `DIAG` (R10): whether the block has the diagnostic event output. -/
  diag : Bool
  deriving DecidableEq, Repr

/-- What R5, R7 and R107 require of the parameters beyond their types: `RESIDUAL_CAP ≥ 10`, and names unique. -/
def Config.wf (c : Config) : Bool :=
  (match c.residualCap with
    | none => true
    | some n => decide (10 ≤ n))
  && decide (c.catalog.map CatalogEntry.name).Nodup

/-- The test catalog of 95_test_vectors.md section 0: `Alpha`, `AB` and `M`. -/
def testCatalog : List CatalogEntry :=
  [ { name := ⟨0x41#8, [0x6c#8, 0x70#8, 0x68#8, 0x61#8]⟩,
      seed := ⟨0x54#8,
        [0x68#8, 0x65#8, 0x20#8, 0x71#8, 0x75#8, 0x69#8, 0x63#8, 0x6b#8, 0x20#8, 0x62#8, 0x72#8, 0x6f#8, 0x77#8, 0x6e#8,
         0x20#8, 0x66#8, 0x6f#8, 0x78#8, 0x20#8, 0x6a#8, 0x75#8, 0x6d#8, 0x70#8, 0x73#8, 0x20#8, 0x6f#8, 0x76#8, 0x65#8,
         0x72#8, 0x20#8, 0x74#8, 0x68#8, 0x65#8, 0x20#8, 0x6c#8, 0x61#8, 0x7a#8, 0x79#8, 0x20#8, 0x64#8, 0x6f#8, 0x67#8]⟩ },
    { name := ⟨0x41#8, [0x42#8]⟩, seed := ⟨0x61#8, [0x62#8]⟩ },
    { name := ⟨0x4d#8, []⟩,
      seed := ⟨0x0a#8,
        [0x0a#8, 0x50#8, 0x61#8, 0x74#8, 0x74#8, 0x65#8, 0x72#8, 0x6e#8, 0x3a#8, 0x20#8, 0x4d#8, 0x0a#8, 0x0a#8]⟩ } ]

/-- The parameters `State.reset` stands in: the defaults of 95_test_vectors.md section 0 (`SYNC_INIT = 1`, both bounds ∞,
`UNICODE_WORD` constantly false, the test catalog), with `DIAG` true. DESIGN CHOICE, log entry 2 (unsafe): the spec leaves
each of them open, so every statement is about all values of `Config` and none about these. -/
def Config.default : Config :=
  { syncInit := true, residualCap := none, lenMax := none, catalog := testCatalog, unicodeWord := [], diag := true }

/-- The value of a status read the spec promises nothing about: one that overlaps a PUTBYTE (U3 `any value`), and a counter or
`RESIDUAL_LEN` read after an overflow (R225, R279 "not trustworthy"). A free value: no body, so nothing can be proved of
it. Log entry 10 (safe). -/
opaque Config.openStatus : Nat → Counter

/-- The byte that a function reads at an index where its byte string has none: R51 defines no such read. The first argument
numbers the draw, the second is the index. A free value: no body. DESIGN CHOICE, log entry 13 (safe). -/
opaque Config.openByte : Nat → Nat → Byte

end Sys2Proof
end

