-- ==== Sys2Proof/Syntax.lean ====
section
/-! DEFINITION. The operations of the block, one constructor per row of spec/opcode_table.json: the tokens of the stream,
the seven micro-steps, the host operations, the event output and the pure functions; and the values they take. -/

namespace Sys2Proof

/-- The items of the status view, selectors 0 to 6 (10_state.md R30). The type has seven values and no more: U4's
treatment of any other selector. Log entry 15. -/
inductive StatusSel where
  | goodFrames | framingErr | protocolErr | checksumErr | patternErr | status | residualLen
  deriving DecidableEq, Repr

/-- The three results of the pattern check (46_resolve.md R205). -/
inductive PatternResult where
  | matched | mismatch | unknown
  deriving DecidableEq, Repr

/-- A diagnostic event record (43_interface_ops.md R159). -/
inductive Event where
  | framingLoss
  | protocolError
  | frame (name : List Byte) (len : Nat) (declared computed : List Byte) (checksumGood : Bool) (pattern : PatternResult)
  deriving DecidableEq, Repr

/-- Which class of value characters a field's run is made of (45_header.md R185). -/
inductive RunKind where
  | word | digit | hex
  deriving DecidableEq, Repr

/-- The operands a header that parses gives (30_encoding.md R84, 45_header.md R191). -/
structure Header where
  name : List Byte
  len : Nat
  hex : List Byte
  deriving DecidableEq, Repr

/-- An operation of the block. The constructors stand in the order of spec/opcode_table.json. -/
inductive Instr where
  /-- MARKER (R71): the 11 bytes that begin a frame. -/
  | marker
  /-- DELIM (R72): the two newlines that end a header. -/
  | delim
  /-- L_PATTERN (R73). -/
  | lPattern
  /-- L_LENGTH (R73). -/
  | lLength
  /-- L_SHA256 (R73). -/
  | lSha256
  /-- FRAME (R74): the canonical frame of a name and a payload. -/
  | frame (name payload : List Byte)
  /-- SCAN_WAIT (R171). -/
  | scanWait
  /-- SCAN_DROP_EDGE (R172). -/
  | scanDropEdge
  /-- SCAN_DROP (R173). -/
  | scanDrop
  /-- HDR_WAIT (R182). -/
  | hdrWait
  /-- HDR_REJECT (R190), operand the delimiter index. -/
  | hdrReject (d : Nat)
  /-- PAYLOAD_WAIT (R201), operands the delimiter index and the declared length. -/
  | payloadWait (d len : Nat)
  /-- RESOLVE (R202), operands the delimiter index and the three header values. -/
  | resolve (d : Nat) (name : List Byte) (len : Nat) (hex : List Byte)
  /-- RESET (R151). -/
  | reset
  /-- WRITE (R152). -/
  | write (chunk : List Byte)
  /-- PUTBYTE (R153). -/
  | putbyte (b : Byte)
  /-- READ_STATUS (R155). -/
  | readStatus (sel : StatusSel)
  /-- EMIT (R159). -/
  | emit (ev : Event)
  /-- GENERATE (R101). -/
  | generate (seed : NEBytes) (length : Nat)
  /-- VERIFY (R103). -/
  | verify (seed : NEBytes) (payload : List Byte)
  /-- LOOKUP (R106). -/
  | lookup (name : List Byte)
  /-- ENCODE (R121). -/
  | encodeFrame (name payload : List Byte)
  /-- DEC (R122). -/
  | dec (v : Nat)
  /-- SHA256 (R130). -/
  | sha256 (msg : List Byte)
  /-- HEXLOWER (R139). -/
  | hexLower (b : List Byte)
  /-- FindDelim (R181). -/
  | findDelim (r : List Byte)
  /-- FindField (R184). -/
  | findField (r : List Byte) (d : Nat) (label : List Byte) (run : RunKind)
  /-- Parse (R191). -/
  | parse (r : List Byte) (d : Nat)
  /-- Utf8At (R77). -/
  | utf8At (r : List Byte) (i e : Nat)
  deriving DecidableEq, Repr

/-- The seven micro-steps with their operands: the rows of the selection table (30_encoding.md R90). -/
inductive MicroStep where
  | scanWait | scanDropEdge | scanDrop | hdrWait
  | hdrReject (d : Nat)
  | payloadWait (d len : Nat)
  | resolve (d : Nat) (name : List Byte) (len : Nat) (hex : List Byte)
  deriving DecidableEq, Repr

/-- The micro-step as an operation of the block. -/
def MicroStep.toInstr : MicroStep → Instr
  | .scanWait => .scanWait
  | .scanDropEdge => .scanDropEdge
  | .scanDrop => .scanDrop
  | .hdrWait => .hdrWait
  | .hdrReject d => .hdrReject d
  | .payloadWait d len => .payloadWait d len
  | .resolve d name len hex => .resolve d name len hex

/-- The row of the selection table, `selection_row` of spec/opcode_table.json (R90). -/
def MicroStep.row : MicroStep → Nat
  | .scanWait => 1
  | .scanDropEdge => 2
  | .scanDrop => 3
  | .hdrWait => 4
  | .hdrReject _ => 5
  | .payloadWait _ _ => 6
  | .resolve _ _ _ _ => 7

/-- What a micro-step reports to the loop (43_interface_ops.md R154): true for `rest`, the three waits. -/
def MicroStep.isRest : MicroStep → Bool
  | .scanWait => true
  | .scanDropEdge => false
  | .scanDrop => false
  | .hdrWait => true
  | .hdrReject _ => false
  | .payloadWait _ _ => true
  | .resolve _ _ _ _ => false

/-- One entry of what the host will do next: bytes it offers on the stream, or an operation it performs. The model's own
way of holding the program (R19: "program" is the input byte stream; R88: a list of WRITEs). Log entry 1. -/
inductive HostItem where
  | bytes (stream : List Byte)
  | op (i : Instr)
  deriving DecidableEq, Repr

/-- The operations a host may perform: RESET, WRITE, PUTBYTE, READ_STATUS (R150), the tokens and frames it sends, and the
pure functions. The micro-steps and EMIT are performed "by the decoder, not the host" (R12, R159). -/
def Instr.byHost : Instr → Bool
  | .marker | .delim | .lPattern | .lLength | .lSha256 | .frame _ _ => true
  | .scanWait | .scanDropEdge | .scanDrop | .hdrWait | .hdrReject _ | .payloadWait _ _ | .resolve _ _ _ _ => false
  | .reset | .write _ | .putbyte _ | .readStatus _ => true
  | .emit _ => false
  | .generate _ _ | .verify _ _ | .lookup _ | .encodeFrame _ _ | .dec _ | .sha256 _ | .hexLower _ => true
  | .findDelim _ | .findField _ _ _ _ | .parse _ _ | .utf8At _ _ _ => true

end Sys2Proof
end

