-- ==== Sys2Proof/Machine/Operands.lean ====
section
/-! DEFINITION. The wire format as the decoder reads it: the tokens (30_encoding.md R71 to R73), the byte classes (R76),
strict UTF-8 (R77), word characters (R78), the search for the delimiter and the fields (45_header.md R181, R184, R185), the
values of the three fields and the parser (R186 to R191). Pure functions of bytes and parameters. -/

namespace Sys2Proof.Wire

/-- `MARKER`, 11 bytes (R71). -/
def markerBytes : List Byte :=
  [0x0A#8, 0x0A#8, 0x50#8, 0x61#8, 0x74#8, 0x74#8, 0x65#8, 0x72#8, 0x6E#8, 0x3A#8, 0x20#8]

/-- `DELIM`, 2 bytes (R72). -/
def delimBytes : List Byte := [0x0A#8, 0x0A#8]

/-- `L_PATTERN`, 9 bytes (R73). -/
def labelPattern : List Byte := [0x50#8, 0x61#8, 0x74#8, 0x74#8, 0x65#8, 0x72#8, 0x6E#8, 0x3A#8, 0x20#8]

/-- `L_LENGTH`, 8 bytes (R73). -/
def labelLength : List Byte := [0x4C#8, 0x65#8, 0x6E#8, 0x67#8, 0x74#8, 0x68#8, 0x3A#8, 0x20#8]

/-- `L_SHA256`, 8 bytes (R73). -/
def labelSha256 : List Byte := [0x53#8, 0x68#8, 0x61#8, 0x32#8, 0x35#8, 0x36#8, 0x3A#8, 0x20#8]

/-- `MARKER_LEN` (R9, R71). -/
def markerLen : Nat := 11

/-- `DELIM_LEN` (R9). -/
def delimLen : Nat := 2

/-- `r[a..b)` (R14): the bytes at the indices from `a` on, below `b`. -/
def slice (r : List Byte) (a b : Nat) : List Byte := (r.take b).drop a

/-- Class `DIGIT` (R76). -/
def isDigit (b : Byte) : Bool := decide (0x30 ≤ b.toNat ∧ b.toNat ≤ 0x39)

/-- Class `HEX` (R76). -/
def isHex (b : Byte) : Bool :=
  isDigit b || decide (0x41 ≤ b.toNat ∧ b.toNat ≤ 0x46) || decide (0x61 ≤ b.toNat ∧ b.toNat ≤ 0x66)

/-- Class `WORD_ASCII` (R76). -/
def isWordAscii (b : Byte) : Bool :=
  isDigit b || decide (0x41 ≤ b.toNat ∧ b.toNat ≤ 0x5A) || decide (b.toNat = 0x5F) ||
    decide (0x61 ≤ b.toNat ∧ b.toNat ≤ 0x7A)

/-- What a UTF-8 lead byte says: the length `n`, the code point's first bits and the least code point of that length
(R77). -/
def utf8Lead (b0 : Byte) : Option (Nat × Nat × Nat) :=
  if 0xC2 ≤ b0.toNat ∧ b0.toNat ≤ 0xDF then some (2, (b0 &&& 0x1F#8).toNat, 0x80)
  else if 0xE0 ≤ b0.toNat ∧ b0.toNat ≤ 0xEF then some (3, (b0 &&& 0x0F#8).toNat, 0x800)
  else if 0xF0 ≤ b0.toNat ∧ b0.toNat ≤ 0xF4 then some (4, (b0 &&& 0x07#8).toNat, 0x10000)
  else none

/-- `k` continuation bytes from index `j` on, taken into the code point (R77). -/
def utf8Continue (r : List Byte) : Nat → Nat → Nat → Option Nat
  | 0, _, cp => some cp
  | k + 1, j, cp =>
    match r[j]? with
    | none => none
    | some b => if b &&& 0xC0#8 = 0x80#8 then utf8Continue r k (j + 1) (cp * 64 + (b &&& 0x3F#8).toNat) else none

/-- `Utf8At(r, i, e)` (R77): one code point and its length in bytes, or fail. -/
def utf8At (r : List Byte) (i e : Nat) : Option (Nat × Nat) :=
  match r[i]? with
  | none => none
  | some b0 =>
    match utf8Lead b0 with
    | none => none
    | some (n, cp0, lo) =>
      if e < i + n then none
      else
        match utf8Continue r (n - 1) (i + 1) cp0 with
        | none => none
        | some cp =>
          if cp < lo ∨ 0x10FFFF < cp ∨ (0xD800 ≤ cp ∧ cp ≤ 0xDFFF) then none else some (cp, n)

/-- `UNICODE_WORD(cp)` (R8). -/
def unicodeWord (c : Config) (cp : Nat) : Bool := c.unicodeWord.any fun range => decide (range.1 ≤ cp ∧ cp ≤ range.2)

/-- The length in bytes of the word character at index `i` of a segment that ends at `e`, if one stands there (R78). -/
def wordCharAt (c : Config) (r : List Byte) (i e : Nat) : Option Nat :=
  if i < e then
    match r[i]? with
    | none => none
    | some b =>
      if b.toNat < 0x80 then (if isWordAscii b then some 1 else none)
      else
        match utf8At r i e with
        | none => none
        | some (cp, n) => if unicodeWord c cp then some n else none
  else none

/-- `RunWord` from index `i` on (R185); the first argument bounds the number of characters. -/
def runWordFrom (c : Config) (r : List Byte) (e : Nat) : Nat → Nat → Nat
  | 0, i => i
  | k + 1, i =>
    match wordCharAt c r i e with
    | none => i
    | some n => runWordFrom c r e k (i + n)

/-- `RunWord(r, q, d)` (R185): the end of the maximal run of word characters. -/
def runWord (c : Config) (r : List Byte) (q d : Nat) : Nat := runWordFrom c r d (d - q) q

/-- `RunDigit` and `RunHex` (R185): the end of the maximal run of bytes of a class inside `r[q..d)`. -/
def runClass (p : Byte → Bool) (r : List Byte) (q d : Nat) : Nat := q + ((slice r q d).takeWhile p).length

/-- The run function of a field (R185). -/
def runEnd (c : Config) (run : RunKind) (r : List Byte) (q d : Nat) : Nat :=
  match run with
  | .word => runWord c r q d
  | .digit => runClass isDigit r q d
  | .hex => runClass isHex r q d

/-- Whether the marker stands at the front (R71). -/
def markerAtFront (r : List Byte) : Bool := decide (r.take markerLen = markerBytes)

/-- The search of `FindDelim`: `j` is the index of the first byte of the list (R181). -/
def findDelimFrom : Nat → List Byte → Option Nat
  | j, a :: b :: rest => if a = newline ∧ b = newline then some j else findDelimFrom (j + 1) (b :: rest)
  | _, _ => none

/-- `FindDelim(r)` (R181): the least `j ≥ 11` with newlines at `j` and `j + 1`. -/
def findDelim (r : List Byte) : Option Nat := findDelimFrom markerLen (r.drop markerLen)

/-- Whether `p` is a line start: the byte before it is a newline (R79, R183). -/
def lineStart (r : List Byte) (p : Nat) : Bool := decide (r[p - 1]? = some newline)

/-- The value of a field at the line start `p`, if label and a non-empty run match there (R184). -/
def fieldAt (c : Config) (r : List Byte) (d : Nat) (label : List Byte) (run : RunKind) (p : Nat) : Option (List Byte) :=
  if lineStart r p = true ∧ p + label.length ≤ d ∧ slice r p (p + label.length) = label then
    let q := p + label.length
    let e := runEnd c run r q d
    if q < e then some (slice r q e) else none
  else none

/-- `FindField(r, d, label, Run)` (R184): the value at the leftmost `p` in `2 … d − 1` that has one. -/
def findField (c : Config) (r : List Byte) (d : Nat) (label : List Byte) (run : RunKind) : Option (List Byte) :=
  (List.range' 2 (d - 2)).findSome? (fieldAt c r d label run)

/-- The number a digit string denotes, most significant digit first (R53, R188). -/
def digitsValue (digits : List Byte) : Nat := digits.foldl (fun v x => v * 10 + (x.toNat - 0x30)) 0

/-- Whether a number is within a bound that may be ∞ (R5, R6). -/
def within (bound : Option Nat) (n : Nat) : Bool :=
  match bound with
  | none => true
  | some m => decide (n ≤ m)

/-- `Parse(r, d)` (R191), with `LEN_MAX` as an argument. -/
def parseWith (c : Config) (lenMax : Option Nat) (r : List Byte) (d : Nat) : Option Header :=
  match findField c r d labelPattern .word, findField c r d labelLength .digit, findField c r d labelSha256 .hex with
  | some name, some digits, some hex =>
    let len := digitsValue digits
    if within lenMax len then some { name := name, len := len, hex := hex } else none
  | _, _, _ => none

/-- `Parse(r, d)` (R191): the three operands, or fail. -/
def parse (c : Config) (r : List Byte) (d : Nat) : Option Header := parseWith c c.lenMax r d

/-- Case normalisation of one byte (R84). -/
def lowerByte (b : Byte) : Byte := if 0x41 ≤ b.toNat ∧ b.toNat ≤ 0x46 then b + 0x20#8 else b

/-- `Lower(hex)` (R84, R204). -/
def lower (hex : List Byte) : List Byte := hex.map lowerByte

end Sys2Proof.Wire
end

