-- ==== Sys2Proof/Machine/Pattern.lean ====
section
/-! DEFINITION. The pattern functions of 40_pattern_functions.md, GENERATE, VERIFY and LOOKUP, as pure functions. -/

namespace Sys2Proof.Pattern

/-- `seed[i mod len(seed)]` (R101). -/
def seedByte (seed : NEBytes) (i : Nat) : Byte := seed.toList.getD (i % seed.length) seed.head

/-- `GENERATE(seed, length)` (R101). -/
def generate (seed : NEBytes) (length : Nat) : List Byte := (List.range length).map (seedByte seed)

/-- The walk of VERIFY in chunks of `min(remaining, len(seed))` bytes, each compared with the front of the seed (R103).
The first argument bounds the number of chunks; a payload of n bytes has at most n. -/
def walk (seed : NEBytes) : Nat → List Byte → Bool
  | 0, payload => payload.isEmpty
  | n + 1, payload =>
    if payload.isEmpty then true
    else
      let k := min payload.length seed.length
      if payload.take k = seed.toList.take k then walk seed n (payload.drop k) else false

/-- `VERIFY(seed, payload)` (R103): true for match, false for mismatch. -/
def verify (seed : NEBytes) (payload : List Byte) : Bool := walk seed payload.length payload

/-- `LOOKUP(name)` (R106): exact equality of byte strings. -/
def lookup (catalog : List CatalogEntry) (name : List Byte) : Option NEBytes :=
  match catalog with
  | [] => none
  | e :: rest => if e.name.toList = name then some e.seed else lookup rest name

end Sys2Proof.Pattern
end

