-- ==== Sys2Proof/Machine/Sha256.lean ====
section
/-! DEFINITION. The checksum functions of 42_sha256.md, SHA256 (R130 to R138) and HEXLOWER (R139), as pure functions. -/

namespace Sys2Proof.Sha256

/-- `ROTR(x, n)` for 0 < n < 32 (R131). -/
def rotr (x : Word) (n : Nat) : Word := (x >>> n) ||| (x <<< (32 - n))

/-- `SHR(x, n)` (R131). -/
def shr (x : Word) (n : Nat) : Word := x >>> n

/-- `Ch` (R131). -/
def ch (x y z : Word) : Word := (x &&& y) ^^^ (~~~x &&& z)

/-- `Maj` (R131). -/
def maj (x y z : Word) : Word := (x &&& y) ^^^ (x &&& z) ^^^ (y &&& z)

/-- `Σ0` (R131). -/
def bigSigma0 (x : Word) : Word := rotr x 2 ^^^ rotr x 13 ^^^ rotr x 22

/-- `Σ1` (R131). -/
def bigSigma1 (x : Word) : Word := rotr x 6 ^^^ rotr x 11 ^^^ rotr x 25

/-- `σ0` (R131). -/
def smallSigma0 (x : Word) : Word := rotr x 7 ^^^ rotr x 18 ^^^ shr x 3

/-- `σ1` (R131). -/
def smallSigma1 (x : Word) : Word := rotr x 17 ^^^ rotr x 19 ^^^ shr x 10

/-- Eight words: the hash value `H[0..7]`, and the working variables `a` to `h` (R137). -/
structure Hash where
  a : Word
  b : Word
  c : Word
  d : Word
  e : Word
  f : Word
  g : Word
  h : Word
  deriving DecidableEq, Repr

/-- `H0` (R132). -/
def initial : Hash :=
  { a := 0x6a09e667#32, b := 0xbb67ae85#32, c := 0x3c6ef372#32, d := 0xa54ff53a#32,
    e := 0x510e527f#32, f := 0x9b05688c#32, g := 0x1f83d9ab#32, h := 0x5be0cd19#32 }

/-- `K[0..31]` (R133). -/
def roundConstantsLow : List Word :=
  [ 0x428a2f98#32, 0x71374491#32, 0xb5c0fbcf#32, 0xe9b5dba5#32, 0x3956c25b#32, 0x59f111f1#32, 0x923f82a4#32, 0xab1c5ed5#32,
    0xd807aa98#32, 0x12835b01#32, 0x243185be#32, 0x550c7dc3#32, 0x72be5d74#32, 0x80deb1fe#32, 0x9bdc06a7#32, 0xc19bf174#32,
    0xe49b69c1#32, 0xefbe4786#32, 0x0fc19dc6#32, 0x240ca1cc#32, 0x2de92c6f#32, 0x4a7484aa#32, 0x5cb0a9dc#32, 0x76f988da#32,
    0x983e5152#32, 0xa831c66d#32, 0xb00327c8#32, 0xbf597fc7#32, 0xc6e00bf3#32, 0xd5a79147#32, 0x06ca6351#32, 0x14292967#32 ]

/-- `K[32..63]` (R133). -/
def roundConstantsHigh : List Word :=
  [ 0x27b70a85#32, 0x2e1b2138#32, 0x4d2c6dfc#32, 0x53380d13#32, 0x650a7354#32, 0x766a0abb#32, 0x81c2c92e#32, 0x92722c85#32,
    0xa2bfe8a1#32, 0xa81a664b#32, 0xc24b8b70#32, 0xc76c51a3#32, 0xd192e819#32, 0xd6990624#32, 0xf40e3585#32, 0x106aa070#32,
    0x19a4c116#32, 0x1e376c08#32, 0x2748774c#32, 0x34b0bcb5#32, 0x391c0cb3#32, 0x4ed8aa4a#32, 0x5b9cca4f#32, 0x682e6ff3#32,
    0x748f82ee#32, 0x78a5636f#32, 0x84c87814#32, 0x8cc70208#32, 0x90befffa#32, 0xa4506ceb#32, 0xbef9a3f7#32, 0xc67178f2#32 ]

/-- `K[0..63]` (R133). -/
def roundConstants : List Word := roundConstantsLow ++ roundConstantsHigh

/-- A number as `n` bytes, most significant first: `BE64` is 8 of them (R134), `BE32` is 4 (R138). -/
def bigEndian : Nat → Nat → List Byte
  | 0, _ => []
  | n + 1, v => BitVec.ofNat 8 (v / 256 ^ n) :: bigEndian n v

/-- `z` of R134: the least natural number with `(n + 1 + z) mod 64 = 56`. -/
def padZeros (n : Nat) : Nat := (119 - n % 64) % 64

/-- The padded message (R134). -/
def pad (msg : List Byte) : List Byte :=
  msg ++ [0x80#8] ++ List.replicate (padZeros msg.length) 0x00#8 ++ bigEndian 8 (8 * msg.length)

/-- Bytes to words, each word big-endian from four bytes (R135). -/
def toWords : List Byte → List Word
  | b0 :: b1 :: b2 :: b3 :: rest => (b0 ++ b1 ++ b2 ++ b3) :: toWords rest
  | _ => []

/-- `n` more words of the message schedule, over the words so far, newest first: at the head stand `W[t−1]`, `W[t−2]`, …
(R136). -/
def extend : Nat → List Word → List Word
  | 0, w => w
  | n + 1, w =>
    extend n ((smallSigma1 (w.getD 1 0) + w.getD 6 0 + smallSigma0 (w.getD 14 0) + w.getD 15 0) :: w)

/-- The message schedule `W[0..63]` of a block of 16 words (R136). -/
def schedule (block : List Word) : List Word := (extend 48 block.reverse).reverse

/-- One round of R137, with its constant and its schedule word. -/
def round (s : Hash) (kw : Word × Word) : Hash :=
  let t1 := s.h + bigSigma1 s.e + ch s.e s.f s.g + kw.1 + kw.2
  let t2 := bigSigma0 s.a + maj s.a s.b s.c
  { a := t1 + t2, b := s.a, c := s.b, d := s.c, e := s.d + t1, f := s.e, g := s.f, h := s.g }

/-- One block's compression (R137). -/
def compress (v : Hash) (block : List Word) : Hash :=
  let r := (roundConstants.zip (schedule block)).foldl round v
  { a := v.a + r.a, b := v.b + r.b, c := v.c + r.c, d := v.d + r.d,
    e := v.e + r.e, f := v.f + r.f, g := v.g + r.g, h := v.h + r.h }

/-- The first `n` blocks of 16 words, in order (R135, R137). -/
def compressBlocks : Nat → List Word → Hash → Hash
  | 0, _, v => v
  | n + 1, w, v => compressBlocks n (w.drop 16) (compress v (w.take 16))

/-- `BE32` (R138). -/
def wordBytes (w : Word) : List Byte := bigEndian 4 w.toNat

/-- The digest of the final hash value (R138). -/
def digestBytes (v : Hash) : List Byte :=
  wordBytes v.a ++ wordBytes v.b ++ wordBytes v.c ++ wordBytes v.d ++
    (wordBytes v.e ++ wordBytes v.f ++ wordBytes v.g ++ wordBytes v.h)

/-- `SHA256(msg)` (R130), for messages shorter than 2^61 bytes; the operations that use it refuse a longer one (R140). -/
def sha256 (msg : List Byte) : List Byte :=
  let w := toWords (pad msg)
  digestBytes (compressBlocks (w.length / 16) w initial)

/-- Whether SHA-256 is defined on a message of `n` bytes (R140). -/
def inDomain (n : Nat) : Bool := decide (n < 2 ^ 61)

/-- `HEXDIGIT(v)` for v ≤ 15 (R139). -/
def hexDigit (v : Nat) : Byte := if v ≤ 9 then BitVec.ofNat 8 (0x30 + v) else BitVec.ofNat 8 (0x61 + (v - 10))

/-- `HEXLOWER(b)` (R139): two characters per byte, high nibble first. -/
def hexLower (b : List Byte) : List Byte :=
  b.flatMap fun x => [hexDigit (x.toNat / 16), hexDigit (x.toNat % 16)]

end Sys2Proof.Sha256
end

