-- ==== Sys2Proof/Machine/Encoder.lean ====
section
/-! DEFINITION. The reference encoder of 41_frame_encoder.md, DEC (R122) and ENCODE (R121), as pure functions; and
the shorthands of 30_encoding.md R89 with their expansions. -/

namespace Sys2Proof.Encoder

/-- The decimal digits of `v`, most significant first (R122); the first argument bounds their number. -/
def decimalDigits : Nat → Nat → List Byte
  | 0, _ => []
  | n + 1, v =>
    (if v < 10 then [] else decimalDigits n (v / 10)) ++ [BitVec.ofNat 8 (0x30 + v % 10)]

/-- `DEC(v)` (R122): no leading zeros, `DEC(0) = "0"`. -/
def dec (v : Nat) : List Byte := decimalDigits (v + 1) v

/-- `ENCODE(name, payload)` (R121), the layout of R74. -/
def encode (name payload : List Byte) : List Byte :=
  Wire.markerBytes ++ (name ++ (newline :: Wire.labelLength ++ (dec payload.length ++
    (newline :: Wire.labelSha256 ++ (Sha256.hexLower (Sha256.sha256 payload) ++ (Wire.delimBytes ++ payload))))))

/-- The shorthand `FRAME(name, seed, L)` (R89). -/
def frame (name : List Byte) (seed : NEBytes) (len : Nat) : List Byte := encode name (Pattern.generate seed len)

/-- The shorthand `HDR(lines…)` (R89): a header with the given lines and no payload. -/
def hdr (lines : List (List Byte)) : List Byte :=
  Wire.delimBytes ++ (lines.intersperse [newline]).flatten ++ Wire.delimBytes

end Sys2Proof.Encoder
end

