-- ==== Sys2Proof/Decode.lean ====
section
/-! DEFINITION. The two decoders of the block. The decoder side: which micro-step the front of `residual` selects
(30_encoding.md R90). The program side: which token, frame or byte stands next in the input byte stream (R19, R70 to R74).
Then the encoder, from the same token bytes and the canonical layout. -/

namespace Sys2Proof

/-- The selection table R90, its rows tried in order: the first row whose condition holds is the micro-step. -/
def select (c : Config) (r : List Byte) (sync : Bool) : MicroStep :=
  if r.length < Wire.markerLen then .scanWait
  else if Wire.markerAtFront r = false then (if sync then .scanDropEdge else .scanDrop)
  else
    match Wire.findDelim r with
    | none => .hdrWait
    | some d =>
      match Wire.parse c r d with
      | none => .hdrReject d
      | some h =>
        if r.length < d + Wire.delimLen + h.len then .payloadWait d h.len
        else .resolve d h.name h.len h.hex

/-- The guard of each micro-step, as its own rule and its row of spec/opcode_table.json give it (R171, R172, R173, R182,
R190, R201, R202), with no reference to the other rows. -/
def microGuard (c : Config) (r : List Byte) (sync : Bool) : MicroStep → Bool
  | .scanWait => decide (r.length < 11)
  | .scanDropEdge => decide (11 ≤ r.length) && !Wire.markerAtFront r && sync
  | .scanDrop => decide (11 ≤ r.length) && !Wire.markerAtFront r && !sync
  | .hdrWait => Wire.markerAtFront r && decide (Wire.findDelim r = none)
  | .hdrReject d =>
    Wire.markerAtFront r && decide (Wire.findDelim r = some d) && decide (Wire.parse c r d = none)
  | .payloadWait d len =>
    Wire.markerAtFront r && decide (Wire.findDelim r = some d) &&
      (match Wire.parse c r d with
        | none => false
        | some h => decide (h.len = len) && decide (r.length < d + 2 + len))
  | .resolve d name len hex =>
    Wire.markerAtFront r && decide (Wire.findDelim r = some d) &&
      decide (Wire.parse c r d = some { name := name, len := len, hex := hex }) && decide (d + 2 + len ≤ r.length)

/-- Why the program side has no next operation. -/
inductive DecodeError where
  /-- No byte is offered. -/
  | emptyStream
  deriving DecidableEq, Repr

/-- What stands at the front of the input stream: an operation and the bytes behind it, or a reason. -/
inductive Decoded where
  | rejected (why : DecodeError)
  | found (i : Instr) (rest : List Byte)
  deriving DecidableEq, Repr

/-- A canonical frame at the front of a stream (R74): name, payload and the bytes behind it. The header is read by the
decoder's own parser (R191, with no `LEN_MAX`: R74 sets none), and the bytes must be exactly what ENCODE writes (R121). A
payload SHA-256 is not defined on (R140) has no canonical frame: such bytes are cut into tokens and single bytes, each of
which is accepted (R85, R158). DESIGN CHOICE, log entry 7. -/
def decodeFrame (c : Config) (bs : List Byte) : Option (List Byte × List Byte × List Byte) :=
  if Wire.markerAtFront bs then
    match Wire.findDelim bs with
    | none => none
    | some d =>
      match Wire.parseWith c none bs d with
      | none => none
      | some h =>
        let n := d + Wire.delimLen + h.len
        let payload := Wire.slice bs (d + Wire.delimLen) n
        if Sha256.inDomain h.len = true ∧ bs.take n = Encoder.encode h.name payload then some (h.name, payload, bs.drop n) else none
  else none

/-- The bytes of the four fixed tokens after which nothing longer is looked for, longest first (R71 to R73). -/
def decodeToken (bs : List Byte) : Option (Instr × List Byte) :=
  if bs.take 11 = Wire.markerBytes then some (.marker, bs.drop 11)
  else if bs.take 9 = Wire.labelPattern then some (.lPattern, bs.drop 9)
  else if bs.take 8 = Wire.labelLength then some (.lLength, bs.drop 8)
  else if bs.take 8 = Wire.labelSha256 then some (.lSha256, bs.drop 8)
  else if bs.take 2 = Wire.delimBytes then some (.delim, bs.drop 2)
  else none

/-- The next operation of the input byte stream: a canonical frame, else the longest token, else the PUTBYTE of one byte.
Total: "every byte sequence is accepted" (R85); only the empty stream holds no operation. The cut into tokens is the
model's (log entry 7); by R156 it does not change the state reached. -/
def decode (c : Config) (bs : List Byte) : Decoded :=
  match bs with
  | [] => .rejected .emptyStream
  | b :: rest =>
    match decodeFrame c bs with
    | some (name, payload, behind) => .found (.frame name payload) behind
    | none =>
      match decodeToken bs with
      | some (i, behind) => .found i behind
      | none => .found (.putbyte b) rest

/-- The bytes of an operation on the input stream, from the same tables: the tokens' bytes (R71 to R73), ENCODE's layout
(R74, R121), one byte for a PUTBYTE (R153, R160). `none`: the table says the operation has no bit encoding (host operations,
events, functions), or is "selected by state" (micro-steps). -/
def encode : Instr → Option (List Byte)
  | .marker => some Wire.markerBytes
  | .delim => some Wire.delimBytes
  | .lPattern => some Wire.labelPattern
  | .lLength => some Wire.labelLength
  | .lSha256 => some Wire.labelSha256
  | .frame name payload => some (Encoder.encode name payload)
  | .scanWait => none
  | .scanDropEdge => none
  | .scanDrop => none
  | .hdrWait => none
  | .hdrReject _ => none
  | .payloadWait _ _ => none
  | .resolve _ _ _ _ => none
  | .reset => none
  | .write _ => none
  | .putbyte b => some [b]
  | .readStatus _ => none
  | .emit _ => none
  | .generate _ _ => none
  | .verify _ _ => none
  | .lookup _ => none
  | .encodeFrame _ _ => none
  | .dec _ => none
  | .sha256 _ => none
  | .hexLower _ => none
  | .findDelim _ => none
  | .findField _ _ _ _ => none
  | .parse _ _ => none
  | .utf8At _ _ _ => none

/-- The bytes of a number: bits 7 to 0 are the first byte of the stream, bits 15 to 8 the second, and so on. -/
def streamBytes (nbits w : Nat) : List Byte :=
  (List.range ((nbits + 7) / 8)).map fun k => BitVec.ofNat 8 (w / 256 ^ k)

/-- The operation the program side reads from the bytes of a number (log entry 21). -/
def decodeTableWord (nbits w : Nat) : Option Instr :=
  match decode Config.default (streamBytes nbits w) with
  | .rejected _ => none
  | .found i _ => some i

end Sys2Proof
end

