-- ==== Sys2Proof/Machine/State.lean ====
section
/-! DEFINITION. The state of one sink instance (10_state.md R20, R33, with the parameters of R4 to R10 and the model's own
fields), its value after reset (R34), and the reasons an operation can stop. Plain data throughout. -/

namespace Sys2Proof.Machine

/-- The value an operation returns to whoever asked for it. Plain data of the model: the spec gives each operation its
result and no register that holds it. Log entry 5. -/
inductive Result where
  /-- No operation has returned a value since reset. -/
  | none
  /-- `bytesAccepted` of WRITE (R152). -/
  | accepted (n : Nat)
  /-- The item READ_STATUS returns (R155). -/
  | status (v : Counter)
  /-- A byte string: GENERATE, ENCODE, DEC, SHA256, HEXLOWER. -/
  | bytes (b : List Byte)
  /-- VERIFY: true for match (R103). -/
  | verdict (ok : Bool)
  /-- LOOKUP: a seed, or not-found (R106). -/
  | seed (s : Option NEBytes)
  /-- FindDelim: an index, or none (R181). -/
  | index (d : Option Nat)
  /-- FindField: a value, or none (R184). -/
  | field (v : Option (List Byte))
  /-- Parse: the three operands, or fail (R191). -/
  | header (h : Option Header)
  /-- Utf8At: code point and length, or fail (R77). -/
  | codePoint (c : Option (Nat × Nat))
  deriving DecidableEq, Repr

/-- The state of a sink. -/
structure State where
  /-- The parameters, among them the catalog store (R4 to R10, R31): no operation writes them. -/
  cfg : Config
  /-- `residual` (R21, R50): index 0 is the oldest byte. -/
  residual : List Byte
  /-- `sync` (R22). -/
  sync : Bool
  /-- `goodFrames` (R23). -/
  goodFrames : Counter
  /-- `framingErr` (R23). -/
  framingErr : Counter
  /-- `protocolErr` (R23). -/
  protocolErr : Counter
  /-- `checksumErr` (R23). -/
  checksumErr : Counter
  /-- `patternErr` (R23). -/
  patternErr : Counter
  /-- `fault` (R26). -/
  fault : Bool
  /-- The event log (R33), oldest first. -/
  eventLog : List Event
  /-- The model's own: the value the last operation returned. -/
  result : Result
  /-- The model's own: how many operations have drawn free values: status reads (U3, R279, log entry 10) and reads
  past the end of a function's bytes (R51, log entry 13). -/
  openReads : Nat
  /-- The model's own: what the host will do next, in order. -/
  host : List HostItem
  deriving DecidableEq, Repr

/-- Why the machine stops. -/
inductive Fault where
  /-- `fault = 1`: after an overflow the sink is stuck (R225, U1: "PUTBYTE is defined only for fault = 0; after the fault
  only RESET is defined"). Raised by PUTBYTE and by WRITE, the tokens and FRAME through it, and by the seven micro-steps.
  Safe: the model stops where the hardware goes on in some state the spec does not give. -/
  | stuckAfterOverflow
  deriving DecidableEq, Repr

/-- Why an operation has no meaning here. -/
inductive Refusal where
  /-- No meaning is written for the instruction. Raised by `exec` alone. Safe. -/
  | notModelled (mnemonic : String)
  /-- A micro-step whose guard does not hold: the selection table does not run it (R90). Raised by the seven micro-steps.
  Safe. Log entry 12. -/
  | notSelected
  /-- A byte offered while a PUTBYTE is in progress (R153 "Defined when the sink is at rest", U2 `refuse`). Raised by
  PUTBYTE and by WRITE, the tokens and FRAME through it. Safe. Log entry 9. -/
  | overlappingWrite
  /-- SHA-256 of 2^61 bytes or more (R140, U5 `refuse`). Raised by RESOLVE and the operations that run it, by SHA256, ENCODE
  and FRAME. Safe. Log entry 11. -/
  | digestUndefined
  /-- The host asks for an operation that only the decoder performs (R12, R159). Raised by `step`. Safe. Log entry 14. -/
  | notAHostOperation
  deriving DecidableEq, Repr

/-- The state after RESET of an instance with the parameters `c` (R34, R151). -/
def State.resetWith (c : Config) : State :=
  { cfg := c
    residual := []
    sync := c.syncInit
    goodFrames := 0#64
    framingErr := 0#64
    protocolErr := 0#64
    checksumErr := 0#64
    patternErr := 0#64
    fault := false
    eventLog := []
    result := .none
    openReads := 0
    host := [] }

/-- The machine right after reset: `resetWith` at the parameters of log entry 2, nothing offered by the host. -/
def State.reset : State := State.resetWith Config.default

end Sys2Proof.Machine
end

