-- ==== Sys2Proof/Machine/Flags.lean ====
section
/-! DEFINITION. What is computed from the state and not stored: the verdicts of a resolved frame (46_resolve.md R204, R205),
the status view (10_state.md R30), the rest phase (R28), whether the sink is at rest, the overflow predicate (20_memory.md
R58), the codes of 60_exceptions.md R226, and the outputs of the informative port list (R160). -/

namespace Sys2Proof.Machine

/-- The rendering `computed` of R203. -/
def computedDigest (payload : List Byte) : List Byte := Sha256.hexLower (Sha256.sha256 payload)

/-- `checksumGood` (R204): equality of byte strings after case normalisation. -/
def checksumGood (hex payload : List Byte) : Bool := decide (Wire.lower hex = computedDigest payload)

/-- `patternResult` (R205). -/
def patternResult (catalog : List CatalogEntry) (name payload : List Byte) : PatternResult :=
  match Pattern.lookup catalog name with
  | none => .unknown
  | some seed => if Pattern.verify seed payload then .matched else .mismatch

/-- The micro-step the state selects (R90). -/
def selected (s : State) : MicroStep := select s.cfg s.residual s.sync

/-- Whether the sink is at rest: no micro-step other than a wait is enabled (R18). -/
def atRest (s : State) : Bool := (selected s).isRest

/-- The three places a `write` can stop (R28). -/
inductive Phase where
  | scan | header | payload
  deriving DecidableEq, Repr

/-- `Phase(s)` (R28), condition by condition; `none` where none of the three holds. -/
def phase (s : State) : Option Phase :=
  if s.residual.length < 11 then some .scan
  else if Wire.markerAtFront s.residual then
    match Wire.findDelim s.residual with
    | none => some .header
    | some d =>
      match Wire.parse s.cfg s.residual d with
      | none => none
      | some h => if s.residual.length < d + 2 + h.len then some .payload else none
  else none

/-- `Overflow(s)` (R58). -/
def overflow (s : State) : Bool := !Wire.within s.cfg.residualCap s.residual.length

/-- The item `STATUS` (R30): bit 0 is `sync`, bit 1 is `fault`, bits 63:2 read as 0. -/
def statusWord (s : State) : Counter :=
  (if s.sync then 1#64 else 0#64) ||| (if s.fault then 2#64 else 0#64)

/-- The status view (R30). `RESIDUAL_LEN` saturates at 2^64 − 1. -/
def statusItem (s : State) : StatusSel → Counter
  | .goodFrames => s.goodFrames
  | .framingErr => s.framingErr
  | .protocolErr => s.protocolErr
  | .checksumErr => s.checksumErr
  | .patternErr => s.patternErr
  | .status => statusWord s
  | .residualLen => BitVec.ofNat 64 (min s.residual.length (2 ^ 64 - 1))

/-- Whether the spec gives the value of a status read: at rest (R62, R155), and after an overflow only the item that carries
`fault` (R225, R279; V4d reads selector 5 there). -/
def statusGiven (sel : StatusSel) (s : State) : Bool := atRest s && (!s.fault || decide (sel = .status))

/-- The selector's number (R30). -/
def selNumber : StatusSel → Nat
  | .goodFrames => 0
  | .framingErr => 1
  | .protocolErr => 2
  | .checksumErr => 3
  | .patternErr => 4
  | .status => 5
  | .residualLen => 6

/-- The error classes (R220, R225). -/
inductive ErrorClass where
  | framing | protocol | checksum | pattern | residualOverflow
  deriving DecidableEq, Repr

/-- The class code (R226). -/
def classCode : ErrorClass → Nat
  | .framing => 1
  | .protocol => 2
  | .checksum => 3
  | .pattern => 4
  | .residualOverflow => 7

/-- The event code `evt_code[2:0]` (R226): `4 + 2·[patternResult ≠ match] + [not checksumGood]` for a FRAME event. -/
def eventCode : Event → Nat
  | .framingLoss => 1
  | .protocolError => 2
  | .frame _ _ _ _ good pattern => 4 + (if pattern = .matched then 0 else 2) + (if good then 0 else 1)

/-- The FRAME event of a resolved frame (R159, R209). -/
def frameEvent (catalog : List CatalogEntry) (name : List Byte) (len : Nat) (hex payload : List Byte) : Event :=
  .frame name len hex (computedDigest payload) (checksumGood hex payload) (patternResult catalog name payload)

/-- The event a micro-step emits if DIAG (R159, R172, R190, R202): its row of the second table of R226. -/
def microEvent (s : State) : MicroStep → Option Event
  | .scanWait => none
  | .scanDropEdge => some .framingLoss
  | .scanDrop => none
  | .hdrWait => none
  | .hdrReject _ => some .protocolError
  | .payloadWait _ _ => none
  | .resolve d name len hex =>
    if Sha256.inDomain len then
      some (frameEvent s.cfg.catalog name len hex (Wire.slice s.residual (d + Wire.delimLen) (d + Wire.delimLen + len)))
    else none

/-- What stands on the event outputs while `evt_valid` is high (R160): `evt_code[2:0]` and the event fields. -/
structure EventOutput where
  evtCode : BitVec 3
  event : Event
  deriving DecidableEq, Repr

/-- An event on the outputs, under its code (R160, R226). -/
def eventOutput (ev : Event) : EventOutput := { evtCode := BitVec.ofNat 3 (eventCode ev), event := ev }

/-- The outputs of the informative port list (R160). `evt_valid` is that `evt` holds something. `inReady` is the weakest
choice R160 allows: it may be low only while a Run is in progress. DESIGN CHOICE, log entry 22. -/
structure Ports where
  goodFrames : Counter
  framingErr : Counter
  protocolErr : Counter
  checksumErr : Counter
  patternErr : Counter
  sync : Bool
  fault : Bool
  busy : Bool
  inReady : Bool
  evt : Option EventOutput
  deriving DecidableEq, Repr

/-- A status output: the item where the spec gives its value, else any value, which the reader of the ports supplies (R160
"valid whenever `busy = 0`", R279). DESIGN CHOICE, log entry 22: after an overflow `sync` and `fault` stand as STATUS does
(log entry 10). -/
def statusOutput (free : StatusSel → Counter) (s : State) (sel : StatusSel) : Counter :=
  if statusGiven sel s then statusItem s sel else free sel

/-- The outputs in a state (R160). The event outputs are those of the micro-step the state is about to perform: none at
rest, none without DIAG, none once the micro-steps are stuck. -/
def ports (free : StatusSel → Counter) (s : State) : Ports :=
  { goodFrames := statusOutput free s .goodFrames, framingErr := statusOutput free s .framingErr
    protocolErr := statusOutput free s .protocolErr, checksumErr := statusOutput free s .checksumErr
    patternErr := statusOutput free s .patternErr
    sync := (statusOutput free s .status).getLsbD 0, fault := (statusOutput free s .status).getLsbD 1
    busy := !atRest s, inReady := atRest s
    evt := if s.cfg.diag = true ∧ s.fault = false then (microEvent s (selected s)).map eventOutput else none }

end Sys2Proof.Machine
end

