-- ==== Sys2Proof/Machine/Ops.lean ====
section
/-! DEFINITION. The named operations every meaning is written in: the three primitives of `residual` (R51), the counter
increment (R24), taking an error (R226, R229) and the return from a loss of synchronisation (R231), the event output
(R159), the value an operation returns; and how an operation stops. -/

namespace Sys2Proof.Machine

/-- What an operation answers. -/
abbrev Answer := Host.Outcome State Fault Refusal

/-- Go on with the next state, or stop as the first part stopped. -/
def andThen (o : Answer) (k : State → Answer) : Answer :=
  match o with
  | .next s => k s
  | .fault r => .fault r
  | .refused r => .refused r

/-- `MemRead(i, n)` (R51). -/
def memRead (s : State) (i n : Nat) : List Byte := Wire.slice s.residual i (i + n)

/-- A byte string as a function sees it that may read below index `n`: MemRead is defined only where the bytes exist (R51), so
each byte beyond its end is a free value. DESIGN CHOICE, log entry 13. -/
def readTo (s : State) (r : List Byte) (n : Nat) : List Byte :=
  r ++ (List.range' r.length (n - r.length)).map (Config.openByte s.openReads)

/-- The state after such a reading: a draw is counted where there were bytes to draw. -/
def drawTo (s : State) (r : List Byte) (n : Nat) : State :=
  { s with openReads := if r.length < n then s.openReads + 1 else s.openReads }

/-- `Append(b)` (R51). -/
def append (s : State) (b : Byte) : State := { s with residual := s.residual ++ [b] }

/-- `DropFront(n)` (R51). -/
def dropFront (s : State) (n : Nat) : State := { s with residual := s.residual.drop n }

/-- `Inc(c)` (R24): saturating. -/
def inc (c : Counter) : Counter := if c = BitVec.allOnes 64 then c else c + 1#64

/-- Taking an error: the counter of its class and what it does to `sync` or `fault`, as the table of R226 says. Nothing is
saved and control goes nowhere but back to the selection (R229). The bytes dropped are the micro-step's own. -/
def raise (e : ErrorClass) (s : State) : State :=
  match e with
  | .framing => { s with sync := false, framingErr := inc s.framingErr }
  | .protocol => { s with sync := false, protocolErr := inc s.protocolErr }
  | .checksum => { s with sync := true, checksumErr := inc s.checksumErr }
  | .pattern => { s with sync := true, patternErr := inc s.patternErr }
  | .residualOverflow => { s with fault := true }

/-- The return from a loss of synchronisation: `sync <- 1`, nothing is restored (R231). -/
def resync (s : State) : State := { s with sync := true }

/-- A good frame (R206). -/
def countGood (s : State) : State := { s with goodFrames := inc s.goodFrames }

/-- EMIT(event), only if DIAG (R159). -/
def emitEvent (ev : Event) (s : State) : State :=
  { s with eventLog := if s.cfg.diag then s.eventLog ++ [ev] else s.eventLog }

/-- An operation returns a value (log entry 5). -/
def returnValue (s : State) (v : Result) : State := { s with result := v }

/-- A micro-step runs only where its guard holds (R90), and not after a fault (U1). -/
def whenGuarded (m : MicroStep) (s : State) (k : Answer) : Answer :=
  if s.fault then .fault .stuckAfterOverflow
  else if microGuard s.cfg s.residual s.sync m then k
  else .refused .notSelected

/-- Something that computes the SHA-256 of `n` bytes (R140, U5). -/
def whenDigestDefined (n : Nat) (k : Answer) : Answer :=
  if Sha256.inDomain n then k else .refused .digestUndefined

/-- Reset: every piece of the sink's state at its reset value (R34, R151). The parameters stay, and what the host has still
to do; so does the model's count of free values. -/
def resetState (s : State) : State := { State.resetWith s.cfg with openReads := s.openReads, host := s.host }

/-- The bytes of `residual` as (index, byte) cells from an index on (R50). -/
def Memory.cellsFrom : Nat → List Byte → List Host.Cell
  | _, [] => []
  | i, b :: rest => (i, b) :: Memory.cellsFrom (i + 1) rest

/-- The memory as cells: index 0 is the front (R50). There is no unlisted address to give a value to. -/
def Memory.cells (s : State) : List Host.Cell := Memory.cellsFrom 0 s.residual

/-- The canonical form of a list of cells: addresses strictly rising, every index from the first on present. -/
def Memory.wfFrom : Nat → List Host.Cell → Bool
  | _, [] => true
  | i, c :: rest => decide (c.1 = i) && Memory.wfFrom (i + 1) rest

/-- The canonical form of the memory. -/
def Memory.wf (m : List Host.Cell) : Bool := Memory.wfFrom 0 m

end Sys2Proof.Machine
end

