-- ==== Sys2Proof/Machine/Functions.lean ====
section
/-! DEFINITION. The pure functions of 40_pattern_functions.md, 41_frame_encoder.md and 42_sha256.md as operations: they read
and write no state of the sink, and their value is what the operation returns. -/

namespace Sys2Proof.Machine

/-- GENERATE(seed, length) (R101). -/
def execGenerate (seed : NEBytes) (length : Nat) (s : State) : Answer :=
  .next (returnValue s (.bytes (Pattern.generate seed length)))

/-- VERIFY(seed, payload) (R103). -/
def execVerify (seed : NEBytes) (payload : List Byte) (s : State) : Answer :=
  .next (returnValue s (.verdict (Pattern.verify seed payload)))

/-- LOOKUP(name) (R106), in the instance's catalog. -/
def execLookup (name : List Byte) (s : State) : Answer :=
  .next (returnValue s (.seed (Pattern.lookup s.cfg.catalog name)))

/-- ENCODE(name, payload) (R121). -/
def execEncodeFrame (name payload : List Byte) (s : State) : Answer :=
  whenDigestDefined payload.length (.next (returnValue s (.bytes (Encoder.encode name payload))))

/-- DEC(v) (R122). -/
def execDec (v : Nat) (s : State) : Answer := .next (returnValue s (.bytes (Encoder.dec v)))

/-- SHA256(msg) (R130), on a message shorter than 2^61 bytes (R140). -/
def execSha256 (msg : List Byte) (s : State) : Answer :=
  whenDigestDefined msg.length (.next (returnValue s (.bytes (Sha256.sha256 msg))))

/-- HEXLOWER(b) (R139). -/
def execHexLower (b : List Byte) (s : State) : Answer := .next (returnValue s (.bytes (Sha256.hexLower b)))

end Sys2Proof.Machine
end

