-- ==== Sys2Proof/Machine/HeaderSteps.lean ====
section
/-! DEFINITION. The header micro-steps of 45_header.md, HDR_WAIT and HDR_REJECT, and the parser's functions taken alone:
FindDelim, FindField, Parse, Utf8At. -/

namespace Sys2Proof.Machine

/-- HDR_WAIT (R182): nothing changes, the decoder rests in phase HEADER. -/
def execHdrWait (s : State) : Answer := whenGuarded .hdrWait s (.next s)

/-- HDR_REJECT (R190): one ProtocolError, everything through the delimiter dropped. -/
def execHdrReject (d : Nat) (s : State) : Answer :=
  whenGuarded (.hdrReject d) s (.next (dropFront (emitEvent .protocolError (raise .protocol s)) (d + Wire.delimLen)))

/-- FindDelim(r) (R181). -/
def execFindDelim (r : List Byte) (s : State) : Answer := .next (returnValue s (.index (Wire.findDelim r)))

/-- FindField(r, d, label, Run) (R184). Where `d` lies beyond the bytes, those it reads there are free values. -/
def execFindField (r : List Byte) (d : Nat) (label : List Byte) (run : RunKind) (s : State) : Answer :=
  .next (returnValue (drawTo s r d) (.field (Wire.findField s.cfg (readTo s r d) d label run)))

/-- Parse(r, d) (R191). Where `d` lies beyond the bytes, those it reads there are free values. -/
def execParse (r : List Byte) (d : Nat) (s : State) : Answer :=
  .next (returnValue (drawTo s r d) (.header (Wire.parse s.cfg (readTo s r d) d)))

/-- Utf8At(r, i, e) (R77). Where `i` or the segment lies beyond the bytes, those it reads there are free values. -/
def execUtf8At (r : List Byte) (i e : Nat) (s : State) : Answer :=
  .next (returnValue (drawTo s r (max (i + 1) e)) (.codePoint (Wire.utf8At (readTo s r (max (i + 1) e)) i e)))

end Sys2Proof.Machine
end

