-- ==== Sys2Proof/Machine/Resolve.lean ====
section
/-! DEFINITION. The payload micro-steps of 46_resolve.md: PAYLOAD_WAIT and RESOLVE. -/

namespace Sys2Proof.Machine

/-- PAYLOAD_WAIT (R201): nothing changes, the decoder rests in phase PAYLOAD. -/
def execPayloadWait (d len : Nat) (s : State) : Answer := whenGuarded (.payloadWait d len) s (.next s)

/-- The counters of a resolved frame: the three independent `if`s of R202, the table of R206. -/
def classify (good : Bool) (pattern : PatternResult) (s : State) : State :=
  let s1 := if good = true ∧ pattern = .matched then countGood s else s
  let s2 := if good then s1 else raise .checksum s1
  if pattern = .matched then s2 else raise .pattern s2

/-- What RESOLVE does to the state, given the payload (R202): synchronised, the frame consumed, classified, reported. -/
def resolveFrame (d : Nat) (name : List Byte) (len : Nat) (hex : List Byte) (s : State) : State :=
  let payload := memRead s (d + Wire.delimLen) len
  let taken := dropFront (resync s) (d + Wire.delimLen + len)
  emitEvent (frameEvent s.cfg.catalog name len hex payload)
    (classify (checksumGood hex payload) (patternResult s.cfg.catalog name payload) taken)

/-- RESOLVE (R202). -/
def execResolve (d : Nat) (name : List Byte) (len : Nat) (hex : List Byte) (s : State) : Answer :=
  whenGuarded (.resolve d name len hex) s (whenDigestDefined len (.next (resolveFrame d name len hex s)))

end Sys2Proof.Machine
end

