-- ==== Sys2Proof/Machine/Scan.lean ====
section
/-! DEFINITION. The scanner micro-steps of 44_scan.md: SCAN_WAIT, SCAN_DROP_EDGE, SCAN_DROP. -/

namespace Sys2Proof.Machine

/-- SCAN_WAIT (R171): nothing changes, the decoder rests in phase SCAN. -/
def execScanWait (s : State) : Answer := whenGuarded .scanWait s (.next s)

/-- SCAN_DROP_EDGE (R172): one FramingError, one byte dropped. -/
def execScanDropEdge (s : State) : Answer :=
  whenGuarded .scanDropEdge s (.next (dropFront (emitEvent .framingLoss (raise .framing s)) 1))

/-- SCAN_DROP (R173): one byte dropped, nothing counted. -/
def execScanDrop (s : State) : Answer := whenGuarded .scanDrop s (.next (dropFront s 1))

end Sys2Proof.Machine
end

