-- ==== Sys2Proof/Machine/HostOps.lean ====
section
/-! DEFINITION. The host operations of 43_interface_ops.md, RESET, WRITE, PUTBYTE, READ_STATUS, the event output EMIT, and the
decode loop Micro and Run (R154). -/

namespace Sys2Proof.Machine

/-- One micro-step. -/
def runMicroStep (m : MicroStep) (s : State) : Answer :=
  match m with
  | .scanWait => execScanWait s
  | .scanDropEdge => execScanDropEdge s
  | .scanDrop => execScanDrop s
  | .hdrWait => execHdrWait s
  | .hdrReject d => execHdrReject d s
  | .payloadWait d len => execPayloadWait d len s
  | .resolve d name len hex => execResolve d name len hex s

/-- `Micro()` (R154): the micro-step the state selects. -/
def micro (s : State) : Answer := runMicroStep (selected s) s

/-- `Run()` (R154): `Micro` until it reports rest. The first argument bounds the micro-steps. -/
def runLoop : Nat → State → Answer
  | 0, s => .next s
  | n + 1, s => if (selected s).isRest then micro s else andThen (micro s) (runLoop n)

/-- `Run()` with the bound of R157: a continuing micro-step shortens `residual`, so as many as it has bytes, and one wait. -/
def decodeLoop (s : State) : Answer := runLoop (s.residual.length + 1) s

/-- The capacity test at the end of PUTBYTE (R58, R153, R225). -/
def testCapacity (s : State) : State := if overflow s then raise .residualOverflow s else s

/-- One accepted byte (R153): stuck after a fault (U1), defined at rest (U2). -/
def putByte (b : Byte) (s : State) : Answer :=
  if s.fault then .fault .stuckAfterOverflow
  else if atRest s then andThen (decodeLoop (append s b)) fun t => .next (testCapacity t)
  else .refused .overlappingWrite

/-- The bytes of a chunk, each a PUTBYTE, in order (R152). -/
def putBytes : List Byte → State → Answer
  | [], s => .next s
  | b :: rest, s => andThen (putByte b s) (putBytes rest)

/-- The bytes, then `bytesAccepted` (R152). -/
def acceptBytes (chunk : List Byte) (s : State) : Answer :=
  andThen (putBytes chunk s) fun t => .next (returnValue t (.accepted chunk.length))

/-- RESET (R151). -/
def execReset (s : State) : Answer := .next (resetState s)

/-- WRITE(chunk) (R152). -/
def execWrite (chunk : List Byte) (s : State) : Answer := acceptBytes chunk s

/-- PUTBYTE(b) (R153). It returns no value. -/
def execPutbyte (b : Byte) (s : State) : Answer := putByte b s

/-- READ_STATUS(sel) (R155): the item, where the spec gives its value. Where the read overlaps a PUTBYTE (U3), or asks for a
counter or the length after an overflow (R279), the value is any value: a free one, new each time. -/
def execReadStatus (sel : StatusSel) (s : State) : Answer :=
  if statusGiven sel s then .next (returnValue s (.status (statusItem s sel)))
  else .next { returnValue s (.status (Config.openStatus s.openReads)) with openReads := s.openReads + 1 }

/-- EMIT(event) (R159). -/
def execEmit (ev : Event) (s : State) : Answer := .next (emitEvent ev s)

end Sys2Proof.Machine
end

