-- ==== Sys2Proof/Machine/Tokens.lean ====
section
/-! DEFINITION. The tokens and the frame as operations of the program: the program is the input byte stream (R19), a token of
it is the WRITE of the token's bytes (R88, R152). Log entry 6. What the decoder then recognises in them is in `Wire` and in
the selection table. -/

namespace Sys2Proof.Machine

/-- MARKER (R71) arrives on the stream. -/
def execMarker (s : State) : Answer := acceptBytes Wire.markerBytes s

/-- DELIM (R72) arrives on the stream. -/
def execDelim (s : State) : Answer := acceptBytes Wire.delimBytes s

/-- L_PATTERN (R73) arrives on the stream. -/
def execLPattern (s : State) : Answer := acceptBytes Wire.labelPattern s

/-- L_LENGTH (R73) arrives on the stream. -/
def execLLength (s : State) : Answer := acceptBytes Wire.labelLength s

/-- L_SHA256 (R73) arrives on the stream. -/
def execLSha256 (s : State) : Answer := acceptBytes Wire.labelSha256 s

/-- FRAME (R74): the canonical frame of a name and a payload arrives on the stream. -/
def execFrame (name payload : List Byte) (s : State) : Answer :=
  whenDigestDefined payload.length (acceptBytes (Encoder.encode name payload) s)

end Sys2Proof.Machine
end

