-- ==== Sys2Proof/Machine/Dispatch.lean ====
section
/-! DEFINITION. One arm per row of spec/opcode_table.json, each a direct call of that operation's own meaning. -/

namespace Sys2Proof.Machine

def exec (i : Instr) (s : State) : Host.Outcome State Fault Refusal :=
  match i with
  -- tokens and the frame, as pieces of the input stream
  | .marker => Sys2Proof.Machine.execMarker s
  | .delim => Sys2Proof.Machine.execDelim s
  | .lPattern => Sys2Proof.Machine.execLPattern s
  | .lLength => Sys2Proof.Machine.execLLength s
  | .lSha256 => Sys2Proof.Machine.execLSha256 s
  | .frame name payload => Sys2Proof.Machine.execFrame name payload s
  -- micro-steps
  | .scanWait => Sys2Proof.Machine.execScanWait s
  | .scanDropEdge => Sys2Proof.Machine.execScanDropEdge s
  | .scanDrop => Sys2Proof.Machine.execScanDrop s
  | .hdrWait => Sys2Proof.Machine.execHdrWait s
  | .hdrReject d => Sys2Proof.Machine.execHdrReject d s
  | .payloadWait d len => Sys2Proof.Machine.execPayloadWait d len s
  | .resolve d name len hex => Sys2Proof.Machine.execResolve d name len hex s
  -- host operations and the event output
  | .reset => Sys2Proof.Machine.execReset s
  | .write chunk => Sys2Proof.Machine.execWrite chunk s
  | .putbyte b => Sys2Proof.Machine.execPutbyte b s
  | .readStatus sel => Sys2Proof.Machine.execReadStatus sel s
  | .emit ev => Sys2Proof.Machine.execEmit ev s
  -- pure functions
  | .generate seed length => Sys2Proof.Machine.execGenerate seed length s
  | .verify seed payload => Sys2Proof.Machine.execVerify seed payload s
  | .lookup name => Sys2Proof.Machine.execLookup name s
  | .encodeFrame name payload => Sys2Proof.Machine.execEncodeFrame name payload s
  | .dec v => Sys2Proof.Machine.execDec v s
  | .sha256 msg => Sys2Proof.Machine.execSha256 msg s
  | .hexLower b => Sys2Proof.Machine.execHexLower b s
  | .findDelim r => Sys2Proof.Machine.execFindDelim r s
  | .findField r d label run => Sys2Proof.Machine.execFindField r d label run s
  | .parse r d => Sys2Proof.Machine.execParse r d s
  | .utf8At r j e => Sys2Proof.Machine.execUtf8At r j e s

end Sys2Proof.Machine
end

