-- ==== Sys2Proof/Machine/Fetch.lean ====
section
/-! DEFINITION. What the block does next: a micro-step while it is not at rest (R60: the micro-steps enabled by a byte all
complete before the next byte is appended), else what the host offers, else the wait (R171, R182, R201). Log entry 20. -/

namespace Sys2Proof.Machine

/-- The operation fetched and the state it runs in, or why there is none. -/
inductive Fetched where
  | run (i : Instr) (s : State)
  | refused (why : Refusal)
  deriving DecidableEq, Repr

/-- What is left of a stream item, in front of the rest of the host's program. -/
def keepStream (behind : List Byte) (rest : List HostItem) : List HostItem :=
  if behind.isEmpty then rest else .bytes behind :: rest

/-- The next thing the host does. Stream bytes go through the stream decoder; an empty piece of stream is WRITE("")
(R152). With nothing offered the decoder performs the wait its state selects. -/
def fetchHost (s : State) : Fetched :=
  match s.host with
  | [] => .run (selected s).toInstr s
  | .op i :: rest => if i.byHost then .run i { s with host := rest } else .refused .notAHostOperation
  | .bytes bs :: rest =>
    match decode s.cfg bs with
    | .rejected _ => .run (.write []) { s with host := rest }
    | .found i behind => .run i { s with host := keepStream behind rest }

/-- The next operation. After a fault the micro-steps are stuck, and the host is still heard (RESET, U1). -/
def fetch (s : State) : Fetched :=
  if s.fault = false ∧ atRest s = false then .run (selected s).toInstr s else fetchHost s

end Sys2Proof.Machine
end

