-- ==== Sys2Proof/Machine/Step.lean ====
section
/-! DEFINITION. One step: fetch, then run what was fetched; and the placing of an instruction's bytes where the step fetches
them. -/

namespace Sys2Proof.Machine

/-- One step of the block. -/
def step (s : State) : Host.Outcome State Fault Refusal :=
  match fetch s with
  | .run i t => exec i t
  | .refused why => .refused why

/-- `s` with the bytes of a number next on the input stream. The step hears the host only at rest (or after a fault), so a
state that is not at rest loses the bytes it has not yet decoded (log entry 21). -/
def State.withFetchWord (s : State) (nbits w : Nat) : State :=
  { s with
    residual := if s.fault = false ∧ atRest s = false then [] else s.residual
    host := .bytes (streamBytes nbits w) :: s.host }

end Sys2Proof.Machine
end

