-- ==== Sys2Proof/Safety.lean ====
section
/-! DEFINITION. What claims about the sink are stated in: what the host observes (00_scope.md R13), the promises the spec makes
about whole runs (the rest invariant R29, counters that never fall R25, the sticky fault R26, the event log R33), how many
bytes a micro-step removes, the source's own formulation of `write` (R152, R156), and a reference UTF-8 encoder (R77). -/

namespace Sys2Proof.Machine

/-- What the host can observe at rest (R13): the five counters, `sync`, and the `fault` flag this spec adds. -/
structure Observation where
  goodFrames : Counter
  framingErr : Counter
  protocolErr : Counter
  checksumErr : Counter
  patternErr : Counter
  sync : Bool
  fault : Bool
  deriving DecidableEq, Repr

/-- The observation of a state (R13). -/
def observe (s : State) : Observation :=
  { goodFrames := s.goodFrames, framingErr := s.framingErr, protocolErr := s.protocolErr
    checksumErr := s.checksumErr, patternErr := s.patternErr, sync := s.sync, fault := s.fault }

/-- Every counter of `s` is at most the same counter of `t` (R25). -/
abbrev CountersLe (s t : State) : Prop :=
  s.goodFrames ≤ t.goodFrames ∧ s.framingErr ≤ t.framingErr ∧ s.protocolErr ≤ t.protocolErr ∧
    s.checksumErr ≤ t.checksumErr ∧ s.patternErr ≤ t.patternErr

/-- How many bytes a micro-step removes from the front (R51, R55). -/
def bytesDropped : MicroStep → Nat
  | .scanWait => 0
  | .scanDropEdge => 1
  | .scanDrop => 1
  | .hdrWait => 0
  | .hdrReject d => d + 2
  | .payloadWait _ _ => 0
  | .resolve d _ len _ => d + 2 + len

/-- The sink is live: no overflow has happened, and it is at rest. What R153 asks of a PUTBYTE. -/
abbrev Live (s : State) : Prop := s.fault = false ∧ atRest s = true

/-- There is room for `n` more bytes, whatever the micro-steps remove: the bytes fit `RESIDUAL_CAP` (R58) and stay short of
what SHA-256 is defined on (R140). -/
abbrev RoomFor (s : State) (n : Nat) : Prop :=
  Wire.within s.cfg.residualCap (s.residual.length + n) = true ∧ s.residual.length + n < 2 ^ 61

/-- The marker occurs somewhere in a byte string (R174). -/
abbrev HasMarker (bs : List Byte) : Prop := ∃ i, (bs.drop i).take 11 = Wire.markerBytes

/-- The source's own formulation of `write` (R152): append the whole chunk, then run the loop once. -/
def sourceWrite (chunk : List Byte) (s : State) : Answer := decodeLoop { s with residual := s.residual ++ chunk }

/-- One continuing micro-step: the sink is not at rest and the selected micro-step answers `t` (R154). -/
abbrev Continues (s t : State) : Prop := atRest s = false ∧ exec (selected s).toInstr s = .next t

/-- `t` is reached from `s` by micro-steps alone: what `Run` does before it rests (R154). -/
abbrev RunsTo (s t : State) : Prop := Relation.ReflTransGen Continues s t

/-- The micro-steps one `Run` performs, the wait that ends it among them (R157); the first argument bounds their number. -/
def loopTrace : Nat → State → List MicroStep
  | 0, _ => []
  | n + 1, s =>
    selected s ::
      (if atRest s then []
        else
          match exec (selected s).toInstr s with
          | .next t => loopTrace n t
          | .fault _ => []
          | .refused _ => [])

/-- The micro-steps that resolve a frame or reject a header (R157). -/
def MicroStep.endsHeader (m : MicroStep) : Bool := decide (m.row = 5 ∨ m.row = 7)

/-- The state apart from the value the last operation returned. -/
def forgetResult (s : State) : State := { s with result := .none }

/-- An answer apart from the value returned. -/
def answerForgetResult (o : Answer) : Answer :=
  match o with
  | .next s => .next (forgetResult s)
  | .fault r => .fault r
  | .refused r => .refused r

/-- A 64-bit saturating count of `n` events (R24). -/
def saturated (n : Nat) : Counter := BitVec.ofNat 64 (min n (2 ^ 64 - 1))

/-- FRAMING_LOSS events (R159). -/
def Event.isFramingLoss : Event → Bool
  | .framingLoss => true
  | _ => false

/-- PROTOCOL_ERROR events (R159). -/
def Event.isProtocolError : Event → Bool
  | .protocolError => true
  | _ => false

/-- FRAME events of a good frame (R206). -/
def Event.isGood : Event → Bool
  | .frame _ _ _ _ good pattern => good && decide (pattern = .matched)
  | _ => false

/-- FRAME events of a frame with a bad checksum (R206). -/
def Event.isBadChecksum : Event → Bool
  | .frame _ _ _ _ good _ => !good
  | _ => false

/-- FRAME events of a frame with a wrong or unknown pattern (R206). -/
def Event.isBadPattern : Event → Bool
  | .frame _ _ _ _ _ pattern => !decide (pattern = .matched)
  | _ => false

/-- With DIAG the event log accounts for every counter (R33, R159: an event is appended in the micro-step that changes the
counters). -/
abbrev LogExplainsCounters (s : State) : Prop :=
  s.cfg.diag = true →
    s.framingErr = saturated (s.eventLog.countP Event.isFramingLoss) ∧
    s.protocolErr = saturated (s.eventLog.countP Event.isProtocolError) ∧
    s.goodFrames = saturated (s.eventLog.countP Event.isGood) ∧
    s.checksumErr = saturated (s.eventLog.countP Event.isBadChecksum) ∧
    s.patternErr = saturated (s.eventLog.countP Event.isBadPattern)

/-- Without DIAG the log is empty (R33, V47). -/
abbrev LogEmptyWithoutDiag (s : State) : Prop := s.cfg.diag = false → s.eventLog = []

/-- With an unbounded buffer there is never a fault (R26). -/
abbrev NoFaultWhenUnbounded (s : State) : Prop := s.cfg.residualCap = none → s.fault = false

/-- UTF-8 of a code point, shortest form: what `Utf8At` is the strict inverse of (R77). -/
def utf8Encode (cp : Nat) : List Byte :=
  if cp < 0x80 then [BitVec.ofNat 8 cp]
  else if cp < 0x800 then [BitVec.ofNat 8 (0xC0 + cp / 64), BitVec.ofNat 8 (0x80 + cp % 64)]
  else if cp < 0x10000 then
    [BitVec.ofNat 8 (0xE0 + cp / 4096), BitVec.ofNat 8 (0x80 + cp / 64 % 64), BitVec.ofNat 8 (0x80 + cp % 64)]
  else
    [BitVec.ofNat 8 (0xF0 + cp / 262144), BitVec.ofNat 8 (0x80 + cp / 4096 % 64),
     BitVec.ofNat 8 (0x80 + cp / 64 % 64), BitVec.ofNat 8 (0x80 + cp % 64)]

/-- A code point outside ASCII that UTF-8 may encode: no surrogate, at most U+10FFFF (R77). -/
abbrev ScalarBeyondAscii (cp : Nat) : Prop := 0x80 ≤ cp ∧ cp ≤ 0x10FFFF ∧ ¬(0xD800 ≤ cp ∧ cp ≤ 0xDFFF)

end Sys2Proof.Machine
end

