-- ==== Sys2Proof/WellFormed.lean ====
section
/-! DEFINITION. When the operands of an operation are in the domain the spec gives them: non-empty names (R80, R106), names
of word characters in a FRAME (R74, R124), delimiters at 11 or later (R181), hexadecimal digits (R82), slices inside their
byte string (R51), messages SHA-256 is defined on (R140). -/

namespace Sys2Proof

/-- Whether a name is non-empty and made of word characters only (R80, R124). -/
def wellFormedName (c : Config) (name : List Byte) : Bool :=
  !name.isEmpty && decide (Wire.runWord c name 0 name.length = name.length)

/-- The fields of an event (R159): a FRAME event's digest is 64 characters, its name and declared digest are not empty. -/
def Event.wellFormed : Event → Bool
  | .framingLoss => true
  | .protocolError => true
  | .frame name _ declared computed _ _ =>
    !name.isEmpty && !declared.isEmpty && declared.all Wire.isHex && decide (computed.length = 64)

/-- Well-formedness of an operation, under the parameters (only a FRAME's name depends on them). -/
def Instr.wellFormed (c : Config) : Instr → Bool
  | .marker | .delim | .lPattern | .lLength | .lSha256 => true
  | .frame name payload => wellFormedName c name && Sha256.inDomain payload.length
  | .scanWait | .scanDropEdge | .scanDrop | .hdrWait => true
  | .hdrReject d => decide (Wire.markerLen ≤ d)
  | .payloadWait d _ => decide (Wire.markerLen ≤ d)
  | .resolve d name _ hex => decide (Wire.markerLen ≤ d) && !name.isEmpty && (!hex.isEmpty && hex.all Wire.isHex)
  | .reset | .write _ | .putbyte _ | .readStatus _ => true
  | .emit ev => ev.wellFormed
  | .generate _ _ | .verify _ _ => true
  | .lookup name => !name.isEmpty
  | .encodeFrame _ payload => Sha256.inDomain payload.length
  | .dec _ => true
  | .sha256 msg => Sha256.inDomain msg.length
  | .hexLower _ | .findDelim _ => true
  | .findField r d _ _ => decide (d ≤ r.length)
  | .parse r d => decide (d ≤ r.length)
  | .utf8At r i e => decide (i < r.length) && decide (e ≤ r.length)

end Sys2Proof
end

