-- ==== Sys2Proof/Certificates/Slice0/Obligations.lean ====
section
/-! DEFINITION. The statements about the model, for the provers. Each docstring names the rule of spec/ it comes from. A
statement of an operation's result is an equation `exec i s = .next t`, so it says where the operation completes, and its
frame: a field the equation does not name keeps its value. -/

open Sys2Proof Sys2Proof.Machine

/-! ## Fetching and decoding -/

/-- A step runs what is fetched: a micro-step while the sink is not at rest, else the host's next bytes or operation, else
the wait. (R60, R154; the host's list is the model's, log entries 1, 14 and 20.) -/
def Obligations.StepRunsTheFetchedOperation : Prop :=
  ∀ s : State,
    (s.fault = false → atRest s = false → step s = exec (selected s).toInstr s) ∧
    ((s.fault = true ∨ atRest s = true) →
      (s.host = [] → step s = exec (selected s).toInstr s) ∧
      (∀ bs rest i behind, s.host = .bytes bs :: rest → decode s.cfg bs = .found i behind →
        step s = exec i { s with host := if behind = [] then rest else .bytes behind :: rest }) ∧
      (∀ rest, s.host = .bytes [] :: rest → step s = exec (.write []) { s with host := rest }) ∧
      (∀ i rest, s.host = .op i :: rest → i.byHost = true → step s = exec i { s with host := rest }) ∧
      (∀ i rest, s.host = .op i :: rest → i.byHost = false → step s = .refused .notAHostOperation))

/-- Bytes written out from 30_encoding.md R71 to R73 decode to the tokens they stand for, and any other byte to a PUTBYTE;
the numbers are the same bytes, the first byte lowest (log entry 21). -/
def Obligations.WrittenOutBytesDecode : Prop :=
  decode Config.default
    [0x0A#8, 0x0A#8, 0x50#8, 0x61#8, 0x74#8, 0x74#8, 0x65#8, 0x72#8, 0x6E#8, 0x3A#8, 0x20#8] = .found .marker [] ∧
  decode Config.default
    [0x50#8, 0x61#8, 0x74#8, 0x74#8, 0x65#8, 0x72#8, 0x6E#8, 0x3A#8, 0x20#8, 0x41#8] = .found .lPattern [0x41#8] ∧
  decode Config.default [0x4C#8, 0x65#8, 0x6E#8, 0x67#8, 0x74#8, 0x68#8, 0x3A#8, 0x20#8] = .found .lLength [] ∧
  decode Config.default [0x53#8, 0x68#8, 0x61#8, 0x32#8, 0x35#8, 0x36#8, 0x3A#8, 0x20#8] = .found .lSha256 [] ∧
  decode Config.default [0x0A#8, 0x0A#8, 0x0A#8] = .found .delim [0x0A#8] ∧
  decode Config.default [0x0D#8, 0x0A#8] = .found (.putbyte 0x0D#8) [0x0A#8] ∧
  decode Config.default [] = .rejected .emptyStream ∧
  decodeTableWord 88 0x203A6E7265747461500A0A = some .marker ∧
  decodeTableWord 16 0x0A0A = some .delim ∧
  decodeTableWord 72 0x203A6E726574746150 = some .lPattern ∧
  decodeTableWord 64 0x203A6874676E654C = some .lLength ∧
  decodeTableWord 64 0x203A363532616853 = some .lSha256

/-- Decoding what the encoder writes gives the operation back, for every well-formed operation that has bytes on the stream:
the five tokens, a PUTBYTE, and FRAME with every name of word characters and every payload (R71 to R74). -/
def Obligations.StreamDecodeOfEncode : Prop :=
  ∀ (c : Config) (i : Instr) (bs : List Byte),
    i.wellFormed c = true → encode i = some bs → decode c bs = .found i []

/-- R90: the table is total and every state selects exactly one row: each row's own guard holds for the selected micro-step
and for no other. -/
def Obligations.SelectionTableIsTotalAndExclusive : Prop :=
  ∀ (c : Config) (r : List Byte) (sync : Bool) (m : MicroStep), microGuard c r sync m = true ↔ m = select c r sync

/-- R71: a frame start is recognised if and only if the 11 marker bytes stand at the front of `residual`. -/
def Obligations.FrameStartIsTheMarkerAtTheFront : Prop :=
  ∀ s : State, 4 ≤ (selected s).row ↔
    s.residual.take 11 = [0x0A#8, 0x0A#8, 0x50#8, 0x61#8, 0x74#8, 0x74#8, 0x65#8, 0x72#8, 0x6E#8, 0x3A#8, 0x20#8]

/-! ## Micro-steps -/

/-- R171, R182, R201: the three waits change nothing, and the sink is at rest in the phase of R28. -/
def Obligations.WaitsChangeNothing : Prop :=
  ∀ s : State, s.fault = false →
    (s.residual.length < 11 → exec .scanWait s = .next s ∧ atRest s = true ∧ phase s = some .scan) ∧
    (s.residual.take 11 = Wire.markerBytes → Wire.findDelim s.residual = none →
      exec .hdrWait s = .next s ∧ atRest s = true ∧ phase s = some .header) ∧
    (∀ d h, s.residual.take 11 = Wire.markerBytes → Wire.findDelim s.residual = some d →
      Wire.parse s.cfg s.residual d = some h → s.residual.length < d + 2 + h.len →
      exec (.payloadWait d h.len) s = .next s ∧ atRest s = true ∧ phase s = some .payload)

/-- R172: SCAN_DROP_EDGE counts one framing error, clears `sync` and drops the first byte, whatever it is; it is no rest. -/
def Obligations.ScanDropEdgeCountsOneFramingError : Prop :=
  ∀ s : State, s.fault = false → 11 ≤ s.residual.length → s.residual.take 11 ≠ Wire.markerBytes → s.sync = true →
    atRest s = false ∧ exec .scanDropEdge s = .next
      { s with
        sync := false
        framingErr := inc s.framingErr
        residual := s.residual.drop 1
        eventLog := if s.cfg.diag = true then s.eventLog ++ [.framingLoss] else s.eventLog }

/-- R173: SCAN_DROP drops the first byte and nothing else changes; it is no rest. -/
def Obligations.ScanDropCountsNothing : Prop :=
  ∀ s : State, s.fault = false → 11 ≤ s.residual.length → s.residual.take 11 ≠ Wire.markerBytes → s.sync = false →
    atRest s = false ∧ exec .scanDrop s = .next { s with residual := s.residual.drop 1 }

/-- R190: HDR_REJECT clears `sync`, counts one protocol error however many fields are bad, and discards everything through
the delimiter; it is no rest. -/
def Obligations.HdrRejectDiscardsTheHeader : Prop :=
  ∀ (s : State) (d : Nat), s.fault = false → s.residual.take 11 = Wire.markerBytes →
    Wire.findDelim s.residual = some d → Wire.parse s.cfg s.residual d = none →
    atRest s = false ∧ exec (.hdrReject d) s = .next
      { s with
        sync := false
        protocolErr := inc s.protocolErr
        residual := s.residual.drop (d + 2)
        eventLog := if s.cfg.diag = true then s.eventLog ++ [.protocolError] else s.eventLog }

/-- R202 with R203 to R206: RESOLVE synchronises, consumes header and payload, and classifies: each counter by its own
condition; it is no rest. For payloads SHA-256 is defined on (R140). -/
def Obligations.ResolveClassifiesTheFrame : Prop :=
  ∀ (s : State) (d len : Nat) (name hex : List Byte), s.fault = false → len < 2 ^ 61 →
    s.residual.take 11 = Wire.markerBytes → Wire.findDelim s.residual = some d →
    Wire.parse s.cfg s.residual d = some { name := name, len := len, hex := hex } →
    d + 2 + len ≤ s.residual.length →
    ∀ payload computed good pattern,
      payload = (s.residual.drop (d + 2)).take len →
      computed = Sha256.hexLower (Sha256.sha256 payload) →
      good = decide (Wire.lower hex = computed) →
      pattern = (match Pattern.lookup s.cfg.catalog name with
        | none => PatternResult.unknown
        | some seed => if Pattern.verify seed payload = true then PatternResult.matched else PatternResult.mismatch) →
      atRest s = false ∧ exec (.resolve d name len hex) s = .next
        { s with
          sync := true
          residual := s.residual.drop (d + 2 + len)
          goodFrames := if good = true ∧ pattern = .matched then inc s.goodFrames else s.goodFrames
          checksumErr := if good = true then s.checksumErr else inc s.checksumErr
          patternErr := if pattern = .matched then s.patternErr else inc s.patternErr
          eventLog := if s.cfg.diag = true then s.eventLog ++ [.frame name len hex computed good pattern] else s.eventLog }

/-- R174 (d), R231: among the micro-steps `sync` returns to 1 in exactly one, RESOLVE. -/
def Obligations.OnlyResolveRestoresSync : Prop :=
  ∀ (m : MicroStep) (s t : State), exec m.toInstr s = .next t → s.sync = false → t.sync = true → m.row = 7

/-- R174 (c), R221, R222, R228: `framingErr` moves only where SCAN_DROP_EDGE takes `sync` from 1 to 0, `protocolErr` only in
HDR_REJECT, so no micro-step raises both. -/
def Obligations.FramingAndProtocolErrorsHaveOneSource : Prop :=
  ∀ (m : MicroStep) (s t : State), exec m.toInstr s = .next t →
    (t.framingErr ≠ s.framingErr → m = .scanDropEdge ∧ s.sync = true ∧ t.sync = false) ∧
    (t.protocolErr ≠ s.protocolErr → m.row = 5 ∧ t.sync = false) ∧
    (t.framingErr = s.framingErr ∨ t.protocolErr = s.protocolErr)

/-- The frame of the seven micro-steps: what none of them touches, which counters each may change, and every byte of
`residual` behind the removed ones unchanged, at its new index (R21, R55, R230). Those that do not wait remove at least
one byte, HDR_REJECT and RESOLVE at least 13 (R157). -/
def Obligations.MicroStepsLeaveTheRestUnchanged : Prop :=
  ∀ (m : MicroStep) (s t : State), exec m.toInstr s = .next t →
    t.cfg = s.cfg ∧ t.fault = s.fault ∧ t.result = s.result ∧ t.openReads = s.openReads ∧ t.host = s.host ∧
    (m.row ≠ 7 → t.goodFrames = s.goodFrames ∧ t.checksumErr = s.checksumErr ∧ t.patternErr = s.patternErr) ∧
    (m.row ≠ 2 → t.framingErr = s.framingErr) ∧ (m.row ≠ 5 → t.protocolErr = s.protocolErr) ∧
    (m.row = 1 ∨ m.row = 3 ∨ m.row = 4 ∨ m.row = 6 → t.sync = s.sync ∧ t.eventLog = s.eventLog) ∧
    bytesDropped m ≤ s.residual.length ∧ t.residual.length = s.residual.length - bytesDropped m ∧
    (∀ i, memRead t i 1 = memRead s (bytesDropped m + i) 1) ∧
    (m.isRest = true → bytesDropped m = 0) ∧ (m.isRest = false → 1 ≤ bytesDropped m) ∧
    (m.row = 5 ∨ m.row = 7 → 13 ≤ bytesDropped m)

/-- A micro-step that the selection table does not run is refused by name (R90; log entry 12). -/
def Obligations.UnselectedMicroStepIsRefused : Prop :=
  ∀ (m : MicroStep) (s : State), s.fault = false → m ≠ selected s → exec m.toInstr s = .refused .notSelected

/-- R225 with U1: after an overflow the micro-steps and every accepted byte are stuck; RESET clears the fault. -/
def Obligations.OverflowIsStuckUntilReset : Prop :=
  ∀ s : State, s.fault = true →
    (∀ m : MicroStep, exec m.toInstr s = .fault .stuckAfterOverflow) ∧
    (∀ b, exec (.putbyte b) s = .fault .stuckAfterOverflow) ∧
    (∀ b bs, exec (.write (b :: bs)) s = .fault .stuckAfterOverflow) ∧
    (∃ t, exec .reset s = .next t ∧ t.fault = false)

/-! ## Host operations -/

/-- R151, R34: RESET gives every piece of state its reset value. That it does so in every state, in the middle of a PUTBYTE
too, is the model's choice (log entry 18: R260 allows RESET at any rest), and so is that the host's list stays. -/
def Obligations.ResetGivesTheResetValues : Prop :=
  ∀ s : State, ∃ t, exec .reset s = .next t ∧
    t.residual = [] ∧ t.sync = s.cfg.syncInit ∧ t.goodFrames = 0 ∧ t.framingErr = 0 ∧ t.protocolErr = 0 ∧
    t.checksumErr = 0 ∧ t.patternErr = 0 ∧ t.fault = false ∧ t.eventLog = [] ∧ t.cfg = s.cfg ∧ t.host = s.host ∧
    atRest t = true ∧ phase t = some .scan

/-- R153, R154: PUTBYTE appends the byte, runs micro-steps until the sink is at rest, and then sets `fault` exactly if
`residual` is longer than RESIDUAL_CAP. It completes on every byte, for a buffer of a size SHA-256 is defined on (R140). -/
def Obligations.PutbyteAppendsRunsAndTests : Prop :=
  ∀ (s : State) (b : Byte), s.fault = false → atRest s = true → s.residual.length + 1 < 2 ^ 61 →
    ∃ u, RunsTo { s with residual := s.residual ++ [b] } u ∧ atRest u = true ∧
      exec (.putbyte b) s = .next
        { u with
          fault := match s.cfg.residualCap with
            | none => false
            | some cap => decide (cap < u.residual.length) }

/-- The frame of PUTBYTE where the byte completes nothing: it is stored behind the newest byte, every byte that was there
reads as before, and only `fault` may change beside it (R51, R153, R58). -/
def Obligations.PutbyteThatCompletesNothingOnlyStores : Prop :=
  ∀ (s : State) (b : Byte), s.fault = false → atRest s = true → atRest { s with residual := s.residual ++ [b] } = true →
    ∃ t, exec (.putbyte b) s = .next t ∧
      t = { s with residual := s.residual ++ [b], fault := !Wire.within s.cfg.residualCap (s.residual.length + 1) } ∧
      memRead t s.residual.length 1 = [b] ∧ ∀ i, i < s.residual.length → memRead t i 1 = memRead s i 1

/-- The frame of PUTBYTE and WRITE in general: the parameters, the host's list and the count of free values stay, and what
is held afterwards is the end of what was held with the new bytes behind it: no byte inside is changed, reordered or removed
from the middle (R21). -/
def Obligations.AcceptedBytesKeepTheirOrder : Prop :=
  ∀ (s t : State) (bs : List Byte), exec (.write bs) s = .next t →
    t.cfg = s.cfg ∧ t.host = s.host ∧ t.openReads = s.openReads ∧
    t.residual.length ≤ s.residual.length + bs.length ∧
    (∀ i, memRead t i 1 =
      ((s.residual ++ bs).drop (s.residual.length + bs.length - t.residual.length + i)).take 1) ∧
    ∀ b, bs = [b] → ∃ u, exec (.putbyte b) s = .next u ∧ u.residual = t.residual ∧ u.result = s.result

/-- R152, R158: WRITE accepts every byte given to it and leaves the sink at rest, where the bytes find room (R58, R140). -/
def Obligations.WriteAcceptsEveryByte : Prop :=
  ∀ (s : State) (chunk : List Byte), Live s → RoomFor s chunk.length →
    ∃ t, exec (.write chunk) s = .next t ∧ t.result = .accepted chunk.length ∧ Live t

/-- R152: WRITE is the PUTBYTE of each byte in index order, and WRITE("") changes nothing and returns 0. -/
def Obligations.WriteIsPutbyteOfEachByte : Prop :=
  ∀ s : State,
    exec (.write []) s = .next { s with result := .accepted 0 } ∧
    ∀ b bs, exec (.write (b :: bs)) s =
      andThen (exec (.putbyte b) s) fun u =>
        andThen (exec (.write bs) u) fun t => .next { t with result := .accepted (bs.length + 1) }

/-- R156: writing two chunks one after the other gives the same state as writing them joined, wherever either completes; and
it is the state of the source's own formulation (append the whole chunk, run the loop once), apart from `fault`. -/
def Obligations.ChunkBoundariesHaveNoMeaning : Prop :=
  (∀ (s : State) (a b : List Byte),
    answerForgetResult (andThen (exec (.write a) s) (exec (.write b))) = answerForgetResult (exec (.write (a ++ b)) s)) ∧
  (∀ (s t : State) (c : List Byte), Live s → exec (.write c) s = .next t →
    sourceWrite c s = .next { t with result := s.result, fault := false })

/-- R157: a Run that starts with m bytes performs at most m continuing micro-steps, at most m div 13 of which resolve a frame
or reject a header, and then exactly one wait; and it ends at rest. Each micro-step removes at least what the rule says. -/
def Obligations.RunEndsWithinItsBound : Prop :=
  (∀ (m : MicroStep) (s t : State), exec m.toInstr s = .next t →
    t.residual.length + (if m.isRest = true then 0 else if MicroStep.endsHeader m = true then 13 else 1) ≤ s.residual.length) ∧
  ∀ s : State, s.fault = false → s.residual.length < 2 ^ 61 →
    (∃ t, decodeLoop s = .next t ∧ RunsTo s t ∧ atRest t = true) ∧
    ∀ n, s.residual.length < n →
      ∃ front last, loopTrace n s = front ++ [last] ∧ last.isRest = true ∧ (∀ m ∈ front, m.isRest = false) ∧
        front.length ≤ s.residual.length ∧ 13 * front.countP MicroStep.endsHeader ≤ s.residual.length

/-- R30, R155: READ_STATUS returns the selected item and changes nothing else; bit 0 of STATUS is `sync`, bit 1 `fault`, the
rest read as 0; RESIDUAL_LEN saturates. At rest (R62). After an overflow it is so for STATUS alone, as vector V4d reads it;
that bit 0 is `sync` there is the model's choice (log entry 10: R26 promises nothing about `sync`). -/
def Obligations.ReadStatusReturnsTheItem : Prop :=
  ∀ (s : State) (sel : StatusSel), atRest s = true → (s.fault = false ∨ sel = .status) →
    ∃ v : Counter, exec (.readStatus sel) s = .next { s with result := .status v } ∧
      (sel = .goodFrames → v = s.goodFrames) ∧ (sel = .framingErr → v = s.framingErr) ∧
      (sel = .protocolErr → v = s.protocolErr) ∧ (sel = .checksumErr → v = s.checksumErr) ∧
      (sel = .patternErr → v = s.patternErr) ∧
      (sel = .status → v.getLsbD 0 = s.sync ∧ v.getLsbD 1 = s.fault ∧ ∀ k, 2 ≤ k → v.getLsbD k = false) ∧
      (sel = .residualLen → v.toNat = min s.residual.length (2 ^ 64 - 1))

/-- U3, R279: a status read that overlaps a PUTBYTE, or asks for a counter or the length after an overflow, returns any value
(the free value of log entry 10) and changes no state of the sink. -/
def Obligations.ReadTheSpecLeavesOpenReturnsAnyValue : Prop :=
  ∀ (s : State) (sel : StatusSel), (atRest s = false ∨ (s.fault = true ∧ sel ≠ .status)) →
    ∃ t, exec (.readStatus sel) s = .next t ∧ t.result = .status (Config.openStatus s.openReads) ∧
      observe t = observe s ∧ t.residual = s.residual ∧ t.eventLog = s.eventLog ∧ t.cfg = s.cfg ∧ t.host = s.host

/-- R159: EMIT appends its event to the log exactly if DIAG is true, and never changes anything else. -/
def Obligations.EmitAppendsOnlyWithDiag : Prop :=
  ∀ (s : State) (ev : Event),
    exec (.emit ev) s = .next { s with eventLog := if s.cfg.diag = true then s.eventLog ++ [ev] else s.eventLog }

/-- R226: the event codes, and the class codes, which equal the READ_STATUS selector of the class's counter. -/
def Obligations.CodesFollowTheTables : Prop :=
  eventCode .framingLoss = 1 ∧ eventCode .protocolError = 2 ∧
  (∀ name len declared computed good pattern, eventCode (.frame name len declared computed good pattern) =
    match good, pattern with
    | true, .matched => 4
    | false, .matched => 5
    | true, .mismatch => 6
    | true, .unknown => 6
    | false, .mismatch => 7
    | false, .unknown => 7) ∧
  classCode .framing = selNumber .framingErr ∧ classCode .protocol = selNumber .protocolErr ∧
  classCode .checksum = selNumber .checksumErr ∧ classCode .pattern = selNumber .patternErr ∧
  classCode .framing = 1 ∧ classCode .protocol = 2 ∧ classCode .checksum = 3 ∧ classCode .pattern = 4 ∧
  classCode .residualOverflow = 7

/-- R160: at rest without a fault the outputs show the status items, `busy` is low and no event stands on them; `busy` is
high exactly while the sink is not at rest; and while it is not, `evt_valid` is high with DIAG exactly if the micro-step
being performed appends an event to the log, which stands on the event outputs under its code of R226. The port list is
informative; what the outputs show where R160 calls them not valid, and after an overflow, is any value (log entry 22, the
model's choice). -/
def Obligations.PortsShowTheStatusAndTheEvents : Prop :=
  ∀ (free : StatusSel → Counter) (s : State) (p : Ports), p = ports free s →
    (atRest s = true → s.fault = false →
      p.goodFrames = s.goodFrames ∧ p.framingErr = s.framingErr ∧ p.protocolErr = s.protocolErr ∧
      p.checksumErr = s.checksumErr ∧ p.patternErr = s.patternErr ∧ p.sync = s.sync ∧ p.fault = false ∧ p.evt = none) ∧
    (p.busy = true ↔ atRest s = false) ∧
    (atRest s = true → s.fault = true → p.fault = true ∧ p.goodFrames = free .goodFrames) ∧
    (s.cfg.diag = false → p.evt = none) ∧
    (∀ t, exec (selected s).toInstr s = .next t →
      (p.evt = none → t.eventLog = s.eventLog) ∧
      (∀ o, p.evt = some o → t.eventLog = s.eventLog ++ [o.event] ∧ o.evtCode.toNat = eventCode o.event))

/-- R24: the increment is by one below 2^64 − 1 and saturates there; and no micro-step changes a counter but by one such
increment. -/
def Obligations.IncrementSaturates : Prop :=
  (∀ c : Counter, (c.toNat < 2 ^ 64 - 1 → (inc c).toNat = c.toNat + 1) ∧ (c.toNat = 2 ^ 64 - 1 → inc c = c)) ∧
  ∀ (m : MicroStep) (s t : State), exec m.toInstr s = .next t →
    (t.goodFrames = s.goodFrames ∨ t.goodFrames = inc s.goodFrames) ∧
    (t.framingErr = s.framingErr ∨ t.framingErr = inc s.framingErr) ∧
    (t.protocolErr = s.protocolErr ∨ t.protocolErr = inc s.protocolErr) ∧
    (t.checksumErr = s.checksumErr ∨ t.checksumErr = inc s.checksumErr) ∧
    (t.patternErr = s.patternErr ∨ t.patternErr = inc s.patternErr)

/-- What is outside an operation's domain is refused by its own name: a byte while a PUTBYTE is in progress (R153, U2; log
entry 9), SHA-256 of 2^61 bytes or more, in the functions and in a RESOLVE that the state selects (R140, U5; log entry 11). A
read at or beyond the end of a function's bytes (R51) is none: it gives free bytes, whatever they are, and the function goes
on (log entry 13, the model's choice). -/
def Obligations.OutsideItsDomainAnOperationIsRefused : Prop :=
  ∀ s : State,
    (∀ b, s.fault = false → atRest s = false → exec (.putbyte b) s = .refused .overlappingWrite) ∧
    (∀ b bs, s.fault = false → atRest s = false → exec (.write (b :: bs)) s = .refused .overlappingWrite) ∧
    (∀ d name len hex, s.fault = false → selected s = .resolve d name len hex → 2 ^ 61 ≤ len →
      exec (.resolve d name len hex) s = .refused .digestUndefined) ∧
    (∀ msg : List Byte, 2 ^ 61 ≤ msg.length → exec (.sha256 msg) s = .refused .digestUndefined) ∧
    (∀ name payload : List Byte, 2 ^ 61 ≤ payload.length →
      exec (.encodeFrame name payload) s = .refused .digestUndefined ∧
      exec (.frame name payload) s = .refused .digestUndefined) ∧
    (∀ r d label run, r.length < d → ∃ beyond : List Byte, r.length + beyond.length = d ∧
      exec (.findField r d label run) s =
        .next { s with result := .field (Wire.findField s.cfg (r ++ beyond) d label run), openReads := s.openReads + 1 }) ∧
    (∀ r d, r.length < d → ∃ beyond : List Byte, r.length + beyond.length = d ∧
      exec (.parse r d) s =
        .next { s with result := .header (Wire.parse s.cfg (r ++ beyond) d), openReads := s.openReads + 1 }) ∧
    (∀ r i e, r.length ≤ i ∨ r.length < e → ∃ beyond : List Byte, r.length + beyond.length = max (i + 1) e ∧
      exec (.utf8At r i e) s =
        .next { s with result := .codePoint (Wire.utf8At (r ++ beyond) i e), openReads := s.openReads + 1 })

/-! ## Tokens and frames on the stream -/

/-- R71 to R74 with R88 and R152: a token of the stream is the WRITE of its bytes, and so is a frame of any name and any
payload; where the bytes find room it completes. And whatever operation the stream decoder cuts from the front of a stream,
it does what the WRITE of the bytes it is cut from does, in every state: the cut refuses no byte that a WRITE accepts (R85,
R158). That these are operations is the model's choice (log entries 6 and 7). -/
def Obligations.TokensAndFramesAreWritesOfTheirBytes : Prop :=
  (∀ (c : Config) (bs : List Byte) (i : Instr) (behind : List Byte), decode c bs = .found i behind →
    ∃ front, front ≠ [] ∧ bs = front ++ behind ∧
      ∀ s : State, answerForgetResult (exec i s) = answerForgetResult (exec (.write front) s)) ∧
  ∀ s : State, Live s →
    (∀ i bs,
      (i, bs) ∈ [
        (Instr.marker, [0x0A#8, 0x0A#8, 0x50#8, 0x61#8, 0x74#8, 0x74#8, 0x65#8, 0x72#8, 0x6E#8, 0x3A#8, 0x20#8]),
        (Instr.delim, [0x0A#8, 0x0A#8]),
        (Instr.lPattern, [0x50#8, 0x61#8, 0x74#8, 0x74#8, 0x65#8, 0x72#8, 0x6E#8, 0x3A#8, 0x20#8]),
        (Instr.lLength, [0x4C#8, 0x65#8, 0x6E#8, 0x67#8, 0x74#8, 0x68#8, 0x3A#8, 0x20#8]),
        (Instr.lSha256, [0x53#8, 0x68#8, 0x61#8, 0x32#8, 0x35#8, 0x36#8, 0x3A#8, 0x20#8])] →
      RoomFor s bs.length →
      ∃ t, exec i s = .next t ∧ exec (.write bs) s = .next t ∧ t.result = .accepted bs.length ∧ Live t) ∧
    (∀ name payload, payload.length < 2 ^ 61 → RoomFor s (Encoder.encode name payload).length →
      ∃ t, exec (.frame name payload) s = .next t ∧ exec (.write (Encoder.encode name payload)) s = .next t ∧
        t.result = .accepted (Encoder.encode name payload).length ∧ Live t)

/-- R71, R182: a marker that arrives on an empty buffer is held whole, and the sink waits for its header; nothing is
counted. That MARKER as an operation is the WRITE of its bytes, and returns 11, is the model's choice (log entry 6). -/
def Obligations.MarkerOnAnEmptyBufferOpensAHeader : Prop :=
  ∀ s : State, s.fault = false → s.residual = [] → Wire.within s.cfg.residualCap 11 = true →
    exec .marker s = .next { s with residual := Wire.markerBytes, result := .accepted 11 } ∧
    phase { s with residual := Wire.markerBytes, result := .accepted 11 } = some .header

/-- R123: the frame ENCODE writes for a registered name of word characters and a payload of its pattern, fed to a sink at
rest with an empty buffer and enough capacity (R59), counts as one good frame whatever `sync` was, and leaves the buffer
empty. That FRAME as an operation is the WRITE of its bytes is the model's choice (log entry 6). -/
def Obligations.EncodedFrameCountsAsOneGoodFrame : Prop :=
  ∀ (s : State) (name : List Byte) (seed : NEBytes) (len : Nat), s.fault = false → s.residual = [] →
    Pattern.lookup s.cfg.catalog name = some seed → wellFormedName s.cfg name = true →
    Wire.within s.cfg.lenMax len = true → len < 2 ^ 61 →
    Wire.within s.cfg.residualCap (94 + name.length + (Encoder.dec len).length + len) = true →
    ∀ payload bytes t, payload = Pattern.generate seed len → bytes = Encoder.encode name payload →
      t = { s with
            goodFrames := inc s.goodFrames
            sync := true
            result := .accepted bytes.length
            eventLog :=
              if s.cfg.diag = true then
                s.eventLog ++ [.frame name len (computedDigest payload) (computedDigest payload) true .matched]
              else s.eventLog } →
      exec (.frame name payload) s = .next t ∧ exec (.write bytes) s = .next t

/-- R123, S6: M such frames back to back, of any registered names and lengths, raise `goodFrames` by exactly M (up to the
saturation of R24), leave the other counters alone, and leave `sync = 1` (for M ≥ 1) and the buffer empty; and so they do
fed one byte per WRITE. -/
def Obligations.BackToBackFramesCountEach : Prop :=
  ∀ (frames : List (List Byte × NEBytes × Nat)) (s : State), s.fault = false → s.residual = [] →
    (∀ f ∈ frames, Pattern.lookup s.cfg.catalog f.1 = some f.2.1 ∧ wellFormedName s.cfg f.1 = true ∧
      Wire.within s.cfg.lenMax f.2.2 = true ∧ f.2.2 < 2 ^ 61 ∧
      Wire.within s.cfg.residualCap (94 + f.1.length + (Encoder.dec f.2.2).length + f.2.2) = true) →
    ∀ bytes, bytes = (frames.flatMap fun f => Encoder.encode f.1 (Pattern.generate f.2.1 f.2.2)) →
    ∃ t, exec (.write bytes) s = .next t ∧
      answerForgetResult (bytes.foldl (fun o b => andThen o (exec (.write [b]))) (.next s)) = .next (forgetResult t) ∧
      t.goodFrames.toNat = min (s.goodFrames.toNat + frames.length) (2 ^ 64 - 1) ∧
      t.framingErr = s.framingErr ∧ t.protocolErr = s.protocolErr ∧ t.checksumErr = s.checksumErr ∧
      t.patternErr = s.patternErr ∧ t.residual = [] ∧ t.fault = false ∧ (frames ≠ [] → t.sync = true)

/-- R174 (a), C2: bytes without a marker, scanned by a synchronised sink, count exactly one framing error, clear `sync` and
leave the last 10 bytes held; a sink out of synchronisation counts nothing; where 10 bytes or fewer are held nothing is
dropped. RESIDUAL_CAP ≥ 10 is enough (R58). -/
def Obligations.MarkerFreeBytesCountOneFramingError : Prop :=
  ∀ (s : State) (bs : List Byte), s.fault = false → s.residual.length < 11 → s.cfg.wf = true →
    ¬HasMarker (s.residual ++ bs) →
    (11 ≤ s.residual.length + bs.length → s.sync = true →
      exec (.write bs) s = .next
        { s with
          sync := false
          framingErr := inc s.framingErr
          residual := (s.residual ++ bs).drop (s.residual.length + bs.length - 10)
          result := .accepted bs.length
          eventLog := if s.cfg.diag = true then s.eventLog ++ [.framingLoss] else s.eventLog }) ∧
    (11 ≤ s.residual.length + bs.length → s.sync = false →
      exec (.write bs) s = .next
        { s with
          residual := (s.residual ++ bs).drop (s.residual.length + bs.length - 10)
          result := .accepted bs.length }) ∧
    (s.residual.length + bs.length < 11 →
      exec (.write bs) s = .next { s with residual := s.residual ++ bs, result := .accepted bs.length })

/-! ## The parser's functions -/

/-- R181: FindDelim gives the least index j ≥ 11 with newlines at j and j + 1, or none. -/
def Obligations.FindDelimGivesTheFirstDelimiter : Prop :=
  ∀ (s : State) (r : List Byte), ∃ v, exec (.findDelim r) s = .next { s with result := .index v } ∧
    ∀ d, v = some d ↔
      11 ≤ d ∧ r[d]? = some 0x0A#8 ∧ r[d + 1]? = some 0x0A#8 ∧
        ∀ j, 11 ≤ j → j < d → ¬(r[j]? = some 0x0A#8 ∧ r[j + 1]? = some 0x0A#8)

/-- R184: FindField gives the value at the leftmost line start where the label and a non-empty run match together, or
none. -/
def Obligations.FindFieldGivesTheLeftmostMatch : Prop :=
  ∀ (s : State) (r : List Byte) (d : Nat) (label : List Byte) (run : RunKind), d ≤ r.length →
    ∀ Matches : Nat → List Byte → Prop,
      (∀ p val, Matches p val ↔
        2 ≤ p ∧ p < d ∧ r[p - 1]? = some 0x0A#8 ∧ p + label.length ≤ d ∧ (r.drop p).take label.length = label ∧
        p + label.length < Wire.runEnd s.cfg run r (p + label.length) d ∧
        val = Wire.slice r (p + label.length) (Wire.runEnd s.cfg run r (p + label.length) d)) →
      ∃ v, exec (.findField r d label run) s = .next { s with result := .field v } ∧
        ∀ val, v = some val ↔ ∃ p, Matches p val ∧ ∀ p' < p, ∀ val', ¬Matches p' val'

/-- R185 with R76, R78, R80 to R82: the end of a run is the end of the maximal run of the field's value characters inside
the segment. A word character is, below 0x80, one byte of `0`–`9`, `A`–`Z`, `_`, `a`–`z`; from 0x80 on, the bytes of a code
point that Utf8At decodes inside the segment and that UNICODE_WORD holds of. -/
def Obligations.RunsAreMaximal : Prop :=
  ∀ (c : Config) (r : List Byte) (q d : Nat), q ≤ d → d ≤ r.length →
    (∀ run isValue,
      (run = .digit ∧ isValue = fun b : Byte => 0x30 ≤ b.toNat ∧ b.toNat ≤ 0x39) ∨
      (run = .hex ∧ isValue = fun b : Byte =>
        (0x30 ≤ b.toNat ∧ b.toNat ≤ 0x39) ∨ (0x41 ≤ b.toNat ∧ b.toNat ≤ 0x46) ∨ (0x61 ≤ b.toNat ∧ b.toNat ≤ 0x66)) →
      q ≤ Wire.runEnd c run r q d ∧ Wire.runEnd c run r q d ≤ d ∧
      (∀ i b, q ≤ i → i < Wire.runEnd c run r q d → r[i]? = some b → isValue b) ∧
      (∀ b, Wire.runEnd c run r q d < d → r[Wire.runEnd c run r q d]? = some b → ¬isValue b)) ∧
    (∀ WordChar : Nat → Nat → Prop,
      (∀ i n, WordChar i n ↔ i < d ∧ ∃ b, r[i]? = some b ∧
        ((b.toNat < 0x80 ∧ n = 1 ∧
            ((0x30 ≤ b.toNat ∧ b.toNat ≤ 0x39) ∨ (0x41 ≤ b.toNat ∧ b.toNat ≤ 0x5A) ∨ b.toNat = 0x5F ∨
              (0x61 ≤ b.toNat ∧ b.toNat ≤ 0x7A))) ∨
          (0x80 ≤ b.toNat ∧ ∃ cp, Wire.utf8At r i d = some (cp, n) ∧
            ∃ range ∈ c.unicodeWord, range.1 ≤ cp ∧ cp ≤ range.2))) →
      Relation.ReflTransGen (fun i j => ∃ n, WordChar i n ∧ j = i + n) q (Wire.runEnd c .word r q d) ∧
      Wire.runEnd c .word r q d ≤ d ∧ ∀ n, ¬WordChar (Wire.runEnd c .word r q d) n)

/-- R191: Parse gives the three operands exactly if all three fields are found and the length is within LEN_MAX, and
reads nothing behind `d` and no catalog. -/
def Obligations.ParseGivesTheThreeFields : Prop :=
  ∀ (s : State) (r : List Byte) (d : Nat), d ≤ r.length →
    ∃ v, exec (.parse r d) s = .next { s with result := .header v } ∧
      (∀ h, v = some h ↔
        Wire.findField s.cfg r d Wire.labelPattern .word = some h.name ∧
        (∃ digits, Wire.findField s.cfg r d Wire.labelLength .digit = some digits ∧ h.len = Wire.digitsValue digits) ∧
        Wire.findField s.cfg r d Wire.labelSha256 .hex = some h.hex ∧
        (∀ m, s.cfg.lenMax = some m → h.len ≤ m)) ∧
      ∀ r' catalog, r'.take d = r.take d →
        exec (.parse r' d) { s with cfg := { s.cfg with catalog := catalog } } =
          .next { s with cfg := { s.cfg with catalog := catalog }, result := .header v }

/-- R188, R53: the value of a digit string is the sum of its digits times their powers of ten, most significant first. -/
def Obligations.DigitStringsArePositional : Prop :=
  ∀ digits : List Byte, Wire.digitsValue digits =
    ((List.range digits.length).map fun i => ((digits.getD i 0x30#8).toNat - 0x30) * 10 ^ (digits.length - 1 - i)).sum

/-- R77: Utf8At is strict UTF-8: it gives a code point and its length exactly if that code point, a scalar value beyond
ASCII, stands there in its shortest form, wholly before `e`. -/
def Obligations.Utf8AtIsStrictUtf8 : Prop :=
  ∀ (s : State) (r : List Byte) (i e : Nat), i < r.length → e ≤ r.length →
    ∃ v, exec (.utf8At r i e) s = .next { s with result := .codePoint v } ∧
      ∀ cp n, v = some (cp, n) ↔
        ScalarBeyondAscii cp ∧ n = (utf8Encode cp).length ∧ i + n ≤ e ∧ (r.drop i).take n = utf8Encode cp

/-! ## Pattern functions, encoder, checksum -/

/-- R101, R105: GENERATE gives `length` bytes, byte i being `seed[i mod len(seed)]`, and VERIFY accepts them. -/
def Obligations.GenerateRepeatsTheSeed : Prop :=
  ∀ (s : State) (seed : NEBytes) (length : Nat),
    ∃ g, exec (.generate seed length) s = .next { s with result := .bytes g } ∧ g.length = length ∧
      (∀ i < length, g[i]? = seed.toList[i % seed.toList.length]?) ∧
      exec (.verify seed g) s = .next { s with result := .verdict true }

/-- R103, R104: VERIFY matches if and only if every payload byte is `seed[i mod len(seed)]`, and then the payload is what
GENERATE gives. -/
def Obligations.VerifyComparesWithTheRepeatedSeed : Prop :=
  ∀ (s : State) (seed : NEBytes) (payload : List Byte),
    ∃ v, exec (.verify seed payload) s = .next { s with result := .verdict v } ∧
      (v = true ↔ ∀ i < payload.length, payload[i]? = seed.toList[i % seed.toList.length]?) ∧
      (v = true ↔ payload = Pattern.generate seed payload.length)

/-- R106, R7: LOOKUP completes on every name; in a catalog with unique names it gives the seed of the entry whose name is
byte for byte equal, or not-found. -/
def Obligations.LookupIsExactEquality : Prop :=
  ∀ (s : State) (name : List Byte),
    ∃ v, exec (.lookup name) s = .next { s with result := .seed v } ∧
      (s.cfg.wf = true → ∀ seed, v = some seed ↔ ∃ e ∈ s.cfg.catalog, e.name.toList = name ∧ e.seed = seed)

/-- R121, R74: ENCODE writes the canonical layout, part by part at the offsets of R74. -/
def Obligations.EncodeWritesTheCanonicalLayout : Prop :=
  ∀ (s : State) (name payload : List Byte), payload.length < 2 ^ 61 →
    ∃ f, exec (.encodeFrame name payload) s = .next { s with result := .bytes f } ∧
      ∀ n k len, n = name.length → len = payload.length → k = (Encoder.dec len).length →
        f.length = 95 + n + k + len ∧
        Wire.slice f 0 11 = Wire.markerBytes ∧
        Wire.slice f 11 (11 + n) = name ∧
        Wire.slice f (11 + n) (20 + n) = [0x0A#8, 0x4C#8, 0x65#8, 0x6E#8, 0x67#8, 0x74#8, 0x68#8, 0x3A#8, 0x20#8] ∧
        Wire.slice f (20 + n) (20 + n + k) = Encoder.dec len ∧
        Wire.slice f (20 + n + k) (29 + n + k) =
          [0x0A#8, 0x53#8, 0x68#8, 0x61#8, 0x32#8, 0x35#8, 0x36#8, 0x3A#8, 0x20#8] ∧
        Wire.slice f (29 + n + k) (93 + n + k) = Sha256.hexLower (Sha256.sha256 payload) ∧
        Wire.slice f (93 + n + k) (95 + n + k) = [0x0A#8, 0x0A#8] ∧
        f.drop (95 + n + k) = payload

/-- R122: DEC is the decimal rendering, most significant digit first, with no leading zeros; reading it back gives the
number (R188). -/
def Obligations.DecIsCanonicalDecimal : Prop :=
  ∀ (s : State) (v : Nat),
    ∃ b, exec (.dec v) s = .next { s with result := .bytes b } ∧
      (v < 10 → b = [BitVec.ofNat 8 (0x30 + v)]) ∧
      (10 ≤ v → exec (.dec (v / 10)) s = .next { s with result := .bytes b.dropLast } ∧
        b.getLast? = some (BitVec.ofNat 8 (0x30 + v % 10))) ∧
      (0 < v → b.head? ≠ some 0x30#8) ∧ (∀ x ∈ b, Wire.isDigit x = true) ∧ Wire.digitsValue b = v

/-- R130, R131, R135, R137, R138: for every message shorter than 2^61 bytes (R140) SHA256 gives 32 bytes and touches no state
of the sink; the digest is the eight words, most significant byte first, that stand in `H` after the blocks of the padded
message (R134), each word of a block assembled big-endian, have been compressed in order from the initial value, 64 rounds a
block. The schedule is R136's, the constants R133's. -/
def Obligations.Sha256GivesThirtyTwoBytes : Prop :=
  ∀ (s : State) (msg : List Byte), msg.length < 2 ^ 61 →
    ∃ digest, exec (.sha256 msg) s = .next { s with result := .bytes digest } ∧ digest.length = 32 ∧
      ∃ (m : Nat → Nat → Word) (hash : Nat → Sha256.Hash) (v : Nat → Nat → Sha256.Hash),
        (∀ i t, m i t =
          (Sha256.pad msg).getD (64 * i + 4 * t) 0 ++ (Sha256.pad msg).getD (64 * i + 4 * t + 1) 0 ++
            (Sha256.pad msg).getD (64 * i + 4 * t + 2) 0 ++ (Sha256.pad msg).getD (64 * i + 4 * t + 3) 0) ∧
        hash 0 = { a := 0x6a09e667, b := 0xbb67ae85, c := 0x3c6ef372, d := 0xa54ff53a,
                   e := 0x510e527f, f := 0x9b05688c, g := 0x1f83d9ab, h := 0x5be0cd19 } ∧
        (∀ i, v i 0 = hash i) ∧
        (∀ i, ∀ t < 64, ∀ x t1 t2, x = v i t →
          t1 = x.h + (x.e.rotateRight 6 ^^^ x.e.rotateRight 11 ^^^ x.e.rotateRight 25) +
            ((x.e &&& x.f) ^^^ (~~~x.e &&& x.g)) + Sha256.roundConstants.getD t 0 +
            (Sha256.schedule ((List.range 16).map (m i))).getD t 0 →
          t2 = (x.a.rotateRight 2 ^^^ x.a.rotateRight 13 ^^^ x.a.rotateRight 22) +
            ((x.a &&& x.b) ^^^ (x.a &&& x.c) ^^^ (x.b &&& x.c)) →
          v i (t + 1) = { a := t1 + t2, b := x.a, c := x.b, d := x.c, e := x.d + t1, f := x.e, g := x.f, h := x.g }) ∧
        (∀ i x y, x = hash i → y = v i 64 → hash (i + 1) =
          { a := x.a + y.a, b := x.b + y.b, c := x.c + y.c, d := x.d + y.d,
            e := x.e + y.e, f := x.f + y.f, g := x.g + y.g, h := x.h + y.h }) ∧
        ∀ x, x = hash ((Sha256.pad msg).length / 64) →
          digest = [x.a, x.b, x.c, x.d, x.e, x.f, x.g, x.h].flatMap fun w =>
            [w.extractLsb' 24 8, w.extractLsb' 16 8, w.extractLsb' 8 8, w.extractLsb' 0 8]

/-- R130, S8: the digest of the empty message, of "abc" (one block), and of the source's own sentence, as hexadecimal
numbers. -/
def Obligations.KnownDigests : Prop :=
  ∀ toNumber : List Byte → Nat, toNumber = (fun b => b.foldl (fun v x => v * 256 + x.toNat) 0) →
    toNumber (Sha256.sha256 []) = 0xe3b0c44298fc1c149afbf4c8996fb92427ae41e4649b934ca495991b7852b855 ∧
    toNumber (Sha256.sha256 [0x61#8, 0x62#8, 0x63#8]) =
      0xba7816bf8f01cfea414140de5dae2223b00361a396177a9cb410ff61f20015ad ∧
    (∀ e ∈ testCatalog, e.name.toList = [0x41#8, 0x6c#8, 0x70#8, 0x68#8, 0x61#8] →
      toNumber (Sha256.sha256 e.seed.toList) = 0xd7a8fbb307d7809469ca9abcb0082e4f8d5651e46d3cdb762d02d0bf37c9e592)

/-- R134: the padded message is the message, the byte 0x80, the least number of zero bytes that brings the length to 56
modulo 64, and the length in bits as 8 bytes, most significant first; it has n div 64 + 1 blocks for n mod 64 ≤ 55, else
n div 64 + 2. -/
def Obligations.PaddingFillsWholeBlocks : Prop :=
  ∀ msg : List Byte, ∃ z,
    (msg.length + 1 + z) % 64 = 56 ∧ (∀ z' < z, (msg.length + 1 + z') % 64 ≠ 56) ∧
    Sha256.pad msg = msg ++ [0x80#8] ++ List.replicate z 0x00#8 ++
      (List.range 8).map (fun i => BitVec.ofNat 8 ((8 * msg.length) >>> (8 * (7 - i)))) ∧
    (Sha256.pad msg).length = 64 * (msg.length / 64 + (if msg.length % 64 ≤ 55 then 1 else 2))

/-- R136 with σ0 and σ1 of R131: the message schedule of a block: its 16 words, then each word from four earlier ones. -/
def Obligations.ScheduleFollowsTheRecurrence : Prop :=
  ∀ block : List Word, block.length = 16 →
    (Sha256.schedule block).length = 64 ∧
    (∀ t < 16, (Sha256.schedule block)[t]? = block[t]?) ∧
    (∀ (t : Nat) (w2 w7 w15 w16 : Word), 16 ≤ t → t < 64 →
      (Sha256.schedule block)[t - 2]? = some w2 → (Sha256.schedule block)[t - 7]? = some w7 →
      (Sha256.schedule block)[t - 15]? = some w15 → (Sha256.schedule block)[t - 16]? = some w16 →
      (Sha256.schedule block)[t]? = some
        ((w2.rotateRight 17 ^^^ w2.rotateRight 19 ^^^ w2 >>> 10) + w7 +
          (w15.rotateRight 7 ^^^ w15.rotateRight 18 ^^^ w15 >>> 3) + w16))

/-- R139: HEXLOWER gives two characters per byte, high nibble first, from 0–9 and a–f. -/
def Obligations.HexLowerGivesTwoCharactersPerByte : Prop :=
  ∀ (s : State) (b : List Byte),
    ∃ h, exec (.hexLower b) s = .next { s with result := .bytes h } ∧ h.length = 2 * b.length ∧
      ∀ HexDigit : Nat → Nat, (∀ v, HexDigit v = if v ≤ 9 then 0x30 + v else 0x61 + (v - 10)) →
        ∀ i x, b[i]? = some x →
          h[2 * i]? = some (BitVec.ofNat 8 (HexDigit (x.toNat >>> 4))) ∧
          h[2 * i + 1]? = some (BitVec.ofNat 8 (HexDigit (x.toNat &&& 0x0F)))

/-- R204, R84: Lower replaces each byte 41 to 46 by the byte plus 0x20 and leaves the others; the comparison is of the
lower-cased declared digits with the payload's digest in hexadecimal, so it ignores their case, and a declared checksum of
fewer or more than 64 digits is never good. -/
def Obligations.ChecksumComparesSixtyFourDigits : Prop :=
  ∀ hex payload : List Byte,
    Wire.lower hex = hex.map (fun x => if 0x41 ≤ x.toNat ∧ x.toNat ≤ 0x46 then x + 0x20#8 else x) ∧
    (∀ upper : List Byte, upper.length = hex.length →
      (∀ (i : Nat) x y, upper[i]? = some x → hex[i]? = some y →
        x = y ∨ (0x61 ≤ y.toNat ∧ y.toNat ≤ 0x66 ∧ x.toNat + 0x20 = y.toNat)) →
      checksumGood upper payload = checksumGood hex payload) ∧
    (checksumGood hex payload = true ↔ Wire.lower hex = Sha256.hexLower (Sha256.sha256 payload)) ∧
    (∀ hex', Wire.lower hex' = Wire.lower hex → checksumGood hex' payload = checksumGood hex payload) ∧
    (hex.length ≠ 64 → checksumGood hex payload = false) ∧
    checksumGood (Sha256.hexLower (Sha256.sha256 payload)) payload = true

/-- The frame of the pure functions, READ_STATUS and EMIT: whatever they are asked, `residual` reads byte for byte as
before, and only the value returned, the model's count of free values and (for EMIT) the event log may differ (R56, R101 to
R139, R155, R159). -/
def Obligations.PureOperationsLeaveTheSinkUnchanged : Prop :=
  ∀ (i : Instr) (s t : State),
    (∃ seed n, i = .generate seed n) ∨ (∃ seed p, i = .verify seed p) ∨ (∃ n, i = .lookup n) ∨
      (∃ n p, i = .encodeFrame n p) ∨ (∃ v, i = .dec v) ∨ (∃ m, i = .sha256 m) ∨ (∃ b, i = .hexLower b) ∨
      (∃ r, i = .findDelim r) ∨ (∃ r d l k, i = .findField r d l k) ∨ (∃ r d, i = .parse r d) ∨
      (∃ r j e, i = .utf8At r j e) ∨ (∃ sel, i = .readStatus sel) ∨ (∃ ev, i = .emit ev) →
    exec i s = .next t →
      observe t = observe s ∧ t.cfg = s.cfg ∧ t.host = s.host ∧ (∀ a, memRead t a 1 = memRead s a 1) ∧
      t.residual.length = s.residual.length ∧ ((∀ ev, i ≠ .emit ev) → t.eventLog = s.eventLog)

/-! ## Whole-machine rules -/

/-- R29: the rest invariant: a step that starts at rest ends at rest, and at rest exactly one of the three conditions of R28
holds. -/
def Obligations.StepsKeepTheSinkAtRest : Prop :=
  (∀ s t : State, atRest s = true → step s = .next t → atRest t = true) ∧
  (∀ s : State, atRest s = true ↔ phase s ≠ none)

/-- R25: no operation but RESET lowers a counter. -/
def Obligations.CountersNeverDecrease : Prop :=
  ∀ (i : Instr) (s t : State), i ≠ .reset → exec i s = .next t → CountersLe s t

/-- R26: `fault` is sticky: no operation but RESET clears it. -/
def Obligations.FaultIsSticky : Prop :=
  ∀ (i : Instr) (s t : State), i ≠ .reset → exec i s = .next t → s.fault = true → t.fault = true

/-- R26: with an unbounded buffer there is never a fault: every step keeps it so. -/
def Obligations.NoFaultWithAnUnboundedBuffer : Prop :=
  ∀ s t : State, NoFaultWhenUnbounded s → step s = .next t → NoFaultWhenUnbounded t

/-- R31, R261, U10: no operation writes the parameters, the catalog among them; a step takes nothing from the host's list
but its first item's front. -/
def Obligations.ParametersNeverChange : Prop :=
  (∀ (i : Instr) (s t : State), exec i s = .next t → t.cfg = s.cfg ∧ t.host = s.host) ∧
  (∀ s t : State, step s = .next t → t.cfg = s.cfg)

/-- R33, R159: with DIAG the event log accounts for all five counters, and without DIAG it stays empty: every step keeps
both. -/
def Obligations.EventLogExplainsTheCounters : Prop :=
  ∀ s t : State, step s = .next t →
    (LogExplainsCounters s → LogExplainsCounters t) ∧ (LogEmptyWithoutDiag s → LogEmptyWithoutDiag t)

/-- R34, R29: after reset, with any parameters, the invariants hold. -/
def Obligations.InvariantsHoldAtReset : Prop :=
  ∀ c : Config, ∀ s, s = State.resetWith c →
    Live s ∧ phase s = some .scan ∧ NoFaultWhenUnbounded s ∧ LogExplainsCounters s ∧ LogEmptyWithoutDiag s ∧
    Memory.wf (Memory.cells s) = true
end

