-- ==== Sys2Proof/Laws/State.lean ====
section
/-! SUPPORT. What each state operation does to each field: one lemma per field per operation, true by definition, so that no
proof unfolds a record update. -/

namespace Sys2Proof.Machine

/-! Append (R51). -/

@[simp] theorem append_cfg (s : State) (b : Byte) : (append s b).cfg = s.cfg := rfl
@[simp] theorem append_residual (s : State) (b : Byte) : (append s b).residual = s.residual ++ [b] := rfl
@[simp] theorem append_sync (s : State) (b : Byte) : (append s b).sync = s.sync := rfl
@[simp] theorem append_goodFrames (s : State) (b : Byte) : (append s b).goodFrames = s.goodFrames := rfl
@[simp] theorem append_framingErr (s : State) (b : Byte) : (append s b).framingErr = s.framingErr := rfl
@[simp] theorem append_protocolErr (s : State) (b : Byte) : (append s b).protocolErr = s.protocolErr := rfl
@[simp] theorem append_checksumErr (s : State) (b : Byte) : (append s b).checksumErr = s.checksumErr := rfl
@[simp] theorem append_patternErr (s : State) (b : Byte) : (append s b).patternErr = s.patternErr := rfl
@[simp] theorem append_fault (s : State) (b : Byte) : (append s b).fault = s.fault := rfl
@[simp] theorem append_eventLog (s : State) (b : Byte) : (append s b).eventLog = s.eventLog := rfl
@[simp] theorem append_result (s : State) (b : Byte) : (append s b).result = s.result := rfl
@[simp] theorem append_openReads (s : State) (b : Byte) : (append s b).openReads = s.openReads := rfl
@[simp] theorem append_host (s : State) (b : Byte) : (append s b).host = s.host := rfl

/-! DropFront (R51). -/

@[simp] theorem dropFront_cfg (s : State) (n : Nat) : (dropFront s n).cfg = s.cfg := rfl
@[simp] theorem dropFront_residual (s : State) (n : Nat) : (dropFront s n).residual = s.residual.drop n := rfl
@[simp] theorem dropFront_sync (s : State) (n : Nat) : (dropFront s n).sync = s.sync := rfl
@[simp] theorem dropFront_goodFrames (s : State) (n : Nat) : (dropFront s n).goodFrames = s.goodFrames := rfl
@[simp] theorem dropFront_framingErr (s : State) (n : Nat) : (dropFront s n).framingErr = s.framingErr := rfl
@[simp] theorem dropFront_protocolErr (s : State) (n : Nat) : (dropFront s n).protocolErr = s.protocolErr := rfl
@[simp] theorem dropFront_checksumErr (s : State) (n : Nat) : (dropFront s n).checksumErr = s.checksumErr := rfl
@[simp] theorem dropFront_patternErr (s : State) (n : Nat) : (dropFront s n).patternErr = s.patternErr := rfl
@[simp] theorem dropFront_fault (s : State) (n : Nat) : (dropFront s n).fault = s.fault := rfl
@[simp] theorem dropFront_eventLog (s : State) (n : Nat) : (dropFront s n).eventLog = s.eventLog := rfl
@[simp] theorem dropFront_result (s : State) (n : Nat) : (dropFront s n).result = s.result := rfl
@[simp] theorem dropFront_openReads (s : State) (n : Nat) : (dropFront s n).openReads = s.openReads := rfl
@[simp] theorem dropFront_host (s : State) (n : Nat) : (dropFront s n).host = s.host := rfl

/-! Taking an error (R226). -/

@[simp] theorem raise_framing_cfg (s : State) : (raise .framing s).cfg = s.cfg := rfl
@[simp] theorem raise_framing_residual (s : State) : (raise .framing s).residual = s.residual := rfl
@[simp] theorem raise_framing_sync (s : State) : (raise .framing s).sync = false := rfl
@[simp] theorem raise_framing_goodFrames (s : State) : (raise .framing s).goodFrames = s.goodFrames := rfl
@[simp] theorem raise_framing_framingErr (s : State) : (raise .framing s).framingErr = inc s.framingErr := rfl
@[simp] theorem raise_framing_protocolErr (s : State) : (raise .framing s).protocolErr = s.protocolErr := rfl
@[simp] theorem raise_framing_checksumErr (s : State) : (raise .framing s).checksumErr = s.checksumErr := rfl
@[simp] theorem raise_framing_patternErr (s : State) : (raise .framing s).patternErr = s.patternErr := rfl
@[simp] theorem raise_framing_fault (s : State) : (raise .framing s).fault = s.fault := rfl
@[simp] theorem raise_framing_eventLog (s : State) : (raise .framing s).eventLog = s.eventLog := rfl
@[simp] theorem raise_framing_result (s : State) : (raise .framing s).result = s.result := rfl
@[simp] theorem raise_framing_openReads (s : State) : (raise .framing s).openReads = s.openReads := rfl
@[simp] theorem raise_framing_host (s : State) : (raise .framing s).host = s.host := rfl

@[simp] theorem raise_protocol_cfg (s : State) : (raise .protocol s).cfg = s.cfg := rfl
@[simp] theorem raise_protocol_residual (s : State) : (raise .protocol s).residual = s.residual := rfl
@[simp] theorem raise_protocol_sync (s : State) : (raise .protocol s).sync = false := rfl
@[simp] theorem raise_protocol_goodFrames (s : State) : (raise .protocol s).goodFrames = s.goodFrames := rfl
@[simp] theorem raise_protocol_framingErr (s : State) : (raise .protocol s).framingErr = s.framingErr := rfl
@[simp] theorem raise_protocol_protocolErr (s : State) : (raise .protocol s).protocolErr = inc s.protocolErr := rfl
@[simp] theorem raise_protocol_checksumErr (s : State) : (raise .protocol s).checksumErr = s.checksumErr := rfl
@[simp] theorem raise_protocol_patternErr (s : State) : (raise .protocol s).patternErr = s.patternErr := rfl
@[simp] theorem raise_protocol_fault (s : State) : (raise .protocol s).fault = s.fault := rfl
@[simp] theorem raise_protocol_eventLog (s : State) : (raise .protocol s).eventLog = s.eventLog := rfl
@[simp] theorem raise_protocol_result (s : State) : (raise .protocol s).result = s.result := rfl
@[simp] theorem raise_protocol_openReads (s : State) : (raise .protocol s).openReads = s.openReads := rfl
@[simp] theorem raise_protocol_host (s : State) : (raise .protocol s).host = s.host := rfl

@[simp] theorem raise_checksum_cfg (s : State) : (raise .checksum s).cfg = s.cfg := rfl
@[simp] theorem raise_checksum_residual (s : State) : (raise .checksum s).residual = s.residual := rfl
@[simp] theorem raise_checksum_sync (s : State) : (raise .checksum s).sync = true := rfl
@[simp] theorem raise_checksum_goodFrames (s : State) : (raise .checksum s).goodFrames = s.goodFrames := rfl
@[simp] theorem raise_checksum_framingErr (s : State) : (raise .checksum s).framingErr = s.framingErr := rfl
@[simp] theorem raise_checksum_protocolErr (s : State) : (raise .checksum s).protocolErr = s.protocolErr := rfl
@[simp] theorem raise_checksum_checksumErr (s : State) : (raise .checksum s).checksumErr = inc s.checksumErr := rfl
@[simp] theorem raise_checksum_patternErr (s : State) : (raise .checksum s).patternErr = s.patternErr := rfl
@[simp] theorem raise_checksum_fault (s : State) : (raise .checksum s).fault = s.fault := rfl
@[simp] theorem raise_checksum_eventLog (s : State) : (raise .checksum s).eventLog = s.eventLog := rfl
@[simp] theorem raise_checksum_result (s : State) : (raise .checksum s).result = s.result := rfl
@[simp] theorem raise_checksum_openReads (s : State) : (raise .checksum s).openReads = s.openReads := rfl
@[simp] theorem raise_checksum_host (s : State) : (raise .checksum s).host = s.host := rfl

@[simp] theorem raise_pattern_cfg (s : State) : (raise .pattern s).cfg = s.cfg := rfl
@[simp] theorem raise_pattern_residual (s : State) : (raise .pattern s).residual = s.residual := rfl
@[simp] theorem raise_pattern_sync (s : State) : (raise .pattern s).sync = true := rfl
@[simp] theorem raise_pattern_goodFrames (s : State) : (raise .pattern s).goodFrames = s.goodFrames := rfl
@[simp] theorem raise_pattern_framingErr (s : State) : (raise .pattern s).framingErr = s.framingErr := rfl
@[simp] theorem raise_pattern_protocolErr (s : State) : (raise .pattern s).protocolErr = s.protocolErr := rfl
@[simp] theorem raise_pattern_checksumErr (s : State) : (raise .pattern s).checksumErr = s.checksumErr := rfl
@[simp] theorem raise_pattern_patternErr (s : State) : (raise .pattern s).patternErr = inc s.patternErr := rfl
@[simp] theorem raise_pattern_fault (s : State) : (raise .pattern s).fault = s.fault := rfl
@[simp] theorem raise_pattern_eventLog (s : State) : (raise .pattern s).eventLog = s.eventLog := rfl
@[simp] theorem raise_pattern_result (s : State) : (raise .pattern s).result = s.result := rfl
@[simp] theorem raise_pattern_openReads (s : State) : (raise .pattern s).openReads = s.openReads := rfl
@[simp] theorem raise_pattern_host (s : State) : (raise .pattern s).host = s.host := rfl

@[simp] theorem raise_residualOverflow_cfg (s : State) : (raise .residualOverflow s).cfg = s.cfg := rfl
@[simp] theorem raise_residualOverflow_residual (s : State) : (raise .residualOverflow s).residual = s.residual := rfl
@[simp] theorem raise_residualOverflow_sync (s : State) : (raise .residualOverflow s).sync = s.sync := rfl
@[simp] theorem raise_residualOverflow_goodFrames (s : State) : (raise .residualOverflow s).goodFrames = s.goodFrames := rfl
@[simp] theorem raise_residualOverflow_framingErr (s : State) : (raise .residualOverflow s).framingErr = s.framingErr := rfl
@[simp] theorem raise_residualOverflow_protocolErr (s : State) : (raise .residualOverflow s).protocolErr = s.protocolErr := rfl
@[simp] theorem raise_residualOverflow_checksumErr (s : State) : (raise .residualOverflow s).checksumErr = s.checksumErr := rfl
@[simp] theorem raise_residualOverflow_patternErr (s : State) : (raise .residualOverflow s).patternErr = s.patternErr := rfl
@[simp] theorem raise_residualOverflow_fault (s : State) : (raise .residualOverflow s).fault = true := rfl
@[simp] theorem raise_residualOverflow_eventLog (s : State) : (raise .residualOverflow s).eventLog = s.eventLog := rfl
@[simp] theorem raise_residualOverflow_result (s : State) : (raise .residualOverflow s).result = s.result := rfl
@[simp] theorem raise_residualOverflow_openReads (s : State) : (raise .residualOverflow s).openReads = s.openReads := rfl
@[simp] theorem raise_residualOverflow_host (s : State) : (raise .residualOverflow s).host = s.host := rfl

/-! Resynchronisation (R231) and a good frame (R206). -/

@[simp] theorem resync_cfg (s : State) : (resync s).cfg = s.cfg := rfl
@[simp] theorem resync_residual (s : State) : (resync s).residual = s.residual := rfl
@[simp] theorem resync_sync (s : State) : (resync s).sync = true := rfl
@[simp] theorem resync_goodFrames (s : State) : (resync s).goodFrames = s.goodFrames := rfl
@[simp] theorem resync_framingErr (s : State) : (resync s).framingErr = s.framingErr := rfl
@[simp] theorem resync_protocolErr (s : State) : (resync s).protocolErr = s.protocolErr := rfl
@[simp] theorem resync_checksumErr (s : State) : (resync s).checksumErr = s.checksumErr := rfl
@[simp] theorem resync_patternErr (s : State) : (resync s).patternErr = s.patternErr := rfl
@[simp] theorem resync_fault (s : State) : (resync s).fault = s.fault := rfl
@[simp] theorem resync_eventLog (s : State) : (resync s).eventLog = s.eventLog := rfl
@[simp] theorem resync_result (s : State) : (resync s).result = s.result := rfl
@[simp] theorem resync_openReads (s : State) : (resync s).openReads = s.openReads := rfl
@[simp] theorem resync_host (s : State) : (resync s).host = s.host := rfl

@[simp] theorem countGood_cfg (s : State) : (countGood s).cfg = s.cfg := rfl
@[simp] theorem countGood_residual (s : State) : (countGood s).residual = s.residual := rfl
@[simp] theorem countGood_sync (s : State) : (countGood s).sync = s.sync := rfl
@[simp] theorem countGood_goodFrames (s : State) : (countGood s).goodFrames = inc s.goodFrames := rfl
@[simp] theorem countGood_framingErr (s : State) : (countGood s).framingErr = s.framingErr := rfl
@[simp] theorem countGood_protocolErr (s : State) : (countGood s).protocolErr = s.protocolErr := rfl
@[simp] theorem countGood_checksumErr (s : State) : (countGood s).checksumErr = s.checksumErr := rfl
@[simp] theorem countGood_patternErr (s : State) : (countGood s).patternErr = s.patternErr := rfl
@[simp] theorem countGood_fault (s : State) : (countGood s).fault = s.fault := rfl
@[simp] theorem countGood_eventLog (s : State) : (countGood s).eventLog = s.eventLog := rfl
@[simp] theorem countGood_result (s : State) : (countGood s).result = s.result := rfl
@[simp] theorem countGood_openReads (s : State) : (countGood s).openReads = s.openReads := rfl
@[simp] theorem countGood_host (s : State) : (countGood s).host = s.host := rfl

/-! The event output (R159). -/

@[simp] theorem emitEvent_cfg (ev : Event) (s : State) : (emitEvent ev s).cfg = s.cfg := rfl
@[simp] theorem emitEvent_residual (ev : Event) (s : State) : (emitEvent ev s).residual = s.residual := rfl
@[simp] theorem emitEvent_sync (ev : Event) (s : State) : (emitEvent ev s).sync = s.sync := rfl
@[simp] theorem emitEvent_goodFrames (ev : Event) (s : State) : (emitEvent ev s).goodFrames = s.goodFrames := rfl
@[simp] theorem emitEvent_framingErr (ev : Event) (s : State) : (emitEvent ev s).framingErr = s.framingErr := rfl
@[simp] theorem emitEvent_protocolErr (ev : Event) (s : State) : (emitEvent ev s).protocolErr = s.protocolErr := rfl
@[simp] theorem emitEvent_checksumErr (ev : Event) (s : State) : (emitEvent ev s).checksumErr = s.checksumErr := rfl
@[simp] theorem emitEvent_patternErr (ev : Event) (s : State) : (emitEvent ev s).patternErr = s.patternErr := rfl
@[simp] theorem emitEvent_fault (ev : Event) (s : State) : (emitEvent ev s).fault = s.fault := rfl
@[simp] theorem emitEvent_eventLog (ev : Event) (s : State) : (emitEvent ev s).eventLog = if s.cfg.diag then s.eventLog ++ [ev] else s.eventLog := rfl
@[simp] theorem emitEvent_result (ev : Event) (s : State) : (emitEvent ev s).result = s.result := rfl
@[simp] theorem emitEvent_openReads (ev : Event) (s : State) : (emitEvent ev s).openReads = s.openReads := rfl
@[simp] theorem emitEvent_host (ev : Event) (s : State) : (emitEvent ev s).host = s.host := rfl

/-! The value an operation returns. -/

@[simp] theorem returnValue_cfg (s : State) (v : Result) : (returnValue s v).cfg = s.cfg := rfl
@[simp] theorem returnValue_residual (s : State) (v : Result) : (returnValue s v).residual = s.residual := rfl
@[simp] theorem returnValue_sync (s : State) (v : Result) : (returnValue s v).sync = s.sync := rfl
@[simp] theorem returnValue_goodFrames (s : State) (v : Result) : (returnValue s v).goodFrames = s.goodFrames := rfl
@[simp] theorem returnValue_framingErr (s : State) (v : Result) : (returnValue s v).framingErr = s.framingErr := rfl
@[simp] theorem returnValue_protocolErr (s : State) (v : Result) : (returnValue s v).protocolErr = s.protocolErr := rfl
@[simp] theorem returnValue_checksumErr (s : State) (v : Result) : (returnValue s v).checksumErr = s.checksumErr := rfl
@[simp] theorem returnValue_patternErr (s : State) (v : Result) : (returnValue s v).patternErr = s.patternErr := rfl
@[simp] theorem returnValue_fault (s : State) (v : Result) : (returnValue s v).fault = s.fault := rfl
@[simp] theorem returnValue_eventLog (s : State) (v : Result) : (returnValue s v).eventLog = s.eventLog := rfl
@[simp] theorem returnValue_result (s : State) (v : Result) : (returnValue s v).result = v := rfl
@[simp] theorem returnValue_openReads (s : State) (v : Result) : (returnValue s v).openReads = s.openReads := rfl
@[simp] theorem returnValue_host (s : State) (v : Result) : (returnValue s v).host = s.host := rfl

/-! A draw of free bytes (R51). -/

@[simp] theorem drawTo_cfg (s : State) (r : List Byte) (n : Nat) : (drawTo s r n).cfg = s.cfg := rfl
@[simp] theorem drawTo_residual (s : State) (r : List Byte) (n : Nat) : (drawTo s r n).residual = s.residual := rfl
@[simp] theorem drawTo_sync (s : State) (r : List Byte) (n : Nat) : (drawTo s r n).sync = s.sync := rfl
@[simp] theorem drawTo_goodFrames (s : State) (r : List Byte) (n : Nat) : (drawTo s r n).goodFrames = s.goodFrames := rfl
@[simp] theorem drawTo_framingErr (s : State) (r : List Byte) (n : Nat) : (drawTo s r n).framingErr = s.framingErr := rfl
@[simp] theorem drawTo_protocolErr (s : State) (r : List Byte) (n : Nat) : (drawTo s r n).protocolErr = s.protocolErr := rfl
@[simp] theorem drawTo_checksumErr (s : State) (r : List Byte) (n : Nat) : (drawTo s r n).checksumErr = s.checksumErr := rfl
@[simp] theorem drawTo_patternErr (s : State) (r : List Byte) (n : Nat) : (drawTo s r n).patternErr = s.patternErr := rfl
@[simp] theorem drawTo_fault (s : State) (r : List Byte) (n : Nat) : (drawTo s r n).fault = s.fault := rfl
@[simp] theorem drawTo_eventLog (s : State) (r : List Byte) (n : Nat) : (drawTo s r n).eventLog = s.eventLog := rfl
@[simp] theorem drawTo_result (s : State) (r : List Byte) (n : Nat) : (drawTo s r n).result = s.result := rfl
@[simp] theorem drawTo_host (s : State) (r : List Byte) (n : Nat) : (drawTo s r n).host = s.host := rfl
@[simp] theorem drawTo_openReads (s : State) (r : List Byte) (n : Nat) :
    (drawTo s r n).openReads = if r.length < n then s.openReads + 1 else s.openReads := rfl

/-! Reset (R34). -/

@[simp] theorem resetState_cfg (s : State) : (resetState s).cfg = s.cfg := rfl
@[simp] theorem resetState_residual (s : State) : (resetState s).residual = [] := rfl
@[simp] theorem resetState_sync (s : State) : (resetState s).sync = s.cfg.syncInit := rfl
@[simp] theorem resetState_goodFrames (s : State) : (resetState s).goodFrames = 0#64 := rfl
@[simp] theorem resetState_framingErr (s : State) : (resetState s).framingErr = 0#64 := rfl
@[simp] theorem resetState_protocolErr (s : State) : (resetState s).protocolErr = 0#64 := rfl
@[simp] theorem resetState_checksumErr (s : State) : (resetState s).checksumErr = 0#64 := rfl
@[simp] theorem resetState_patternErr (s : State) : (resetState s).patternErr = 0#64 := rfl
@[simp] theorem resetState_fault (s : State) : (resetState s).fault = false := rfl
@[simp] theorem resetState_eventLog (s : State) : (resetState s).eventLog = [] := rfl
@[simp] theorem resetState_result (s : State) : (resetState s).result = Result.none := rfl
@[simp] theorem resetState_openReads (s : State) : (resetState s).openReads = s.openReads := rfl
@[simp] theorem resetState_host (s : State) : (resetState s).host = s.host := rfl

/-! An operation that is guarded or stops. -/

@[simp] theorem andThen_next (s : State) (k : State → Answer) : andThen (.next s) k = k s := rfl
@[simp] theorem andThen_fault (r : Fault) (k : State → Answer) : andThen (.fault r) k = .fault r := rfl
@[simp] theorem andThen_refused (r : Refusal) (k : State → Answer) : andThen (.refused r) k = .refused r := rfl

end Sys2Proof.Machine
end

