-- ==== Sys2Proof/Laws/Ops.lean ====
section
/-! SUPPORT. What each shared operation can do, said once: when an operation that chains, is guarded or hashes answers a next
state; the saturating increment; the canonical form of the memory. -/

namespace Sys2Proof.Machine

/-- A chain answers a next state exactly when both parts do. -/
theorem andThen_eq_next {o : Answer} {k : State → Answer} {t : State} :
    andThen o k = .next t ↔ ∃ s, o = .next s ∧ k s = .next t := by
  cases o <;> simp

/-- A guarded micro-step answers a next state exactly where the sink has no fault, the guard holds, and what it guards
answers that state. -/
theorem whenGuarded_eq_next {m : MicroStep} {s t : State} {k : Answer} :
    whenGuarded m s k = .next t ↔
      s.fault = false ∧ microGuard s.cfg s.residual s.sync m = true ∧ k = .next t := by
  unfold whenGuarded
  cases s.fault <;> cases microGuard s.cfg s.residual s.sync m <;> simp

/-- Where the guard holds and there is no fault, the guarded operation is what it guards. -/
theorem whenGuarded_of_guard {m : MicroStep} {s : State} {k : Answer} (hf : s.fault = false)
    (hg : microGuard s.cfg s.residual s.sync m = true) : whenGuarded m s k = k := by
  simp [whenGuarded, hf, hg]

/-- What computes a digest answers a next state exactly on a message SHA-256 is defined on. -/
theorem whenDigestDefined_eq_next {n : Nat} {k : Answer} {t : State} :
    whenDigestDefined n k = .next t ↔ n < 2 ^ 61 ∧ k = .next t := by
  simp only [whenDigestDefined, Sha256.inDomain, decide_eq_true_eq]
  split
  · next h => exact ⟨fun hk => ⟨h, hk⟩, And.right⟩
  · next h => exact ⟨fun hk => (by cases hk), fun hk => absurd hk.1 h⟩

/-- On a message SHA-256 is defined on, what computes a digest goes on. -/
theorem whenDigestDefined_of_lt {n : Nat} {k : Answer} (h : n < 2 ^ 61) : whenDigestDefined n k = k := by
  simp only [whenDigestDefined, Sha256.inDomain, decide_eq_true_eq, if_pos h]

/-- On a longer message, what computes a digest is refused. -/
theorem whenDigestDefined_of_ge {n : Nat} {k : Answer} (h : 2 ^ 61 ≤ n) :
    whenDigestDefined n k = .refused .digestUndefined := by
  have hn : Sha256.inDomain n = false := decide_eq_false (Nat.not_lt.mpr h)
  simp only [whenDigestDefined, hn, Bool.false_eq_true, if_false]

/-- When a checksum is good (R204). -/
theorem checksumGood_iff {hex payload : List Byte} :
    checksumGood hex payload = true ↔ Wire.lower hex = Sha256.hexLower (Sha256.sha256 payload) := decide_eq_true_iff

/-- A function that stays inside its bytes sees those bytes. -/
theorem readTo_of_le (s : State) {r : List Byte} {n : Nat} (h : n ≤ r.length) : readTo s r n = r := by
  simp [readTo, Nat.sub_eq_zero_of_le h]

/-- A function that stays inside its bytes draws nothing. -/
theorem drawTo_of_le (s : State) {r : List Byte} {n : Nat} (h : n ≤ r.length) : drawTo s r n = s := by
  simp [drawTo, Nat.not_lt.mpr h]

/-- A function that reads further sees its own bytes first, then free ones up to where it may read. -/
theorem length_readTo (s : State) {r : List Byte} {n : Nat} (h : r.length ≤ n) : (readTo s r n).length = n := by
  simp only [readTo, List.length_append, List.length_map, List.length_range']
  omega

/-- The increment as a number: one more, but never beyond the largest value. -/
theorem toNat_inc (c : Counter) : (inc c).toNat = min (c.toNat + 1) (2 ^ 64 - 1) := by
  unfold inc
  split
  · next h => subst h; simp
  · next h =>
    have hc : c.toNat ≠ 2 ^ 64 - 1 := fun hn => h (BitVec.eq_of_toNat_eq (by simpa using hn))
    have := c.isLt
    rw [BitVec.toNat_add]
    simp only [BitVec.toNat_ofNat]
    omega

/-- The increment never lowers a counter. -/
theorem le_inc (c : Counter) : c ≤ inc c := by
  rw [BitVec.le_def, toNat_inc]
  have := c.isLt
  omega

/-- The saturated count of one more event is the increment of the saturated count. -/
theorem inc_saturated (n : Nat) : inc (saturated n) = saturated (n + 1) := by
  apply BitVec.eq_of_toNat_eq
  rw [toNat_inc]
  simp only [saturated, BitVec.toNat_ofNat]
  omega

/-- A count of nothing is zero. -/
theorem saturated_zero : saturated 0 = 0#64 := rfl

/-- The cells of a byte string are in canonical form. -/
theorem Memory.wfFrom_cellsFrom (i : Nat) (r : List Byte) : Memory.wfFrom i (Memory.cellsFrom i r) = true := by
  induction r generalizing i with
  | nil => rfl
  | cons b r ih => simp [Memory.cellsFrom, Memory.wfFrom, ih]

/-- The memory is in canonical form in every state, so after every memory operation, and after reset. -/
theorem Memory.wf_cells (s : State) : Memory.wf (Memory.cells s) = true := Memory.wfFrom_cellsFrom 0 s.residual

/-- Append keeps the canonical form. -/
theorem Memory.wf_append (s : State) (b : Byte) : Memory.wf (Memory.cells (append s b)) = true := Memory.wf_cells _

/-- DropFront keeps the canonical form. -/
theorem Memory.wf_dropFront (s : State) (n : Nat) : Memory.wf (Memory.cells (dropFront s n)) = true := Memory.wf_cells _

/-- The memory after reset has the canonical form: nothing is listed. -/
theorem Memory.cells_reset : Memory.cells State.reset = [] := rfl

/-- A cell holds the byte at its index. -/
theorem Memory.mem_cellsFrom {i a : Nat} {b : Byte} {r : List Byte} :
    (a, b) ∈ Memory.cellsFrom i r ↔ i ≤ a ∧ r[a - i]? = some b := by
  induction r generalizing i with
  | nil => simp [Memory.cellsFrom]
  | cons x r ih =>
    simp only [Memory.cellsFrom, List.mem_cons, Prod.mk.injEq, ih]
    rcases Nat.lt_trichotomy a i with h | h | h
    · constructor
      · rintro (⟨rfl, -⟩ | ⟨h', -⟩) <;> omega
      · rintro ⟨h', -⟩; omega
    · subst h
      simp [eq_comm]
    · have h1 : a - i = (a - (i + 1)) + 1 := by omega
      rw [h1, List.getElem?_cons_succ]
      constructor
      · rintro (⟨rfl, -⟩ | ⟨-, h'⟩)
        · omega
        · exact ⟨by omega, h'⟩
      · rintro ⟨-, h'⟩
        exact .inr ⟨by omega, h'⟩

/-- What MemRead gives byte by byte (R51). -/
theorem getElem?_memRead (s : State) (i n k : Nat) (h : k < n) : (memRead s i n)[k]? = s.residual[i + k]? := by
  unfold memRead Wire.slice
  rw [List.getElem?_drop, List.getElem?_take]
  simp [show i + k < i + n by omega]

end Sys2Proof.Machine
end

