-- ==== Sys2Proof/Laws/Wire.lean ====
section
/-! SUPPORT. Small facts about the wire format's searches: where the marker and the delimiter lie, what does not change when
bytes arrive behind; and what a frame cut from the stream is. -/

namespace Sys2Proof.Wire

/-- The delimiter lies at index 11 or later, and its two bytes exist (R181). -/
theorem findDelimFrom_bounds {j d : Nat} {r : List Byte} (h : findDelimFrom j r = some d) :
    j ≤ d ∧ d + 2 ≤ j + r.length := by
  induction r generalizing j with
  | nil => simp [findDelimFrom] at h
  | cons a r ih =>
    cases r with
    | nil => simp [findDelimFrom] at h
    | cons b rest =>
      simp only [findDelimFrom] at h
      split at h
      · simp only [Option.some.injEq] at h
        simp only [List.length_cons]
        omega
      · have := ih h
        simp only [List.length_cons] at this ⊢
        omega

/-- A marker at the front has its 11 bytes. -/
theorem length_of_markerAtFront {r : List Byte} (h : markerAtFront r = true) : 11 ≤ r.length := by
  have h' : r.take 11 = markerBytes := of_decide_eq_true h
  have := congrArg List.length h'
  simp [markerBytes] at this
  omega

/-- Where `FindDelim` finds the delimiter (R181). -/
theorem findDelim_bounds {r : List Byte} {d : Nat} (h : findDelim r = some d) : 11 ≤ d ∧ d + 2 ≤ r.length := by
  have := findDelimFrom_bounds h
  simp only [markerLen, List.length_drop] at this
  refine ⟨this.1, ?_⟩
  by_cases hl : 11 ≤ r.length
  · omega
  · have h0 : r.drop 11 = [] := List.drop_eq_nil_of_le (by omega)
    simp [findDelim, markerLen, h0, findDelimFrom] at h

/-- A slice that lies in the front part is the front part's. -/
theorem slice_append {r : List Byte} (x : List Byte) {a b : Nat} (h : b ≤ r.length) : slice (r ++ x) a b = slice r a b := by
  unfold slice
  rw [List.take_append_of_le_length h]

/-- The marker stays at the front when bytes arrive behind. -/
theorem markerAtFront_append {r : List Byte} (x : List Byte) (h : 11 ≤ r.length) :
    markerAtFront (r ++ x) = markerAtFront r := by
  unfold markerAtFront
  rw [List.take_append_of_le_length (show markerLen ≤ r.length from h)]

/-- The first delimiter stays the first when bytes arrive behind it (R181). -/
theorem findDelimFrom_append {j d : Nat} {r : List Byte} (x : List Byte) (h : findDelimFrom j r = some d) :
    findDelimFrom j (r ++ x) = some d := by
  induction r generalizing j with
  | nil => simp [findDelimFrom] at h
  | cons a r ih =>
    cases r with
    | nil => simp [findDelimFrom] at h
    | cons b rest =>
      simp only [findDelimFrom, List.cons_append] at h ⊢
      split at h
      · next hc => rw [if_pos hc]; exact h
      · next hc => rw [if_neg hc]; exact ih h

/-- The first delimiter stays the first when bytes arrive behind it (R181). -/
theorem findDelim_append {r : List Byte} {d : Nat} (x : List Byte) (h : findDelim r = some d) :
    findDelim (r ++ x) = some d := by
  have hb := findDelim_bounds h
  unfold findDelim at h ⊢
  rw [List.drop_append_of_le_length (by simp only [markerLen]; omega)]
  exact findDelimFrom_append x h

/-- Continuation bytes that exist are read the same when bytes arrive behind. -/
theorem utf8Continue_append {r : List Byte} (x : List Byte) {k j cp : Nat} (h : j + k ≤ r.length) :
    utf8Continue (r ++ x) k j cp = utf8Continue r k j cp := by
  induction k generalizing j cp with
  | zero => rfl
  | succ k ih =>
    simp only [utf8Continue]
    rw [List.getElem?_append_left (by omega)]
    split
    · rfl
    · split
      · exact ih (by omega)
      · rfl

/-- A lead byte's length is at least 2 (R77). -/
theorem utf8Lead_length {b : Byte} {n cp lo : Nat} (h : utf8Lead b = some (n, cp, lo)) : 2 ≤ n := by
  unfold utf8Lead at h
  split at h
  · simp only [Option.some.injEq, Prod.mk.injEq] at h; omega
  · split at h
    · simp only [Option.some.injEq, Prod.mk.injEq] at h; omega
    · split at h
      · simp only [Option.some.injEq, Prod.mk.injEq] at h; omega
      · simp at h

/-- `Utf8At` reads nothing at or behind `e` (R77). -/
theorem utf8At_append {r : List Byte} (x : List Byte) {i e : Nat} (hi : i < e) (he : e ≤ r.length) :
    utf8At (r ++ x) i e = utf8At r i e := by
  unfold utf8At
  rw [List.getElem?_append_left (by omega)]
  split
  · rfl
  · split
    · rfl
    · next n cp lo hl =>
      split
      · rfl
      · have := utf8Lead_length hl
        rw [utf8Continue_append x (by omega)]

/-- A word character is read the same when bytes arrive behind `e` (R78). -/
theorem wordCharAt_append (c : Config) {r : List Byte} (x : List Byte) {i e : Nat} (he : e ≤ r.length) :
    wordCharAt c (r ++ x) i e = wordCharAt c r i e := by
  unfold wordCharAt
  split
  · next hi => rw [List.getElem?_append_left (by omega), utf8At_append x hi he]
  · rfl

/-- A word run is the same when bytes arrive behind its end (R185). -/
theorem runWordFrom_append (c : Config) {r : List Byte} (x : List Byte) {e : Nat} (he : e ≤ r.length) (k i : Nat) :
    runWordFrom c (r ++ x) e k i = runWordFrom c r e k i := by
  induction k generalizing i with
  | zero => rfl
  | succ k ih =>
    simp only [runWordFrom]
    rw [wordCharAt_append c x he]
    split
    · rfl
    · exact ih _

/-- Every run is the same when bytes arrive behind the segment (R185). -/
theorem runEnd_append (c : Config) (run : RunKind) {r : List Byte} (x : List Byte) {q d : Nat} (hd : d ≤ r.length) :
    runEnd c run (r ++ x) q d = runEnd c run r q d := by
  cases run with
  | word => exact runWordFrom_append c x hd _ _
  | digit => simp only [runEnd, runClass, slice_append x hd]
  | hex => simp only [runEnd, runClass, slice_append x hd]

/-- A run of a class ends inside its segment. -/
theorem runClass_le {p : Byte → Bool} {r : List Byte} {q d : Nat} (hq : q ≤ d) : runClass p r q d ≤ d := by
  unfold runClass
  have h1 := (List.takeWhile_sublist p (l := slice r q d)).length_le
  have h2 : (slice r q d).length ≤ d - q := by
    simp only [slice, List.length_drop, List.length_take]
    omega
  omega

/-- A word character lies inside its segment (R78). -/
theorem wordCharAt_le {c : Config} {r : List Byte} {i e n : Nat} (h : wordCharAt c r i e = some n) :
    1 ≤ n ∧ i + n ≤ e := by
  unfold wordCharAt at h
  split at h
  · next hi =>
    split at h
    · simp at h
    · split at h
      · split at h
        · simp only [Option.some.injEq] at h; omega
        · simp at h
      · split at h
        · simp at h
        · next cp n' hu =>
          split at h
          · simp only [Option.some.injEq] at h
            subst h
            unfold utf8At at hu
            split at hu
            · simp at hu
            · split at hu
              · simp at hu
              · next hl =>
                have := utf8Lead_length hl
                split at hu
                · simp at hu
                · split at hu
                  · simp at hu
                  · split at hu
                    · simp at hu
                    · simp only [Option.some.injEq, Prod.mk.injEq] at hu
                      omega
          · simp at h
  · simp at h

/-- A word run ends inside its segment (R185). -/
theorem runWordFrom_le {c : Config} {r : List Byte} {e i : Nat} (k : Nat) (hi : i ≤ e) : runWordFrom c r e k i ≤ e := by
  induction k generalizing i with
  | zero => exact hi
  | succ k ih =>
    simp only [runWordFrom]
    split
    · exact hi
    · next n hn => exact ih (wordCharAt_le hn).2

/-- Every run ends inside its segment (R185). -/
theorem runEnd_le {c : Config} {run : RunKind} {r : List Byte} {q d : Nat} (hq : q ≤ d) : runEnd c run r q d ≤ d := by
  cases run with
  | word => exact runWordFrom_le _ hq
  | digit => exact runClass_le hq
  | hex => exact runClass_le hq

/-- A line's field is the same when bytes arrive behind the delimiter (R191). -/
theorem fieldAt_append (c : Config) {r : List Byte} (x : List Byte) {d p : Nat} (label : List Byte) (run : RunKind)
    (hd : d ≤ r.length) (hp : p ≤ d) (h2 : 2 ≤ p) : fieldAt c (r ++ x) d label run p = fieldAt c r d label run p := by
  have hl : lineStart (r ++ x) p = lineStart r p := by
    unfold lineStart
    rw [List.getElem?_append_left (by omega)]
  unfold fieldAt
  rw [hl]
  by_cases hc : p + label.length ≤ d
  · simp only [slice_append x (show p + label.length ≤ r.length by omega), runEnd_append c run x hd,
      slice_append x (le_trans (runEnd_le (c := c) (run := run) (r := r) hc) hd)]
  · rw [if_neg (fun h => hc h.2.1), if_neg (fun h => hc h.2.1)]

/-- A field is the same when bytes arrive behind the delimiter (R191). -/
theorem findField_append (c : Config) {r : List Byte} (x : List Byte) {d : Nat} (label : List Byte) (run : RunKind)
    (hd : d ≤ r.length) : findField c (r ++ x) d label run = findField c r d label run := by
  unfold findField
  have hmem : ∀ p ∈ List.range' 2 (d - 2), fieldAt c (r ++ x) d label run p = fieldAt c r d label run p := by
    intro p hp
    rw [List.mem_range'_1] at hp
    exact fieldAt_append c x label run hd (by omega) hp.1
  generalize List.range' 2 (d - 2) = l at hmem
  induction l with
  | nil => rfl
  | cons p l ih =>
    rw [List.findSome?_cons, List.findSome?_cons, hmem p (by simp), ih fun q hq => hmem q (by simp [hq])]

/-- `Parse` is a function of `r[0..d)` alone (R191). -/
theorem parseWith_append (c : Config) (lenMax : Option Nat) {r : List Byte} (x : List Byte) {d : Nat} (hd : d ≤ r.length) :
    parseWith c lenMax (r ++ x) d = parseWith c lenMax r d := by
  unfold parseWith
  rw [findField_append c x _ _ hd, findField_append c x _ _ hd, findField_append c x _ _ hd]

/-- `Parse` is a function of `r[0..d)` alone (R191). -/
theorem parse_append (c : Config) {r : List Byte} (x : List Byte) {d : Nat} (hd : d ≤ r.length) :
    parse c (r ++ x) d = parse c r d := parseWith_append c c.lenMax x hd

end Sys2Proof.Wire

namespace Sys2Proof

/-- A frame cut from the stream is what ENCODE writes of its name and payload, and its payload is one SHA-256 is defined on
(R121, R140). -/
theorem decodeFrame_eq_some {c : Config} {bs name payload behind : List Byte}
    (h : decodeFrame c bs = some (name, payload, behind)) :
    payload.length < 2 ^ 61 ∧ bs = Encoder.encode name payload ++ behind := by
  unfold decodeFrame at h
  split at h
  · split at h
    · cases h
    · next d hd =>
      split at h
      · cases h
      · next hdr hp =>
        dsimp only at h
        split at h
        · next hc =>
          cases h
          have hl : hdr.len < 2 ^ 61 := of_decide_eq_true hc.1
          refine ⟨?_, ?_⟩
          · simp only [Wire.slice, List.length_drop, List.length_take]
            omega
          · rw [← hc.2, List.take_append_drop]
        · cases h
  · cases h

end Sys2Proof
end

