-- ==== Sys2Proof/Laws/Micro.lean ====
section
/-! SUPPORT. What a micro-step can do, said once: the state each one leaves, when it answers it, and what the loop and a
PUTBYTE do with it. -/

namespace Sys2Proof.Machine

/-- The state a micro-step leaves (R171 to R173, R182, R190, R201, R202). -/
def microEffect (m : MicroStep) (s : State) : State :=
  match m with
  | .scanWait => s
  | .scanDropEdge => dropFront (emitEvent .framingLoss (raise .framing s)) 1
  | .scanDrop => dropFront s 1
  | .hdrWait => s
  | .hdrReject d => dropFront (emitEvent .protocolError (raise .protocol s)) (d + Wire.delimLen)
  | .payloadWait _ _ => s
  | .resolve d name len hex => resolveFrame d name len hex s

/-- How long a message the micro-step hashes. -/
def microHashed : MicroStep → Nat
  | .resolve _ _ len _ => len
  | .scanWait | .scanDropEdge | .scanDrop | .hdrWait | .hdrReject _ | .payloadWait _ _ => 0

/-- A micro-step as an operation is the micro-step. -/
theorem exec_toInstr (m : MicroStep) (s : State) : exec m.toInstr s = runMicroStep m s := by
  cases m <;> rfl

/-- A micro-step in one form: guarded, its effect. -/
theorem runMicroStep_eq (m : MicroStep) (s : State) :
    runMicroStep m s = whenGuarded m s (whenDigestDefined (microHashed m) (.next (microEffect m s))) := by
  cases m <;> rfl

/-- When a micro-step answers a next state, and which. -/
theorem runMicroStep_eq_next {m : MicroStep} {s t : State} :
    runMicroStep m s = .next t ↔
      s.fault = false ∧ microGuard s.cfg s.residual s.sync m = true ∧ microHashed m < 2 ^ 61 ∧ t = microEffect m s := by
  rw [runMicroStep_eq, whenGuarded_eq_next, whenDigestDefined_eq_next]
  constructor
  · rintro ⟨hf, hg, hl, he⟩
    cases he
    exact ⟨hf, hg, hl, rfl⟩
  · rintro ⟨hf, hg, hl, rfl⟩
    exact ⟨hf, hg, hl, rfl⟩

/-- Classification touches only three counters, and `sync`, which it leaves set. -/
theorem classify_frame (good : Bool) (p : PatternResult) (s : State) :
    (classify good p s).cfg = s.cfg ∧ (classify good p s).residual = s.residual ∧
    (classify good p s).framingErr = s.framingErr ∧ (classify good p s).protocolErr = s.protocolErr ∧
    (classify good p s).fault = s.fault ∧ (classify good p s).eventLog = s.eventLog ∧
    (classify good p s).result = s.result ∧ (classify good p s).openReads = s.openReads ∧
    (classify good p s).host = s.host := by
  cases good <;> cases p <;> simp [classify]

/-- Classification after a resynchronisation leaves `sync` set (R207). -/
theorem classify_sync (good : Bool) (p : PatternResult) (s : State) (h : s.sync = true) :
    (classify good p s).sync = true := by
  cases good <;> cases p <;> simp [classify, h]

/-- What no micro-step touches. -/
theorem microEffect_frame (m : MicroStep) (s : State) :
    (microEffect m s).cfg = s.cfg ∧ (microEffect m s).fault = s.fault ∧ (microEffect m s).result = s.result ∧
    (microEffect m s).openReads = s.openReads ∧ (microEffect m s).host = s.host := by
  cases m <;> simp [microEffect, resolveFrame, classify_frame]

/-- A micro-step removes bytes from the front and nothing else (R21, R230). -/
theorem microEffect_residual (m : MicroStep) (s : State) :
    (microEffect m s).residual = s.residual.drop (bytesDropped m) := by
  cases m <;> simp [microEffect, bytesDropped, resolveFrame, classify_frame, Wire.delimLen]

/-- A micro-step appends to the log the event it emits, with DIAG, and nothing else (R33, R159). -/
theorem microEffect_eventLog (m : MicroStep) (s : State) (h : microHashed m < 2 ^ 61) :
    (microEffect m s).eventLog = if s.cfg.diag then s.eventLog ++ (microEvent s m).toList else s.eventLog := by
  cases m with
  | resolve d name len hex =>
    have h' : Sha256.inDomain len = true := decide_eq_true h
    simp [microEffect, microEvent, resolveFrame, classify_frame, h', memRead]
  | scanWait | scanDrop | hdrWait | payloadWait => simp [microEffect, microEvent]
  | scanDropEdge => rfl
  | hdrReject d => rfl

/-- A micro-step that waits changes nothing. -/
theorem microEffect_of_isRest {m : MicroStep} (s : State) (h : m.isRest = true) : microEffect m s = s := by
  cases m <;> first | rfl | simp [MicroStep.isRest] at h

/-- A micro-step that waits hashes nothing. -/
theorem microHashed_of_isRest {m : MicroStep} (h : m.isRest = true) : microHashed m = 0 := by
  cases m <;> first | rfl | simp [MicroStep.isRest] at h

/-- A micro-step whose guard holds finds the bytes it removes (R51). -/
theorem bytesDropped_le_of_guard {c : Config} {r : List Byte} {sync : Bool} {m : MicroStep}
    (h : microGuard c r sync m = true) : bytesDropped m ≤ r.length := by
  cases m with
  | scanWait => simp [bytesDropped]
  | scanDropEdge => simp [microGuard] at h; simp [bytesDropped]; omega
  | scanDrop => simp [microGuard] at h; simp [bytesDropped]; omega
  | hdrWait => simp [bytesDropped]
  | hdrReject d =>
    simp only [microGuard, Bool.and_eq_true, decide_eq_true_eq] at h
    exact (Wire.findDelim_bounds h.1.2).2
  | payloadWait d len => simp [bytesDropped]
  | resolve d name len hex =>
    simp only [microGuard, Bool.and_eq_true, decide_eq_true_eq] at h
    exact h.2

/-- A micro-step that does not wait removes at least one byte (R157). -/
theorem bytesDropped_pos {m : MicroStep} (h : m.isRest = false) : 1 ≤ bytesDropped m := by
  cases m <;> first | (cases h; done) | (simp only [bytesDropped]; omega)

/-- The message a micro-step hashes is no longer than `residual`. -/
theorem microHashed_le_of_guard {c : Config} {r : List Byte} {sync : Bool} {m : MicroStep}
    (h : microGuard c r sync m = true) : microHashed m ≤ r.length := by
  have hd := bytesDropped_le_of_guard h
  cases m <;> simp only [microHashed, bytesDropped] at hd ⊢ <;> omega

/-- The selected micro-step's guard holds: the selection never gets stuck (R90, R154). -/
theorem microGuard_select (c : Config) (r : List Byte) (sync : Bool) : microGuard c r sync (select c r sync) = true := by
  unfold select
  split
  · next h => simp only [Wire.markerLen] at h; simp [microGuard, h]
  · next h =>
    simp only [Wire.markerLen, Nat.not_lt] at h
    split
    · next hm => cases sync <;> simp [microGuard, h, hm]
    · next hm =>
      simp only [Bool.not_eq_false] at hm
      split
      · next hd => simp [microGuard, hm, hd]
      · next d hd =>
        split
        · next hp => simp [microGuard, hm, hd, hp]
        · next hdr hp =>
          by_cases hl : r.length < d + 2 + hdr.len
          · simp [microGuard, hm, hd, hp, Wire.delimLen, hl]
          · simp [microGuard, hm, hd, hp, Wire.delimLen, hl, Nat.not_lt.mp hl]

/-- What `Micro` does: with no fault, and no digest beyond SHA-256's domain, the selected micro-step's effect. -/
theorem micro_eq_next {s t : State} :
    micro s = .next t ↔ s.fault = false ∧ microHashed (selected s) < 2 ^ 61 ∧ t = microEffect (selected s) s := by
  unfold micro
  rw [runMicroStep_eq_next]
  exact ⟨fun h => ⟨h.1, h.2.2⟩, fun h => ⟨h.1, microGuard_select s.cfg s.residual s.sync, h.2⟩⟩

/-- `Micro` completes whenever the sink is live and its buffer is of a size SHA-256 is defined on. -/
theorem micro_of_length {s : State} (hf : s.fault = false) (hl : s.residual.length < 2 ^ 61) :
    micro s = .next (microEffect (selected s) s) := by
  rw [micro_eq_next]
  refine ⟨hf, ?_, rfl⟩
  have := microHashed_le_of_guard (microGuard_select s.cfg s.residual s.sync)
  simp only [selected]
  omega

/-- One turn of the loop. -/
theorem runLoop_succ (n : Nat) (s : State) :
    runLoop (n + 1) s = if (selected s).isRest then micro s else andThen (micro s) (runLoop n) := rfl

/-- At rest the loop performs the wait, which changes nothing. -/
theorem runLoop_of_atRest {s : State} (n : Nat) (hf : s.fault = false) (h : atRest s = true) :
    runLoop (n + 1) s = .next s := by
  have h' : (selected s).isRest = true := h
  rw [runLoop_succ, if_pos h', micro_eq_next.mpr ⟨hf, by rw [microHashed_of_isRest h']; decide, rfl⟩,
    microEffect_of_isRest s h']

/-- Not at rest the loop goes on after one micro-step. -/
theorem runLoop_of_not_atRest {s : State} (n : Nat) (h : atRest s = false) :
    runLoop (n + 1) s = andThen (micro s) (runLoop n) := by
  have h' : (selected s).isRest = false := h
  rw [runLoop_succ, h']
  rfl

/-- When an accepted byte answers a next state: appended, the loop run, the capacity tested (R153). -/
theorem putByte_eq_next {b : Byte} {s t : State} :
    putByte b s = .next t ↔
      s.fault = false ∧ atRest s = true ∧ ∃ u, decodeLoop (append s b) = .next u ∧ t = testCapacity u := by
  unfold putByte
  cases hf : s.fault
  · cases hr : atRest s
    · simp
    · simp only [Bool.false_eq_true, if_false, if_true, true_and, andThen_eq_next, Host.Outcome.next.injEq]
      exact exists_congr fun u => and_congr_right fun _ => eq_comm
  · simp

/-- When a chunk's bytes answer a next state: byte after byte. -/
theorem putBytes_cons_eq_next {b : Byte} {bs : List Byte} {s t : State} :
    putBytes (b :: bs) s = .next t ↔ ∃ u, putByte b s = .next u ∧ putBytes bs u = .next t := andThen_eq_next

/-- When a write answers a next state: its bytes', with `bytesAccepted` returned (R152). -/
theorem acceptBytes_eq_next {bs : List Byte} {s t : State} :
    acceptBytes bs s = .next t ↔ ∃ u, putBytes bs s = .next u ∧ t = returnValue u (.accepted bs.length) := by
  unfold acceptBytes
  rw [andThen_eq_next]
  refine exists_congr fun u => and_congr_right fun _ => ?_
  rw [Host.Outcome.next.injEq]
  exact eq_comm

/-- The capacity test changes `fault` alone, and only sets it (R58). -/
theorem testCapacity_eq (s : State) : testCapacity s = { s with fault := s.fault || overflow s } := by
  unfold testCapacity
  cases h : overflow s
  · simp
  · simp [raise]

end Sys2Proof.Machine
end

