-- ==== Sys2Proof/Laws/Loop.lean ====
section
/-! SUPPORT. The decode loop: every micro-step that does not wait is stable when bytes arrive behind (43_interface_ops.md R156),
so running the loop on a longer buffer is running it on the front part and going on. -/

namespace Sys2Proof.Machine

/-- More bytes behind. -/
def extend (s : State) (x : List Byte) : State := { s with residual := s.residual ++ x }

@[simp] theorem extend_cfg (s : State) (x : List Byte) : (extend s x).cfg = s.cfg := rfl
@[simp] theorem extend_residual (s : State) (x : List Byte) : (extend s x).residual = s.residual ++ x := rfl
@[simp] theorem extend_sync (s : State) (x : List Byte) : (extend s x).sync = s.sync := rfl
@[simp] theorem extend_fault (s : State) (x : List Byte) : (extend s x).fault = s.fault := rfl

/-- Nothing more behind. -/
theorem extend_nil (s : State) : extend s [] = s := by simp [extend]

/-- One byte more is Append. -/
theorem extend_singleton (s : State) (b : Byte) : extend s [b] = append s b := rfl

/-- Bytes behind bytes. -/
theorem extend_extend (s : State) (x y : List Byte) : extend (extend s x) y = extend s (x ++ y) := by
  simp [extend, List.append_assoc]

/-- A selection that does not wait does not depend on the bytes behind (R156). -/
theorem select_append (c : Config) {r : List Byte} (x : List Byte) (sync : Bool) (h : (select c r sync).isRest = false) :
    select c (r ++ x) sync = select c r sync := by
  by_cases hl : r.length < Wire.markerLen
  · simp [select, hl, MicroStep.isRest] at h
  have hl' : ¬(r ++ x).length < Wire.markerLen := by simp only [List.length_append]; omega
  have hm := Wire.markerAtFront_append x (r := r) (by simpa [Wire.markerLen] using hl)
  unfold select at h ⊢
  rw [if_neg hl] at h ⊢
  rw [if_neg hl', hm]
  by_cases hf : Wire.markerAtFront r = false
  · rw [if_pos hf, if_pos hf]
  rw [if_neg hf] at h ⊢
  rw [if_neg hf]
  cases hd : Wire.findDelim r with
  | none => rw [hd] at h; simp [MicroStep.isRest] at h
  | some d =>
    have hb := Wire.findDelim_bounds hd
    rw [Wire.findDelim_append x hd]
    simp only [hd, Wire.parse_append c x (show d ≤ r.length by omega)] at h ⊢
    cases hp : Wire.parse c r d with
    | none => rfl
    | some hdr =>
      simp only [hp, Wire.delimLen] at h ⊢
      by_cases hlen : r.length < d + 2 + hdr.len
      · simp [hlen, MicroStep.isRest] at h
      · have hlen' : ¬(r ++ x).length < d + 2 + hdr.len := by simp only [List.length_append]; omega
        simp only [hlen, hlen', if_false]

/-- What a micro-step that finds its bytes does, it does with more bytes behind (R156). -/
theorem microEffect_extend {m : MicroStep} {s : State} (x : List Byte) (h : bytesDropped m ≤ s.residual.length) :
    microEffect m (extend s x) = extend (microEffect m s) x := by
  cases m with
  | scanWait => rfl
  | hdrWait => rfl
  | payloadWait d len => rfl
  | scanDropEdge =>
    simp only [microEffect, bytesDropped, dropFront, emitEvent, raise, extend] at h ⊢
    rw [List.drop_append_of_le_length h]
    rfl
  | scanDrop =>
    simp only [microEffect, bytesDropped, dropFront, extend] at h ⊢
    rw [List.drop_append_of_le_length h]
  | hdrReject d =>
    simp only [microEffect, bytesDropped, dropFront, emitEvent, raise, extend, Wire.delimLen] at h ⊢
    rw [List.drop_append_of_le_length h]
    rfl
  | resolve d name len hex =>
    have hr : memRead (extend s x) (d + Wire.delimLen) len = memRead s (d + Wire.delimLen) len := by
      simp only [memRead, extend, Wire.delimLen, bytesDropped] at h ⊢
      exact Wire.slice_append x h
    simp only [microEffect, resolveFrame, hr, extend_cfg]
    generalize checksumGood hex (memRead s (d + Wire.delimLen) len) = good
    generalize patternResult s.cfg.catalog name (memRead s (d + Wire.delimLen) len) = p
    generalize frameEvent s.cfg.catalog name len hex (memRead s (d + Wire.delimLen) len) = ev
    have hdrop : (s.residual ++ x).drop (d + Wire.delimLen + len) = s.residual.drop (d + Wire.delimLen + len) ++ x :=
      List.drop_append_of_le_length h
    cases good <;> cases p <;>
      simp [classify, dropFront, resync, extend, emitEvent, raise, countGood, hdrop]

/-- A loop that does not wait at once does its first micro-step with more bytes behind (R156). -/
theorem micro_extend {s : State} (x : List Byte) (h : atRest s = false) :
    micro (extend s x) = andThen (micro s) fun t => .next (extend t x) := by
  have hsel : selected (extend s x) = selected s := select_append s.cfg x s.sync h
  have hg : microGuard s.cfg s.residual s.sync (selected s) = true := microGuard_select s.cfg s.residual s.sync
  have hg' : microGuard (extend s x).cfg (extend s x).residual (extend s x).sync (selected s) = true := by
    rw [← hsel]
    exact microGuard_select _ _ _
  unfold micro
  rw [hsel, runMicroStep_eq, runMicroStep_eq]
  cases hf : s.fault
  · rw [whenGuarded_of_guard (by simpa using hf) hg', whenGuarded_of_guard hf hg]
    by_cases hd : microHashed (selected s) < 2 ^ 61
    · rw [whenDigestDefined_of_lt hd, whenDigestDefined_of_lt hd, andThen_next,
        microEffect_extend x (bytesDropped_le_of_guard hg)]
    · simp only [whenDigestDefined, Sha256.inDomain, hd, decide_false, Bool.false_eq_true, if_false, andThen_refused]
  · simp [whenGuarded, hf]

/-- A micro-step that does not wait shortens `residual` (R157). -/
theorem length_microEffect_lt {s : State} (h : atRest s = false) :
    (microEffect (selected s) s).residual.length < s.residual.length := by
  have h1 := bytesDropped_pos (m := selected s) h
  have h2 := bytesDropped_le_of_guard (microGuard_select s.cfg s.residual s.sync)
  rw [microEffect_residual, List.length_drop]
  simp only [selected] at h1 ⊢
  omega

/-- The loop's bound does not matter once it exceeds the buffer's length (R157). -/
theorem runLoop_of_lt {n : Nat} {s : State} (h : s.residual.length < n) : runLoop n s = decodeLoop s := by
  suffices H : ∀ k n (s : State), s.residual.length ≤ k → s.residual.length < n →
      runLoop n s = runLoop (s.residual.length + 1) s from H _ n s le_rfl h
  intro k
  induction k with
  | zero =>
    intro n s hk hn
    obtain ⟨n, rfl⟩ : ∃ m, n = m + 1 := ⟨n - 1, by omega⟩
    have hr : (selected s).isRest = true := by
      have : s.residual.length < Wire.markerLen := by simp only [Wire.markerLen]; omega
      simp [selected, select, this, MicroStep.isRest]
    simp [runLoop_succ, hr]
  | succ k ih =>
    intro n s hk hn
    obtain ⟨n, rfl⟩ : ∃ m, n = m + 1 := ⟨n - 1, by omega⟩
    cases hr : atRest s with
    | true =>
      have hr' : (selected s).isRest = true := hr
      simp [runLoop_succ, hr']
    | false =>
      rw [runLoop_of_not_atRest _ hr, runLoop_of_not_atRest _ hr]
      cases hm : micro s with
      | next t =>
        have ht := (micro_eq_next.mp hm).2.2
        have hlt := length_microEffect_lt hr
        rw [← ht] at hlt
        simp only [andThen_next]
        rw [ih n t (by omega) (by omega), ih s.residual.length t (by omega) hlt]
      | fault r => rfl
      | refused r => rfl

/-- At rest the loop leaves the state as it is. -/
theorem decodeLoop_of_atRest {s : State} (hf : s.fault = false) (h : atRest s = true) : decodeLoop s = .next s :=
  runLoop_of_atRest _ hf h

/-- Not at rest the loop goes on behind one micro-step. -/
theorem decodeLoop_of_not_atRest {s : State} (h : atRest s = false) : decodeLoop s = andThen (micro s) decodeLoop := by
  unfold decodeLoop
  rw [runLoop_of_not_atRest _ h]
  cases hm : micro s with
  | next t =>
    have ht := (micro_eq_next.mp hm).2.2
    have hlt := length_microEffect_lt h
    rw [← ht] at hlt
    simp only [andThen_next]
    exact runLoop_of_lt hlt
  | fault r => rfl
  | refused r => rfl

/-- Induction over the loop: a fact about every state, if it holds at rest and comes from the state behind one
micro-step. -/
theorem loop_induction {P : State → Prop} (rest : ∀ s, atRest s = true → P s)
    (go : ∀ s, atRest s = false → P (microEffect (selected s) s) → P s) (s : State) : P s := by
  suffices H : ∀ k (s : State), s.residual.length ≤ k → P s from H _ s le_rfl
  intro k
  induction k with
  | zero =>
    intro s hk
    refine rest s ?_
    have : s.residual.length < Wire.markerLen := by simp only [Wire.markerLen]; omega
    simp [atRest, selected, select, this, MicroStep.isRest]
  | succ k ih =>
    intro s hk
    cases hr : atRest s with
    | true => exact rest s hr
    | false =>
      have := length_microEffect_lt hr
      exact go s hr (ih _ (by omega))

/-- Running the loop with more bytes behind is running it without them and going on (R156). -/
theorem decodeLoop_extend (s : State) (x : List Byte) (hf : s.fault = false) :
    decodeLoop (extend s x) = andThen (decodeLoop s) fun t => decodeLoop (extend t x) := by
  revert hf
  refine loop_induction (P := fun s => s.fault = false →
    decodeLoop (extend s x) = andThen (decodeLoop s) fun t => decodeLoop (extend t x)) ?_ ?_ s
  · intro s hr hf
    rw [decodeLoop_of_atRest hf hr, andThen_next]
  · intro s hr ih hf
    have hsel : selected (extend s x) = selected s := select_append s.cfg x s.sync hr
    have hr' : atRest (extend s x) = false := by unfold atRest; rw [hsel]; exact hr
    rw [decodeLoop_of_not_atRest hr', decodeLoop_of_not_atRest hr, micro_extend x hr]
    cases hm : micro s with
    | next t =>
      have ht := (micro_eq_next.mp hm).2.2
      simp only [andThen_next]
      rw [ht]
      refine ih ?_
      rw [(microEffect_frame _ _).2.1]
      exact hf
    | fault r => rfl
    | refused r => rfl

end Sys2Proof.Machine
end

