-- ==== Sys2Proof/Laws/PerInstr.lean ====
section
/-! SUPPORT. The instruction set as it is written, one lemma per constructor: an operation that has bytes on the stream has at
least one, is one the host performs, and is well-formed or a FRAME (whose name and payload are checked). -/

namespace Sys2Proof.Laws.WireForm

/-- What holds of every operation as it is written. -/
def Statement (i : Instr) : Prop :=
  ∀ bs, encode i = some bs →
    bs ≠ [] ∧ i.byHost = true ∧ ∀ c : Config, i.wellFormed c = true ∨ ∃ name payload, i = .frame name payload

/-- An operation with no bytes on the stream. -/
theorem of_none {i : Instr} (h : encode i = none) : Statement i := by
  intro bs hb
  rw [h] at hb
  cases hb

theorem marker : Statement (.marker) := fun _ h => by
  cases h
  exact ⟨by decide, rfl, fun _ => .inl rfl⟩

theorem delim : Statement (.delim) := fun _ h => by
  cases h
  exact ⟨by decide, rfl, fun _ => .inl rfl⟩

theorem lPattern : Statement (.lPattern) := fun _ h => by
  cases h
  exact ⟨by decide, rfl, fun _ => .inl rfl⟩

theorem lLength : Statement (.lLength) := fun _ h => by
  cases h
  exact ⟨by decide, rfl, fun _ => .inl rfl⟩

theorem lSha256 : Statement (.lSha256) := fun _ h => by
  cases h
  exact ⟨by decide, rfl, fun _ => .inl rfl⟩

theorem frame (name payload : List Byte) : Statement (.frame name payload) := fun _ h => by
  cases h
  exact ⟨by simp [Encoder.encode, Wire.markerBytes], rfl, fun _ => .inr ⟨name, payload, rfl⟩⟩

theorem scanWait : Statement (.scanWait) := of_none rfl

theorem scanDropEdge : Statement (.scanDropEdge) := of_none rfl

theorem scanDrop : Statement (.scanDrop) := of_none rfl

theorem hdrWait : Statement (.hdrWait) := of_none rfl

theorem hdrReject (d : Nat) : Statement (.hdrReject d) := of_none rfl

theorem payloadWait (d len : Nat) : Statement (.payloadWait d len) := of_none rfl

theorem resolve (d : Nat) (name : List Byte) (len : Nat) (hex : List Byte) : Statement (.resolve d name len hex) := of_none rfl

theorem reset : Statement (.reset) := of_none rfl

theorem write (chunk : List Byte) : Statement (.write chunk) := of_none rfl

theorem putbyte (b : Byte) : Statement (.putbyte b) := fun _ h => by
  cases h
  exact ⟨by simp, rfl, fun _ => .inl rfl⟩

theorem readStatus (sel : StatusSel) : Statement (.readStatus sel) := of_none rfl

theorem emit (ev : Event) : Statement (.emit ev) := of_none rfl

theorem generate (seed : NEBytes) (length : Nat) : Statement (.generate seed length) := of_none rfl

theorem verify (seed : NEBytes) (payload : List Byte) : Statement (.verify seed payload) := of_none rfl

theorem lookup (name : List Byte) : Statement (.lookup name) := of_none rfl

theorem encodeFrame (name payload : List Byte) : Statement (.encodeFrame name payload) := of_none rfl

theorem dec (v : Nat) : Statement (.dec v) := of_none rfl

theorem sha256 (msg : List Byte) : Statement (.sha256 msg) := of_none rfl

theorem hexLower (b : List Byte) : Statement (.hexLower b) := of_none rfl

theorem findDelim (r : List Byte) : Statement (.findDelim r) := of_none rfl

theorem findField (r : List Byte) (d : Nat) (label : List Byte) (run : RunKind) : Statement (.findField r d label run) := of_none rfl

theorem parse (r : List Byte) (d : Nat) : Statement (.parse r d) := of_none rfl

theorem utf8At (r : List Byte) (i e : Nat) : Statement (.utf8At r i e) := of_none rfl

end Sys2Proof.Laws.WireForm
end

