-- ==== Sys2Proof/Tests/Slice0.lean ====
section
/-! SUPPORT. The model's own tests: decodings of bytes written out from the spec, the spec's test vectors one operation at a
time, what the well-formedness checks refuse, and for every statement with hypotheses a state that meets them. Expected
values are the spec's (95_test_vectors.md, the id in each docstring), never the model's. -/

namespace Sys2Proof.Tests

set_option Elab.async false

open Sys2Proof Sys2Proof.Machine

/-- A byte string written as one hexadecimal number, as the dumps of 95_test_vectors.md are: first byte highest. -/
def dump (n v : Nat) : List Byte := (List.range n).map fun k => BitVec.ofNat 8 (v / 256 ^ (n - 1 - k))

/-- A reset sink that holds `r`. -/
def holding (r : List Byte) : State := { State.reset with residual := r }

/-- A reset sink that holds `r` and is out of synchronisation. -/
def lost (r : List Byte) : State := { State.reset with residual := r, sync := false }

/-- A reset sink with these bounds. -/
def bounded (cap lenMax : Option Nat) : State :=
  State.resetWith { Config.default with residualCap := cap, lenMax := lenMax }

/-- Whether an answer is a next state of which `p` holds. -/
def answers (o : Answer) (p : State → Bool) : Bool :=
  match o with
  | .next t => p t
  | .fault _ => false
  | .refused _ => false

/-- Whether an answer is the stop after an overflow. -/
def isStuck (o : Answer) : Bool :=
  match o with
  | .next _ => false
  | .fault .stuckAfterOverflow => true
  | .refused _ => false

/-- Whether an answer is this refusal. -/
def isRefused (o : Answer) (why : Refusal) : Bool :=
  match o with
  | .next _ => false
  | .fault _ => false
  | .refused w => decide (w = why)

/-- The counters, `sync` and `residual`, in the order of 95_test_vectors.md section 0. -/
def shows (s : State) (good framing protocol checksum pattern : Nat) (sync : Bool) (r : List Byte) : Bool :=
  decide (s.goodFrames.toNat = good ∧ s.framingErr.toNat = framing ∧ s.protocolErr.toNat = protocol ∧
    s.checksumErr.toNat = checksum ∧ s.patternErr.toNat = pattern ∧ s.sync = sync ∧ s.residual = r ∧ s.fault = false)

/-- An answer that shows a next state is one. -/
theorem exists_of_answers {o : Answer} {p : State → Bool} (h : answers o p = true) : ∃ t, o = .next t ∧ p t = true := by
  cases o with
  | next t => exact ⟨t, rfl, h⟩
  | fault r => cases h
  | refused r => cases h

/-- Dump `E3` (95_test_vectors.md section 0). -/
def e3 : List Byte := dump 101 0x0a0a5061747465726e3a2041420a4c656e6774683a20330a5368613235363a20653132346164636365316662326638386531656137393963336430383230383435656433343365366337333965353431333166636233613536653462633162640a0a616261

/-- Dump `E0`. -/
def e0 : List Byte := dump 98 0x0a0a5061747465726e3a2041420a4c656e6774683a20300a5368613235363a20653362306334343239386663316331343961666266346338393936666239323432376165343165343634396239333463613439353939316237383532623835350a0a

/-- `h3` of section 0. -/
def h3 : List Byte := dump 64 0x65313234616463636531666232663838653165613739396333643038323038343565643334336536633733396535343133316663623361353665346263316264

/-- `"xxxxxxxxxxy"` (V6). -/
def noise11 : List Byte := dump 11 0x7878787878787878787879

/-- `"AB"`. -/
def nameAB : List Byte := dump 2 0x4142

/-- The seed `"ab"` of `AB`. -/
def seedAB : NEBytes := ⟨0x61#8, [0x62#8]⟩

/-- V27's header with an empty name, delimiter at 11. -/
def emptyName : List Byte := dump 13 0x0a0a5061747465726e3a200a0a

/-! ## Decoding, from bytes written out from the spec -/

/-- R71. -/
theorem test_decode_marker : decode Config.default (dump 11 0x0a0a5061747465726e3a20) = .found .marker [] := by decide +kernel

/-- R72. -/
theorem test_decode_delim : decode Config.default (dump 2 0x0a0a) = .found .delim [] := by decide +kernel

/-- R73. -/
theorem test_decode_lPattern : decode Config.default (dump 9 0x5061747465726e3a20) = .found .lPattern [] := by decide +kernel

/-- R73. -/
theorem test_decode_lLength : decode Config.default (dump 8 0x4c656e6774683a20) = .found .lLength [] := by decide +kernel

/-- R73. -/
theorem test_decode_lSha256 : decode Config.default (dump 8 0x5368613235363a20) = .found .lSha256 [] := by decide +kernel

/-- R74: the dump of `E3`, with a byte behind it. -/
theorem test_decode_frame : decode Config.default (e3 ++ [0x0A#8]) = .found (.frame nameAB (dump 3 0x616261)) [0x0A#8] := by decide +kernel

/-- V16's bytes are no canonical frame: the digest is not the payload's. -/
theorem test_decode_frame_bad_digest : decode Config.default (e3.dropLast ++ [0x62#8]) = .found .marker (e3.dropLast.drop 11 ++ [0x62#8]) := by decide +kernel

/-- A newline that begins no token. -/
theorem test_decode_putbyte : decode Config.default (dump 2 0x0a50) = .found (.putbyte 0x0A#8) [0x50#8] := by decide +kernel

theorem test_decode_empty : decode Config.default [] = .rejected .emptyStream := by decide +kernel

/-- The dump of `E0`. -/
theorem test_encode_frame : encode (.frame nameAB []) = some e0 := by decide +kernel

/-- R89: FRAME("AB", "ab", 3) is the dump `E3`, HDR("Pattern: ") the header of V27. -/
theorem test_shorthands : Encoder.frame nameAB seedAB 3 = e3 ∧ Encoder.hdr [Wire.labelPattern] = emptyName := by decide +kernel

theorem test_table_word : decodeTableWord 88 0x203a6e7265747461500a0a = some .marker ∧ decodeTableWord 16 0x0a0a = some .delim := by decide +kernel

/-! ## Selection (R90): the bytes written out from the vectors -/

/-- V5. -/
theorem test_select_scanWait : select Config.default (dump 10 0x78787878787878787878) true = .scanWait := by decide +kernel

/-- V6. -/
theorem test_select_scanDropEdge : select Config.default noise11 true = .scanDropEdge := by decide +kernel

/-- R173. -/
theorem test_select_scanDrop : select Config.default noise11 false = .scanDrop := by decide +kernel

/-- R182's example. -/
theorem test_select_hdrWait : select Config.default (dump 18 0x0a0a5061747465726e3a2041420a4c656e67) true = .hdrWait := by decide +kernel

/-- V27. -/
theorem test_select_hdrReject : select Config.default emptyName true = .hdrReject 11 := by decide +kernel

/-- R201's example. -/
theorem test_select_payloadWait : select Config.default e3.dropLast false = .payloadWait 96 3 := by decide +kernel

/-- R202's example. -/
theorem test_select_resolve : select Config.default e3 false = .resolve 96 nameAB 3 h3 := by decide +kernel

/-! ## Operations -/

/-- V4b. -/
theorem test_scanWait : answers (exec .scanWait State.reset) (fun t => shows t 0 0 0 0 0 true []) = true := by decide +kernel

/-- R172's example. -/
theorem test_scanDropEdge : answers (exec .scanDropEdge (holding noise11)) (fun t => shows t 0 1 0 0 0 false (dump 10 0x78787878787878787879)) = true := by decide +kernel

/-- R173's example. -/
theorem test_scanDrop : answers (exec .scanDrop (lost (dump 11 0x787878787878787878797a))) (fun t => shows t 0 0 0 0 0 false (dump 10 0x7878787878787878797a)) = true := by decide +kernel

/-- R182: exactly the marker waits. -/
theorem test_hdrWait : answers (exec .hdrWait (holding (dump 11 0x0a0a5061747465726e3a20))) (fun t => shows t 0 0 0 0 0 true (dump 11 0x0a0a5061747465726e3a20)) = true := by decide +kernel

/-- V11. -/
theorem test_hdrReject : answers (exec (.hdrReject 86) (holding (dump 91 0x0a0a5061747465726e3a2041420a5368613235363a20653132346164636365316662326638386531656137393963336430383230383435656433343365366337333965353431333166636233613536653462633162640a0a616261))) (fun t => shows t 0 0 1 0 0 false (dump 3 0x616261)) = true := by decide +kernel

/-- R201's example. -/
theorem test_payloadWait : answers (exec (.payloadWait 96 3) (holding e3.dropLast)) (fun t => shows t 0 0 0 0 0 true e3.dropLast) = true := by decide +kernel

/-- R202's example. -/
theorem test_resolve_good : answers (exec (.resolve 96 nameAB 3 h3) (lost e3)) (fun t => shows t 1 0 0 0 0 true []) = true := by decide +kernel

/-- V16, with its event. -/
theorem test_resolve_both : answers (exec (.resolve 96 nameAB 3 h3) (holding (e3.dropLast ++ [0x62#8])))
    (fun t => shows t 0 0 0 1 1 true [] && decide (t.eventLog = [.frame nameAB 3 h3 (dump 64 0x37313565646638626138373239343230636434643163653835656436313935346139663533316638633534386466373238633430376566666538333932393664) false .mismatch])) = true := by decide +kernel

/-- A micro-step the table does not run. -/
theorem test_unselected_refused : isRefused (exec .scanDrop State.reset) .notSelected = true := by decide +kernel

/-- V4c. -/
theorem test_reset : answers (exec .reset { lost noise11 with fault := true, patternErr := 7#64 }) (fun t => shows t 0 0 0 0 0 true []) = true := by decide +kernel

/-- R152's example, V6. -/
theorem test_write_noise : answers (exec (.write noise11) State.reset)
    (fun t => shows t 0 1 0 0 0 false (dump 10 0x78787878787878787879) && decide (t.result = .accepted 11)) = true := by decide +kernel

/-- V31. -/
theorem test_write_two_errors : answers (exec (.write (dump 27 0x7878787878787878787878780a0a5061747465726e3a2041420a0a)) State.reset) (fun t => shows t 0 1 1 0 0 false []) = true := by decide +kernel

/-- V3's last byte, for `E3`. -/
theorem test_putbyte_resolves : answers (exec (.putbyte 0x61#8) (holding e3.dropLast)) (fun t => shows t 1 0 0 0 0 true []) = true := by decide +kernel

/-- V29. -/
theorem test_putbyte_overflow : answers (exec (.putbyte 0x71#8) { bounded (some 64) none with residual := dump 64 0x0a0a5061747465726e3a2041420a7171717171717171717171717171717171717171717171717171717171717171717171717171717171717171717171717171 })
    (fun t => t.fault && decide (t.residual.length = 65)) = true := by decide +kernel

/-- U1. -/
theorem test_putbyte_stuck : isStuck (exec (.putbyte 0x71#8) { State.reset with fault := true }) = true := by decide +kernel

/-- U2. -/
theorem test_putbyte_overlap : isRefused (exec (.putbyte 0x71#8) (holding noise11)) .overlappingWrite = true := by decide +kernel

/-- V4d: after V29, selector 5 returns 3. -/
theorem test_readStatus_fault : answers (exec (.readStatus .status) { State.reset with fault := true }) (fun t => decide (t.result = .status 3#64)) = true := by decide +kernel

/-- R279: a counter read after the fault is a free value. -/
theorem test_readStatus_open : answers (exec (.readStatus .goodFrames) { State.reset with fault := true }) (fun t => decide (t.openReads = 1)) = true := by decide +kernel

/-- V4d: after V6, selector 6 returns 10. -/
theorem test_readStatus_len : answers (exec (.readStatus .residualLen) (lost (dump 10 0x78787878787878787879))) (fun t => decide (t.result = .status 10#64)) = true := by decide +kernel

/-- R51: a search that ends before the end of the bytes does not depend on those beyond. -/
theorem test_findField_beyond : answers (exec (.findField e3 200 Wire.labelPattern .word) State.reset)
    (fun t => decide (t.result = .field (some nameAB) ∧ t.openReads = 1)) = true := by decide +kernel

/-- R77: no lead byte, whatever stands beyond. -/
theorem test_utf8At_beyond : answers (exec (.utf8At [0x41#8] 0 5) State.reset)
    (fun t => decide (t.result = .codePoint none ∧ t.openReads = 1)) = true := by decide +kernel

/-- R160: the byte is about to be dropped, with its FRAMING_LOSS on the event outputs; at rest nothing stands on them. -/
theorem test_ports_event : (ports (fun _ => 0#64) (holding noise11)).evt = some { evtCode := 1#3, event := .framingLoss } ∧
    (ports (fun _ => 0#64) State.reset).evt = none := by decide +kernel

/-- R159. -/
theorem test_emit : answers (exec (.emit .framingLoss) State.reset) (fun t => decide (t.eventLog = [.framingLoss])) = true := by decide +kernel

/-- The marker on an empty buffer is held. -/
theorem test_marker : answers (exec .marker State.reset) (fun t => shows t 0 0 0 0 0 true (dump 11 0x0a0a5061747465726e3a20) && decide (t.result = .accepted 11)) = true := by decide +kernel

/-- V27, its delimiter as a token. -/
theorem test_delim : answers (exec .delim (holding (dump 11 0x0a0a5061747465726e3a20))) (fun t => shows t 0 0 1 0 0 false []) = true := by decide +kernel

/-- The label behind two newlines is the marker (R71). -/
theorem test_lPattern : answers (exec .lPattern (holding (dump 2 0x0a0a))) (fun t => decide (t.residual = dump 11 0x0a0a5061747465726e3a20)) = true := by decide +kernel

/-- R73. -/
theorem test_lLength : answers (exec .lLength State.reset) (fun t => decide (t.residual.length = 8 ∧ t.result = .accepted 8)) = true := by decide +kernel

/-- R73. -/
theorem test_lSha256 : answers (exec .lSha256 State.reset) (fun t => decide (t.residual.length = 8 ∧ t.result = .accepted 8)) = true := by decide +kernel

/-- V19's name: unknown, a pattern error. -/
theorem test_frame_unknown : answers (exec (.frame (dump 4 0x4e6f7065) []) State.reset) (fun t => shows t 0 0 0 0 1 true []) = true := by decide +kernel

/-- Section 3. -/
theorem test_generate : answers (exec (.generate seedAB 5) State.reset) (fun t => decide (t.result = .bytes (dump 5 0x6162616261))) = true := by decide +kernel

/-- Section 3: partial last chunk. -/
theorem test_verify_match : answers (exec (.verify ⟨0x61#8, [0x62#8, 0x63#8]⟩ (dump 5 0x6162636162)) State.reset) (fun t => decide (t.result = .verdict true)) = true := by decide +kernel

/-- Section 3: rotated start. -/
theorem test_verify_rotated : answers (exec (.verify seedAB [0x62#8]) State.reset) (fun t => decide (t.result = .verdict false)) = true := by decide +kernel

/-- R106. -/
theorem test_lookup : answers (exec (.lookup nameAB) State.reset) (fun t => decide (t.result = .seed (some seedAB))) = true := by decide +kernel

/-- Section 3: case-sensitive. -/
theorem test_lookup_case : answers (exec (.lookup (dump 5 0x616c706861)) State.reset) (fun t => decide (t.result = .seed none)) = true := by decide +kernel

/-- Section 4. -/
theorem test_encodeFrame : answers (exec (.encodeFrame nameAB (dump 3 0x616261)) State.reset) (fun t => decide (t.result = .bytes e3)) = true := by decide +kernel

/-- Section 4. -/
theorem test_dec : answers (exec (.dec 65534) State.reset) (fun t => decide (t.result = .bytes (dump 5 0x3635353334))) = true := by decide +kernel

/-- Section 4. -/
theorem test_dec_zero : answers (exec (.dec 0) State.reset) (fun t => decide (t.result = .bytes [0x30#8])) = true := by decide +kernel

/-- Section 2: one block, longest. -/
theorem test_sha256_55 : answers (exec (.sha256 (List.replicate 55 0x61#8)) State.reset)
    (fun t => decide (t.result = .bytes (dump 32 0x9f4390f8d30c2dd92ec9f095b65e2b9ae9b0a925a5258e241c9f1e910f734318))) = true := by decide +kernel

/-- Section 2: two blocks, shortest. -/
theorem test_sha256_56 : answers (exec (.sha256 (List.replicate 56 0x61#8)) State.reset)
    (fun t => decide (t.result = .bytes (dump 32 0xb35439a4ac6f0948b6d6f9e3c6af0f5f590ce20f1bde7090ef7970686ec6738a))) = true := by decide +kernel

/-- Section 2. -/
theorem test_hexLower : answers (exec (.hexLower (dump 4 0x000ff0ff)) State.reset) (fun t => decide (t.result = .bytes (dump 8 0x3030306666306666))) = true := by decide +kernel

/-- V43: the first of three newlines. -/
theorem test_findDelim : answers (exec (.findDelim (dump 15 0x0a0a5061747465726e3a20410a0a0a)) State.reset) (fun t => decide (t.result = .index (some 12))) = true := by decide +kernel

/-- V45. -/
theorem test_findField : answers (exec (.findField (dump 66 0x0a0a5061747465726e3a20410a4c656e6774683a20780a4c656e6774683a20330a5368613235363a20670a5368613235363a2061420a204c656e6774683a20390a0a) 64 (dump 8 0x4c656e6774683a20) .digit) State.reset)
    (fun t => decide (t.result = .field (some [0x33#8]))) = true := by decide +kernel

/-- V46. -/
theorem test_parse : answers (exec (.parse (dump 51 0x0a0a5061747465726e3a202d0a5061747465726e3a20425f3220780a4c656e6774683a203030370a5368613235363a20300a0a) 49) State.reset)
    (fun t => decide (t.result = .header (some ⟨dump 3 0x425f32, 7, [0x30#8]⟩))) = true := by decide +kernel

/-- V28d. -/
theorem test_parse_lenMax : answers (exec (.parse e3 96) (bounded none (some 2))) (fun t => decide (t.result = .header none)) = true := by decide +kernel

/-- V42. -/
theorem test_utf8At : answers (exec (.utf8At (dump 4 0xf09f9880) 0 4) State.reset) (fun t => decide (t.result = .codePoint (some (0x1F600, 4)))) = true := by decide +kernel

/-- V42. -/
theorem test_utf8At_surrogate : answers (exec (.utf8At (dump 3 0xeda080) 0 3) State.reset) (fun t => decide (t.result = .codePoint none)) = true := by decide +kernel

/-- V41. -/
theorem test_saturation : answers (exec (.resolve 96 nameAB 3 h3) { holding e3 with goodFrames := 18446744073709551615#64 })
    (fun t => decide (t.goodFrames = 18446744073709551615#64 ∧ t.residual = [])) = true := by decide +kernel

/-! ## Steps -/

/-- A token placed on the stream is what the next step runs. -/
theorem test_step_table_word : answers (step (State.reset.withFetchWord 88 0x203a6e7265747461500a0a))
    (fun t => decide (t.residual = dump 11 0x0a0a5061747465726e3a20 ∧ t.result = .accepted 11 ∧ t.host = [])) = true := by decide +kernel

/-- A sink that is not at rest performs its micro-step first. -/
theorem test_step_micro : answers (step { holding noise11 with host := [.op .reset] }) (fun t => decide (t.framingErr = 1#64 ∧ t.host = [.op .reset])) = true := by decide +kernel

theorem test_step_emit_refused : isRefused (step { State.reset with host := [.op (.emit .framingLoss)] }) .notAHostOperation = true := by decide +kernel

/-! ## Well-formedness refuses -/

theorem test_illFormed_frame_empty_name : Instr.wellFormed Config.default (.frame [] []) = false := by decide +kernel

theorem test_illFormed_frame_name_not_word : Instr.wellFormed Config.default (.frame (dump 3 0x412d42) []) = false := by decide +kernel

theorem test_illFormed_frame_payload (payload : List Byte) (long : ¬ Sha256.inDomain payload.length) :
    Instr.wellFormed Config.default (.frame nameAB payload) = false := by
  simp [Instr.wellFormed, long]

theorem test_illFormed_hdrReject : Instr.wellFormed Config.default (.hdrReject 10) = false := by decide +kernel

theorem test_illFormed_payloadWait : Instr.wellFormed Config.default (.payloadWait 10 0) = false := by decide +kernel

theorem test_illFormed_resolve_delim : Instr.wellFormed Config.default (.resolve 10 nameAB 0 h3) = false := by decide +kernel

theorem test_illFormed_resolve_name : Instr.wellFormed Config.default (.resolve 11 [] 0 h3) = false := by decide +kernel

theorem test_illFormed_resolve_no_hex : Instr.wellFormed Config.default (.resolve 11 nameAB 0 []) = false := by decide +kernel

theorem test_illFormed_resolve_hex : Instr.wellFormed Config.default (.resolve 11 nameAB 0 [0x67#8]) = false := by decide +kernel

theorem test_illFormed_emit_name : Instr.wellFormed Config.default (.emit (.frame [] 0 h3 h3 true .matched)) = false := by decide +kernel

theorem test_illFormed_emit_declared : Instr.wellFormed Config.default (.emit (.frame nameAB 0 [0x67#8] h3 true .matched)) = false := by decide +kernel

theorem test_illFormed_emit_no_declared : Instr.wellFormed Config.default (.emit (.frame nameAB 0 [] h3 true .matched)) = false := by decide +kernel

theorem test_illFormed_emit_computed : Instr.wellFormed Config.default (.emit (.frame nameAB 0 h3 [0x30#8] true .matched)) = false := by decide +kernel

theorem test_illFormed_lookup : Instr.wellFormed Config.default (.lookup []) = false := by decide +kernel

theorem test_illFormed_encodeFrame (payload : List Byte) (long : ¬ Sha256.inDomain payload.length) :
    Instr.wellFormed Config.default (.encodeFrame [] payload) = false := by
  simp [Instr.wellFormed, long]

theorem test_illFormed_sha256 (payload : List Byte) (long : ¬ Sha256.inDomain payload.length) :
    Instr.wellFormed Config.default (.sha256 payload) = false := by
  simp [Instr.wellFormed, long]

theorem test_illFormed_findField : Instr.wellFormed Config.default (.findField [] 1 [] .digit) = false := by decide +kernel

theorem test_illFormed_parse : Instr.wellFormed Config.default (.parse [] 1) = false := by decide +kernel

theorem test_illFormed_utf8At_index : Instr.wellFormed Config.default (.utf8At [] 0 0) = false := by decide +kernel

theorem test_illFormed_utf8At_end : Instr.wellFormed Config.default (.utf8At [0xC3#8] 0 2) = false := by decide +kernel

/-! ## Witnesses: for every statement with hypotheses, a state and operands that meet them -/

theorem witness_StepRuns_micro : (holding noise11).fault = false ∧ atRest (holding noise11) = false := by decide +kernel

theorem witness_StepRuns_idle : atRest State.reset = true ∧ State.reset.host = [] := by decide +kernel

theorem witness_StepRuns_afterFault : ({ holding noise11 with fault := true } : State).fault = true := by decide +kernel

theorem witness_StepRuns_bytes : atRest { State.reset with host := [.bytes [0x41#8]] } = true ∧ decode Config.default [0x41#8] = .found (.putbyte 0x41#8) [] := by decide +kernel

theorem witness_StepRuns_op : Instr.byHost .reset = true ∧ Instr.byHost (.emit .framingLoss) = false ∧ atRest { State.reset with host := [.op .reset] } = true := by decide +kernel

theorem witness_StreamDecode : Instr.wellFormed Config.default (.frame nameAB []) = true ∧ encode (.frame nameAB []) = some e0 := by decide +kernel

theorem witness_StreamDecode_putbyte : Instr.wellFormed Config.default (.putbyte 0x0A#8) = true ∧ encode (.putbyte 0x0A#8) = some [0x0A#8] := by decide +kernel

theorem witness_Waits_scan : (holding (dump 10 0x78787878787878787878)).fault = false ∧ (holding (dump 10 0x78787878787878787878)).residual.length < 11 := by decide +kernel

theorem witness_Waits_header : (holding (dump 11 0x0a0a5061747465726e3a20)).residual.take 11 = Wire.markerBytes ∧ Wire.findDelim (dump 11 0x0a0a5061747465726e3a20) = none := by decide +kernel

theorem witness_Waits_payload : e3.dropLast.take 11 = Wire.markerBytes ∧ Wire.findDelim e3.dropLast = some 96 ∧
    Wire.parse Config.default e3.dropLast 96 = some ⟨nameAB, 3, h3⟩ ∧ e3.dropLast.length < 96 + 2 + 3 := by decide +kernel

/-- A front that agrees with the marker in all but the last byte. -/
theorem witness_ScanDropEdge : (holding (dump 11 0x0a0a5061747465726e3a21)).fault = false ∧ 11 ≤ (holding (dump 11 0x0a0a5061747465726e3a21)).residual.length ∧
    (holding (dump 11 0x0a0a5061747465726e3a21)).residual.take 11 ≠ Wire.markerBytes ∧ (holding (dump 11 0x0a0a5061747465726e3a21)).sync = true := by decide +kernel

theorem witness_ScanDrop : (lost noise11).fault = false ∧ 11 ≤ (lost noise11).residual.length ∧ (lost noise11).residual.take 11 ≠ Wire.markerBytes ∧
    (lost noise11).sync = false := by decide +kernel

theorem witness_HdrReject : (holding emptyName).fault = false ∧ (holding emptyName).residual.take 11 = Wire.markerBytes ∧
    Wire.findDelim (holding emptyName).residual = some 11 ∧ Wire.parse (holding emptyName).cfg (holding emptyName).residual 11 = none := by decide +kernel

/-- A frame with `Length: 0`, complete to the byte. -/
theorem witness_Resolve : (holding e0).fault = false ∧ (holding e0).residual.take 11 = Wire.markerBytes ∧ Wire.findDelim (holding e0).residual = some 96 ∧
    Wire.parse (holding e0).cfg (holding e0).residual 96 = some ⟨nameAB, 0, dump 64 0x65336230633434323938666331633134396166626634633839393666623932343237616534316534363439623933346361343935393931623738353262383535⟩ ∧ 96 + 2 + 0 ≤ (holding e0).residual.length := by decide +kernel

theorem witness_OnlyResolve : (∃ t, exec (MicroStep.resolve 96 nameAB 3 h3).toInstr (lost e3) = .next t ∧ t.sync = true) ∧ (lost e3).sync = false := by
  refine ⟨?_, rfl⟩
  obtain ⟨t, h, hp⟩ := exists_of_answers (p := fun t => t.sync)
    (show answers (exec (.resolve 96 nameAB 3 h3) (lost e3)) (fun t => t.sync) = true by decide +kernel)
  exact ⟨t, h, hp⟩

/-- For the statements about every micro-step that answers a next state. -/
theorem witness_MicroSteps_framing : ∃ t, exec MicroStep.scanDropEdge.toInstr (holding noise11) = .next t ∧ t.framingErr ≠ (holding noise11).framingErr := by
  obtain ⟨t, h, hp⟩ := exists_of_answers (p := fun t => decide (t.framingErr ≠ 0#64))
    (show answers (exec .scanDropEdge (holding noise11)) _ = true by decide +kernel)
  exact ⟨t, h, of_decide_eq_true hp⟩

theorem witness_MicroSteps_protocol : ∃ t, exec (MicroStep.hdrReject 11).toInstr (holding emptyName) = .next t ∧ t.protocolErr ≠ (holding emptyName).protocolErr := by
  obtain ⟨t, h, hp⟩ := exists_of_answers (p := fun t => decide (t.protocolErr ≠ 0#64))
    (show answers (exec (.hdrReject 11) (holding emptyName)) _ = true by decide +kernel)
  exact ⟨t, h, of_decide_eq_true hp⟩

theorem witness_Unselected : State.reset.fault = false ∧ MicroStep.scanDrop ≠ selected State.reset := by decide +kernel

theorem witness_Overflow : ({ State.reset with fault := true } : State).fault = true := by decide +kernel

theorem witness_Putbyte : State.reset.fault = false ∧ atRest State.reset = true ∧ State.reset.residual.length + 1 < 2 ^ 61 := by decide +kernel

/-- The tenth byte is only stored. -/
theorem witness_PutbyteOnlyStores : (holding (dump 9 0x787878787878787878)).fault = false ∧ atRest (holding (dump 9 0x787878787878787878)) = true ∧ atRest (holding (dump 10 0x78787878787878787878)) = true := by decide +kernel

theorem witness_AcceptedBytes : ∃ t, exec (.write [0x41#8]) State.reset = .next t := by
  obtain ⟨t, h, -⟩ := exists_of_answers (p := fun _ => true)
    (show answers (exec (.write [0x41#8]) State.reset) _ = true by decide +kernel)
  exact ⟨t, h⟩

/-- Room to the last byte. -/
theorem witness_WriteAccepts : Live { bounded (some 10) none with residual := dump 8 0x7878787878787878 } ∧ RoomFor { bounded (some 10) none with residual := dump 8 0x7878787878787878 } 2 := by decide +kernel

theorem witness_ChunkBoundaries : Live State.reset ∧ ∃ t, exec (.write noise11) State.reset = .next t := by
  refine ⟨by decide +kernel, ?_⟩
  obtain ⟨t, h, -⟩ := exists_of_answers (p := fun _ => true)
    (show answers (exec (.write noise11) State.reset) _ = true by decide +kernel)
  exact ⟨t, h⟩

theorem witness_RunEnds : (holding noise11).fault = false ∧ (holding noise11).residual.length < 2 ^ 61 ∧ (holding noise11).residual.length < 12 := by decide +kernel

theorem witness_ReadStatus : atRest State.reset = true ∧ State.reset.fault = false ∧
    atRest { State.reset with fault := true } = true := by decide +kernel

theorem witness_ReadLeftOpen : atRest (holding noise11) = false ∧ ({ State.reset with fault := true } : State).fault = true ∧
    StatusSel.goodFrames ≠ .status := by decide +kernel

theorem witness_Increment : (0#64 : Counter).toNat < 2 ^ 64 - 1 ∧ (18446744073709551614#64 : Counter).toNat < 2 ^ 64 - 1 ∧
    (18446744073709551615#64 : Counter).toNat = 2 ^ 64 - 1 := by decide +kernel

theorem witness_OutsideDomain_overlap : (holding noise11).fault = false ∧ atRest (holding noise11) = false := by decide +kernel

theorem witness_OutsideDomain_digest : 2 ^ 61 ≤ (List.replicate (2 ^ 61) 0x00#8 : List Byte).length := by
  rw [List.length_replicate]

/-- A header that declares 2^61 payload bytes (R140). -/
def hugeHeader : List Byte :=
  Encoder.hdr [Wire.labelPattern ++ [0x4D#8], Wire.labelLength ++ Encoder.dec (2 ^ 61), Wire.labelSha256 ++ [0x61#8]]

theorem witness_OutsideDomain_resolve :
    selected (holding (hugeHeader ++ List.replicate (2 ^ 61) 0x00#8)) = .resolve 50 [0x4D#8] (2 ^ 61) [0x61#8] := by
  have hp : (List.replicate (2 ^ 61) 0x00#8 : List Byte).length = 2 ^ 61 := List.length_replicate
  generalize (List.replicate (2 ^ 61) 0x00#8 : List Byte) = p at hp
  have hh : hugeHeader.length = 52 := by decide +kernel
  have hm : Wire.markerAtFront (hugeHeader ++ p) = true := by
    rw [Wire.markerAtFront_append p (by omega)]; decide +kernel
  have hd : Wire.findDelim (hugeHeader ++ p) = some 50 := Wire.findDelim_append p (by decide +kernel)
  have hr : Wire.parse Config.default (hugeHeader ++ p) 50 = some ⟨[0x4D#8], 2 ^ 61, [0x61#8]⟩ := by
    rw [Wire.parse_append _ p (by omega)]; decide +kernel
  have hl : (hugeHeader ++ p).length = 52 + 2 ^ 61 := by rw [List.length_append, hh, hp]
  show select Config.default (hugeHeader ++ p) true = _
  unfold select
  rw [hl, if_neg (by simp [Wire.markerLen]), if_neg (by simp [hm])]
  simp only [hd, hr]
  rw [if_neg (by simp [Wire.delimLen])]

theorem witness_OutsideDomain_reads : (e3.length < 102) ∧ (e3.length ≤ 101 ∨ e3.length < 0) := by decide +kernel

theorem witness_Tokens : Live State.reset ∧ RoomFor State.reset 11 ∧ RoomFor (bounded (some 98) none) (Encoder.encode nameAB []).length ∧ Live (bounded (some 98) none) := by decide +kernel

theorem witness_MarkerOnEmpty : (bounded (some 11) none).fault = false ∧ (bounded (some 11) none).residual = [] ∧
    Wire.within (bounded (some 11) none).cfg.residualCap 11 = true := by decide +kernel

/-- The empty payload, at LEN_MAX = 0 and the least capacity of R59. -/
theorem witness_EncodedFrame : Pattern.lookup (bounded (some 97) (some 0)).cfg.catalog nameAB = some seedAB ∧
    wellFormedName (bounded (some 97) (some 0)).cfg nameAB = true ∧ Wire.within (some 0) 0 = true ∧
    Wire.within (some 97) (94 + nameAB.length + (Encoder.dec 0).length + 0) = true ∧
    (bounded (some 97) (some 0)).fault = false ∧ (bounded (some 97) (some 0)).residual = [] := by decide +kernel

/-- V29b's capacity, 100, for `E3`. -/
theorem witness_BackToBack : ∀ f ∈ [(nameAB, seedAB, 3), (nameAB, seedAB, 0)],
    Pattern.lookup (bounded (some 100) (some 3)).cfg.catalog f.1 = some f.2.1 ∧
    wellFormedName (bounded (some 100) (some 3)).cfg f.1 = true ∧ Wire.within (some 3) f.2.2 = true ∧ f.2.2 < 2 ^ 61 ∧
    Wire.within (some 100) (94 + f.1.length + (Encoder.dec f.2.2).length + f.2.2) = true := by decide +kernel

/-- A byte string of at most 11 bytes that is not the marker holds no marker. -/
theorem no_marker_of_short {bs : List Byte} (hl : bs.length ≤ 11) (h : bs ≠ Wire.markerBytes) : ¬HasMarker bs := by
  rintro ⟨i, hi⟩
  have hlen := congrArg List.length hi
  simp only [List.length_take, List.length_drop, Wire.markerBytes, List.length_cons, List.length_nil] at hlen
  have h0 : i = 0 := by omega
  subst h0
  rw [List.drop_zero, List.take_of_length_le hl] at hi
  exact h hi

/-- N = 11, the least for which the source's sentence holds (C2). -/
theorem witness_MarkerFree_edge : ¬HasMarker (State.reset.residual ++ noise11) ∧ State.reset.residual.length < 11 ∧ State.reset.cfg.wf = true ∧
    State.reset.fault = false ∧ 11 ≤ State.reset.residual.length + noise11.length ∧ State.reset.sync = true := ⟨no_marker_of_short (by decide +kernel) (by decide +kernel), by decide +kernel⟩

theorem witness_MarkerFree_lost : ¬HasMarker ((lost []).residual ++ noise11) ∧ (lost []).sync = false ∧ (lost []).cfg.wf = true := ⟨no_marker_of_short (by decide +kernel) (by decide +kernel), by decide +kernel⟩

/-- V5: ten bytes, at the least RESIDUAL_CAP. -/
theorem witness_MarkerFree_short : ¬HasMarker ((bounded (some 10) none).residual ++ dump 10 0x78787878787878787878) ∧ (bounded (some 10) none).cfg.wf = true ∧
    (bounded (some 10) none).residual.length + (dump 10 0x78787878787878787878).length < 11 := ⟨no_marker_of_short (by decide +kernel) (by decide +kernel), by decide +kernel⟩

theorem witness_FindField : 64 ≤ e3.length ∧ 96 ≤ e3.length := by decide +kernel

theorem witness_Runs : 22 ≤ 96 ∧ 96 ≤ e3.length ∧ Wire.runEnd Config.default .digit e3 22 96 = 23 ∧ Wire.runEnd Config.default .hex e3 32 96 = 96 ∧
    Wire.runEnd Config.default .word e3 11 96 = 13 := by decide +kernel

/-- V44. -/
theorem witness_Parse : 96 ≤ e3.length ∧ Wire.parse Config.default e3 96 = some ⟨nameAB, 3, h3⟩ := by decide +kernel

/-- V42. -/
theorem witness_Utf8At : 0 < (dump 2 0xc3a9).length ∧ 2 ≤ (dump 2 0xc3a9).length ∧ Wire.utf8At (dump 2 0xc3a9) 0 2 = some (0xE9, 2) := by decide +kernel

theorem witness_Lookup : State.reset.cfg.wf = true := by decide +kernel

theorem witness_Encode : nameAB.length < 2 ^ 61 ∧ ([] : List Byte).length < 2 ^ 61 := by decide +kernel

theorem witness_Dec : 7 < 10 ∧ 10 ≤ 43 ∧ 0 < 43 := by decide +kernel

theorem witness_KnownDigests : ∃ e ∈ testCatalog, e.name.toList = [0x41#8, 0x6c#8, 0x70#8, 0x68#8, 0x61#8] := by decide +kernel

/-- Upper-case and lower-case digits of one byte. -/
theorem witness_Checksum_case : ([0x41#8] : List Byte).length = ([0x61#8] : List Byte).length ∧ (0x41#8).toNat + 0x20 = (0x61#8).toNat := by decide +kernel

/-- At rest, after an overflow, and where a micro-step is about to run. -/
theorem witness_Ports : atRest State.reset = true ∧ State.reset.fault = false ∧ atRest { State.reset with fault := true } = true ∧
    ∃ t, exec (selected (holding noise11)).toInstr (holding noise11) = .next t := by
  refine ⟨by decide +kernel, by decide +kernel, by decide +kernel, ?_⟩
  obtain ⟨t, h, -⟩ := exists_of_answers (p := fun _ => true)
    (show answers (exec (selected (holding noise11)).toInstr (holding noise11)) _ = true by decide +kernel)
  exact ⟨t, h⟩

theorem witness_Schedule : (List.replicate 16 0#32 : List Word).length = 16 := by decide +kernel

theorem witness_HexLower : ([0xd7#8, 0xa8#8] : List Byte)[1]? = some 0xa8#8 := by decide +kernel

/-- Section 2: Lower("E124AdCc") = "e124adcc". -/
theorem witness_Checksum : ([0x65#8] : List Byte).length ≠ 64 ∧ Wire.lower (dump 8 0x4531323441644363) = dump 8 0x6531323461646363 := by decide +kernel

theorem witness_PureOperations : exec (.generate seedAB 1) State.reset = .next { State.reset with result := .bytes [0x61#8] } := rfl

/-- For the statements about every step from a state of an invariant. -/
theorem witness_StepsKeep : atRest State.reset = true ∧ step { State.reset with host := [.op .reset] } = .next State.reset := ⟨by decide +kernel, rfl⟩

theorem witness_Counters : ∃ t, exec (.putbyte 0x79#8) State.reset = .next t := by
  obtain ⟨t, h, -⟩ := exists_of_answers (p := fun _ => true)
    (show answers (exec (.putbyte 0x79#8) State.reset) _ = true by decide +kernel)
  exact ⟨t, h⟩

theorem witness_FaultIsSticky : ∃ t, exec (.readStatus .status) { State.reset with fault := true } = .next t ∧ Instr.readStatus .status ≠ .reset := ⟨_, rfl, by decide⟩

theorem witness_Invariants : NoFaultWhenUnbounded State.reset ∧ LogExplainsCounters State.reset ∧ LogEmptyWithoutDiag State.reset := by decide +kernel

end Sys2Proof.Tests
end

/-! SUPPORT. What an operation and a step can do, said once, and what follows from it for every property of states: to hold
behind an operation it is enough that each part the operation is made of keeps it. -/

namespace Sys2Proof.Machine

/-! ## Inversion: what a step and an operation can do -/

/-- What an operation does where it answers a next state: RESET, EMIT, a micro-step, the bytes of a chunk with whatever is
returned for them, or the return of a value that leaves the sink as it is. -/
inductive Performs (s : State) : Instr → State → Prop where
  | reset : Performs s .reset (resetState s)
  | emit (ev : Event) : Performs s (.emit ev) (emitEvent ev s)
  | micro (m : MicroStep) (hashed : microHashed m < 2 ^ 61) : Performs s m.toInstr (microEffect m s)
  | bytes (i : Instr) (bs : List Byte) (u : State) (v : Result) (run : putBytes bs s = .next u) :
      Performs s i (returnValue u v)
  | value (i : Instr) (v : Result) (n : Nat) : Performs s i { s with result := v, openReads := n }

/-- A micro-step that answers a next state performs its effect. -/
theorem performs_of_micro {m : MicroStep} {s t : State} (h : exec m.toInstr s = .next t) : Performs s m.toInstr t := by
  rw [exec_toInstr, runMicroStep_eq_next] at h
  obtain ⟨-, -, hashed, rfl⟩ := h
  exact .micro m hashed

/-- A chunk that is accepted performs its bytes. -/
theorem performs_of_acceptBytes {bs : List Byte} {s t : State} (i : Instr) (h : acceptBytes bs s = .next t) :
    Performs s i t := by
  obtain ⟨u, run, rfl⟩ := acceptBytes_eq_next.mp h
  exact .bytes i bs u _ run

/-- One accepted byte is a chunk of one. -/
theorem putBytes_singleton {b : Byte} {s t : State} (h : putByte b s = .next t) : putBytes [b] s = .next t :=
  putBytes_cons_eq_next.mpr ⟨t, h, rfl⟩

/-- Whatever answers a next state performs one of the five. -/
theorem performs_of_exec {i : Instr} {s t : State} (h : exec i s = .next t) : Performs s i t := by
  cases i with
  | marker | delim | lPattern | lLength | lSha256 | write => exact performs_of_acceptBytes _ h
  | frame => exact performs_of_acceptBytes _ (whenDigestDefined_eq_next.mp h).2
  | putbyte b => exact .bytes _ [b] t t.result (putBytes_singleton h)
  | scanWait => exact performs_of_micro (m := .scanWait) h
  | scanDropEdge => exact performs_of_micro (m := .scanDropEdge) h
  | scanDrop => exact performs_of_micro (m := .scanDrop) h
  | hdrWait => exact performs_of_micro (m := .hdrWait) h
  | hdrReject d => exact performs_of_micro (m := .hdrReject d) h
  | payloadWait d len => exact performs_of_micro (m := .payloadWait d len) h
  | resolve d name len hex => exact performs_of_micro (m := .resolve d name len hex) h
  | reset => cases h; exact .reset
  | emit ev => cases h; exact .emit ev
  | readStatus sel =>
    simp only [exec, execReadStatus] at h
    split at h <;> cases h <;> exact .value _ _ _
  | encodeFrame | sha256 =>
    cases (whenDigestDefined_eq_next.mp h).2
    exact .value _ _ _
  | generate | verify | lookup | dec | hexLower | findDelim | findField | parse | utf8At =>
    cases h
    exact .value _ _ _

/-- What is read from the stream is an operation the host performs. -/
theorem byHost_of_decode {c : Config} {bs behind : List Byte} {i : Instr} (h : decode c bs = .found i behind) :
    i.byHost = true := by
  have token {i' : Instr} {behind' : List Byte} (ht : decodeToken bs = some (i', behind')) : i'.byHost = true := by
    unfold decodeToken at ht
    split_ifs at ht <;> cases ht <;> rfl
  unfold decode at h
  split at h
  · cases h
  · split at h
    · cases h; rfl
    · split at h
      · next ht => cases h; exact token ht
      · cases h; rfl

/-- No micro-step is performed by the host (R12). -/
theorem byHost_toInstr (m : MicroStep) : m.toInstr.byHost = false := by
  cases m <;> rfl

/-- What is fetched: the selected micro-step, or an operation of the host, whose list alone changes. -/
theorem fetch_eq_run {s u : State} {i : Instr} (h : fetch s = .run i u) :
    (i = (selected s).toInstr ∧ u = s) ∨ (i.byHost = true ∧ ∃ l, u = { s with host := l }) := by
  unfold fetch at h
  split at h
  · cases h; exact .inl ⟨rfl, rfl⟩
  unfold fetchHost at h
  split at h
  · cases h; exact .inl ⟨rfl, rfl⟩
  · split at h
    · next hi => cases h; exact .inr ⟨hi, _, rfl⟩
    · cases h
  · split at h
    · cases h; exact .inr ⟨rfl, _, rfl⟩
    · next hd => cases h; exact .inr ⟨byHost_of_decode hd, _, rfl⟩

/-- A step that answers a next state is a `Micro`, or an operation of the host. -/
theorem step_eq_next {s t : State} (h : step s = .next t) :
    micro s = .next t ∨ ∃ i l, i.byHost = true ∧ exec i { s with host := l } = .next t := by
  unfold step at h
  split at h
  · next i u hf =>
    obtain ⟨rfl, rfl⟩ | ⟨hi, l, rfl⟩ := fetch_eq_run hf
    · rw [exec_toInstr] at h
      exact .inl h
    · exact .inr ⟨i, l, hi, h⟩
  · cases h

/-- At rest the loop changes nothing. -/
theorem eq_of_decodeLoop_of_atRest {s t : State} (hr : atRest s = true) (h : decodeLoop s = .next t) : t = s := by
  have hr' : (selected s).isRest = true := hr
  rw [decodeLoop, runLoop_succ, if_pos hr', micro_eq_next, microEffect_of_isRest s hr'] at h
  exact h.2.2

/-- Not at rest the loop answers what it answers behind the selected micro-step. -/
theorem decodeLoop_microEffect_of_not_atRest {s t : State} (hr : atRest s = false) (h : decodeLoop s = .next t) :
    microHashed (selected s) < 2 ^ 61 ∧ decodeLoop (microEffect (selected s) s) = .next t := by
  rw [decodeLoop_of_not_atRest hr, andThen_eq_next] at h
  obtain ⟨u, hm, hl⟩ := h
  obtain ⟨-, hashed, rfl⟩ := micro_eq_next.mp hm
  exact ⟨hashed, hl⟩

/-! ## Properties every part keeps -/

/-- Every micro-step keeps the property. -/
def KeptByMicro (P : State → Prop) : Prop := ∀ m s, microHashed m < 2 ^ 61 → P s → P (microEffect m s)

/-- Every part of an accepted byte keeps the property (R153). -/
structure KeptByBytes (P : State → Prop) : Prop where
  micro : KeptByMicro P
  append : ∀ s b, P s → P (append s b)
  capacity : ∀ s, P s → P { s with fault := s.fault || overflow s }

/-- Every part of an operation other than RESET and EMIT keeps the property. -/
structure KeptByParts (P : State → Prop) : Prop extends KeptByBytes P where
  value : ∀ s v n, P s → P { s with result := v, openReads := n }

variable {P : State → Prop} {s t : State}

/-- The loop ends at rest (R154), and keeps what every micro-step keeps. -/
theorem KeptByMicro.decodeLoop (kept : KeptByMicro P) (hs : P s) (h : decodeLoop s = .next t) :
    atRest t = true ∧ P t := by
  revert hs h
  refine loop_induction (P := fun s => P s → Machine.decodeLoop s = .next t → atRest t = true ∧ P t) ?_ ?_ s
  · intro s hr hs h
    cases eq_of_decodeLoop_of_atRest hr h
    exact ⟨hr, hs⟩
  · intro s hr ih hs h
    obtain ⟨hashed, hl⟩ := decodeLoop_microEffect_of_not_atRest hr h
    exact ih (kept _ s hashed hs) hl

/-- An accepted byte keeps what its parts keep. -/
theorem KeptByBytes.putByte {b : Byte} (kept : KeptByBytes P) (hs : P s) (h : putByte b s = .next t) : P t := by
  obtain ⟨-, -, u, hl, rfl⟩ := putByte_eq_next.mp h
  rw [testCapacity_eq]
  exact kept.capacity u (kept.micro.decodeLoop (kept.append s b hs) hl).2

/-- A chunk keeps what the parts of a byte keep. -/
theorem KeptByBytes.putBytes {bs : List Byte} (kept : KeptByBytes P) (hs : P s) (h : putBytes bs s = .next t) : P t := by
  induction bs generalizing s with
  | nil => cases h; exact hs
  | cons b bs ih =>
    obtain ⟨u, hb, hbs⟩ := putBytes_cons_eq_next.mp h
    exact ih (kept.putByte hs hb) hbs

/-- An operation keeps what its parts keep, if RESET and EMIT do. -/
theorem KeptByParts.exec {i : Instr} (kept : KeptByParts P) (reset : i = .reset → P (resetState s))
    (emit : ∀ ev, i = .emit ev → P (emitEvent ev s)) (hs : P s) (h : exec i s = .next t) : P t := by
  cases performs_of_exec h with
  | reset => exact reset rfl
  | emit ev => exact emit ev rfl
  | micro m hashed => exact kept.micro m s hashed hs
  | bytes _ bs u v run => exact kept.value u v u.openReads (kept.putBytes hs run)
  | value _ v n => exact kept.value s v n hs

/-- A step keeps what the parts of operations keep, if RESET does and the host's list does not matter. EMIT is no step's
(R159). -/
theorem KeptByParts.step (kept : KeptByParts P) (reset : ∀ s, P s → P (resetState s))
    (host : ∀ s l, P s → P { s with host := l }) (hs : P s) (h : step s = .next t) : P t := by
  obtain hm | ⟨i, l, hi, he⟩ := step_eq_next h
  · obtain ⟨-, hashed, rfl⟩ := micro_eq_next.mp hm
    exact kept.micro _ s hashed hs
  · refine kept.exec (fun _ => reset _ (host s l hs)) ?_ (host s l hs) he
    rintro ev rfl
    cases hi

end Sys2Proof.Machine

/-! SUPPORT. The counters a micro-step moves, each with the event of its class (R159, R206, R226), and the bytes it removes. -/

namespace Sys2Proof.Machine

/-- A counter behind a micro-step that emits `ev`, or nothing: one increment for an event of its class. -/
def countEvent (isClass : Event → Bool) (ev : Option Event) (c : Counter) : Counter :=
  if ev.any isClass then inc c else c

/-- Each counter of `t` is that of `s`, with one increment where `ev` is an event of its class. -/
structure CountersFollow (ev : Option Event) (s t : State) : Prop where
  framingErr : t.framingErr = countEvent Event.isFramingLoss ev s.framingErr
  protocolErr : t.protocolErr = countEvent Event.isProtocolError ev s.protocolErr
  goodFrames : t.goodFrames = countEvent Event.isGood ev s.goodFrames
  checksumErr : t.checksumErr = countEvent Event.isBadChecksum ev s.checksumErr
  patternErr : t.patternErr = countEvent Event.isBadPattern ev s.patternErr

/-- Such a counter is unchanged or its increment (R24). -/
theorem countEvent_eq_or (isClass : Event → Bool) (ev : Option Event) (c : Counter) :
    countEvent isClass ev c = c ∨ countEvent isClass ev c = inc c := by
  unfold countEvent
  split
  · exact .inr rfl
  · exact .inl rfl

/-- Such a counter never falls. -/
theorem le_countEvent (isClass : Event → Bool) (ev : Option Event) (c : Counter) : c ≤ countEvent isClass ev c := by
  obtain h | h := countEvent_eq_or isClass ev c
  · exact h.symm ▸ BitVec.le_refl c
  · exact h.symm ▸ le_inc c

/-- Counting one more event is counting the longer log. -/
theorem countEvent_saturated (isClass : Event → Bool) (ev : Option Event) (log : List Event) :
    countEvent isClass ev (saturated (log.countP isClass)) = saturated ((log ++ ev.toList).countP isClass) := by
  cases ev with
  | none => simp [countEvent]
  | some e => cases h : isClass e <;> simp [countEvent, h, inc_saturated]

/-- The three counters of a resolved frame (R206). -/
theorem classify_counters (good : Bool) (p : PatternResult) (s : State) :
    (classify good p s).goodFrames = (if good && decide (p = .matched) then inc s.goodFrames else s.goodFrames) ∧
    (classify good p s).checksumErr = (if !good then inc s.checksumErr else s.checksumErr) ∧
    (classify good p s).patternErr = (if !decide (p = .matched) then inc s.patternErr else s.patternErr) := by
  cases good <;> cases p <;> simp [classify]

/-- A micro-step moves exactly the counters its event accounts for. -/
theorem countersFollow_microEffect (m : MicroStep) (s : State) (hashed : microHashed m < 2 ^ 61) :
    CountersFollow (microEvent s m) s (microEffect m s) := by
  cases m with
  | scanWait | scanDropEdge | scanDrop | hdrWait | hdrReject | payloadWait => constructor <;> rfl
  | resolve d name len hex =>
    have hd : Sha256.inDomain len = true := decide_eq_true hashed
    constructor <;>
      simp [microEffect, microEvent, resolveFrame, countEvent, hd, frameEvent, classify_counters, classify_frame,
        Event.isFramingLoss, Event.isProtocolError, Event.isGood, Event.isBadChecksum, Event.isBadPattern, memRead]

/-- What MemRead reads, front first (R51). -/
theorem memRead_eq_take_drop (s : State) (i n : Nat) : memRead s i n = (s.residual.drop i).take n := by
  simp [memRead, Wire.slice, List.drop_take]

/-- Behind a micro-step every byte stands at its new index (R55). -/
theorem memRead_microEffect (m : MicroStep) (s : State) (i n : Nat) :
    memRead (microEffect m s) i n = memRead s (bytesDropped m + i) n := by
  rw [memRead_eq_take_drop, memRead_eq_take_drop, microEffect_residual, List.drop_drop]

/-- A micro-step that waits removes nothing. -/
theorem bytesDropped_of_isRest {m : MicroStep} (h : m.isRest = true) : bytesDropped m = 0 := by
  cases m with
  | scanWait | hdrWait | payloadWait => rfl
  | scanDropEdge | scanDrop | hdrReject | resolve => cases h

/-- HDR_REJECT and RESOLVE remove the marker and the delimiter, so at least 13 bytes (R157). -/
theorem bytesDropped_of_endsHeader {c : Config} {r : List Byte} {sync : Bool} {m : MicroStep}
    (guard : microGuard c r sync m = true) (h : m.row = 5 ∨ m.row = 7) : 13 ≤ bytesDropped m := by
  cases m with
  | scanWait | scanDropEdge | scanDrop | hdrWait | payloadWait => simp [MicroStep.row] at h
  | hdrReject d =>
    simp only [microGuard, Bool.and_eq_true, decide_eq_true_eq] at guard
    have := Wire.findDelim_bounds guard.1.2
    simp only [bytesDropped]
    omega
  | resolve d name len hex =>
    simp only [microGuard, Bool.and_eq_true, decide_eq_true_eq] at guard
    have := Wire.findDelim_bounds guard.1.1.2
    simp only [bytesDropped]
    omega

/-- Only RESOLVE moves the counters of frames. -/
theorem microEffect_frameCounters {m : MicroStep} (s : State) (h : m.row ≠ 7) :
    (microEffect m s).goodFrames = s.goodFrames ∧ (microEffect m s).checksumErr = s.checksumErr ∧
      (microEffect m s).patternErr = s.patternErr := by
  cases m with
  | resolve => exact absurd rfl h
  | scanWait | scanDropEdge | scanDrop | hdrWait | hdrReject | payloadWait => exact ⟨rfl, rfl, rfl⟩

/-- Only SCAN_DROP_EDGE moves `framingErr` (R221). -/
theorem microEffect_framingErr {m : MicroStep} (s : State) (h : m.row ≠ 2) :
    (microEffect m s).framingErr = s.framingErr := by
  cases m with
  | scanDropEdge => exact absurd rfl h
  | resolve => simp [microEffect, resolveFrame, classify_frame]
  | scanWait | scanDrop | hdrWait | hdrReject | payloadWait => rfl

/-- Only HDR_REJECT moves `protocolErr` (R222). -/
theorem microEffect_protocolErr {m : MicroStep} (s : State) (h : m.row ≠ 5) :
    (microEffect m s).protocolErr = s.protocolErr := by
  cases m with
  | hdrReject => exact absurd rfl h
  | resolve => simp [microEffect, resolveFrame, classify_frame]
  | scanWait | scanDropEdge | scanDrop | hdrWait | payloadWait => rfl

/-- The waits and SCAN_DROP leave `sync` and the event log. -/
theorem microEffect_sync_eventLog {m : MicroStep} (s : State) (h : m.row = 1 ∨ m.row = 3 ∨ m.row = 4 ∨ m.row = 6) :
    (microEffect m s).sync = s.sync ∧ (microEffect m s).eventLog = s.eventLog := by
  cases m with
  | scanWait | scanDrop | hdrWait | payloadWait => exact ⟨rfl, rfl⟩
  | scanDropEdge | hdrReject | resolve => simp [MicroStep.row] at h

/-- Settles O13: a micro-step is its effect, whose every field the lemmas above give. -/
theorem microStepsLeaveTheRestUnchanged : Obligations.MicroStepsLeaveTheRestUnchanged := by
  intro m s t h
  rw [exec_toInstr, runMicroStep_eq_next] at h
  obtain ⟨-, guard, -, rfl⟩ := h
  obtain ⟨hcfg, hfault, hresult, hreads, hhost⟩ := microEffect_frame m s
  have length : (microEffect m s).residual.length = s.residual.length - bytesDropped m := by
    rw [microEffect_residual, List.length_drop]
  exact ⟨hcfg, hfault, hresult, hreads, hhost, microEffect_frameCounters s, microEffect_framingErr s,
    microEffect_protocolErr s, microEffect_sync_eventLog s, bytesDropped_le_of_guard guard, length,
    fun i => memRead_microEffect m s i 1, bytesDropped_of_isRest, bytesDropped_pos, bytesDropped_of_endsHeader guard⟩

/-- Settles O28: the increment by its number, and the counters by the events that move them. -/
theorem incrementSaturates : Obligations.IncrementSaturates := by
  refine ⟨fun c => ⟨fun h => ?_, fun h => ?_⟩, fun m s t h => ?_⟩
  · rw [toNat_inc]
    omega
  · apply BitVec.eq_of_toNat_eq
    rw [toNat_inc]
    omega
  · rw [exec_toInstr, runMicroStep_eq_next] at h
    obtain ⟨-, -, hashed, rfl⟩ := h
    have follow := countersFollow_microEffect m s hashed
    rw [follow.goodFrames, follow.framingErr, follow.protocolErr, follow.checksumErr, follow.patternErr]
    exact ⟨countEvent_eq_or _ _ _, countEvent_eq_or _ _ _, countEvent_eq_or _ _ _, countEvent_eq_or _ _ _,
      countEvent_eq_or _ _ _⟩

end Sys2Proof.Machine

/-! SUPPORT. The rest invariant (R28, R29), and reset (R34). -/

namespace Sys2Proof.Machine

/-- With fewer bytes than a marker the sink rests in phase SCAN (R171). -/
theorem atRest_of_short {s : State} (h : s.residual.length < 11) : atRest s = true ∧ phase s = some .scan := by
  have h' : s.residual.length < Wire.markerLen := h
  simp [atRest, selected, select, phase, h, h', MicroStep.isRest]

/-- At rest exactly in one of the three phases (R28): the conditions are the rows of the waits. -/
theorem atRest_iff_phase (s : State) : atRest s = true ↔ phase s ≠ none := by
  by_cases short : s.residual.length < 11
  · simp [atRest_of_short short]
  have long : ¬ s.residual.length < Wire.markerLen := short
  unfold atRest selected select phase
  rw [if_neg short, if_neg long]
  cases Wire.markerAtFront s.residual with
  | false => cases s.sync <;> simp [MicroStep.isRest]
  | true =>
    cases Wire.findDelim s.residual with
    | none => simp [MicroStep.isRest]
    | some d =>
      cases hp : Wire.parse s.cfg s.residual d with
      | none => simp [hp, MicroStep.isRest]
      | some hdr => by_cases hl : s.residual.length < d + 2 + hdr.len <;> simp [hp, hl, Wire.delimLen, MicroStep.isRest]

/-- The loop ends at rest (R154). -/
theorem atRest_of_decodeLoop {s t : State} (h : decodeLoop s = .next t) : atRest t = true :=
  (KeptByMicro.decodeLoop (P := fun _ => True) (fun _ _ _ _ => trivial) trivial h).1

/-- An accepted byte ends at rest (R153). -/
theorem atRest_of_putByte {b : Byte} {s t : State} (h : putByte b s = .next t) : atRest t = true := by
  obtain ⟨-, -, u, hl, rfl⟩ := putByte_eq_next.mp h
  rw [testCapacity_eq]
  have rest : atRest u = true := atRest_of_decodeLoop hl
  exact rest

/-- A chunk accepted at rest ends at rest. -/
theorem atRest_of_putBytes {bs : List Byte} {s t : State} (hs : atRest s = true) (h : putBytes bs s = .next t) :
    atRest t = true := by
  induction bs generalizing s with
  | nil => cases h; exact hs
  | cons b bs ih =>
    obtain ⟨u, hb, hbs⟩ := putBytes_cons_eq_next.mp h
    exact ih (atRest_of_putByte hb) hbs

/-- An operation of the host performed at rest ends at rest. -/
theorem atRest_of_exec {i : Instr} {s t : State} (hi : i.byHost = true) (hs : atRest s = true) (h : exec i s = .next t) :
    atRest t = true := by
  cases performs_of_exec h with
  | reset => exact (atRest_of_short (by simp)).1
  | emit ev => cases hi
  | micro m hashed => rw [byHost_toInstr] at hi; cases hi
  | bytes _ bs u v run =>
    have rest : atRest u = true := atRest_of_putBytes hs run
    exact rest
  | value _ v n => exact hs

/-- Settles O53: at rest a `Micro` is a wait, which changes nothing, and every operation of the host ends at rest. -/
theorem stepsKeepTheSinkAtRest : Obligations.StepsKeepTheSinkAtRest := by
  refine ⟨fun s t hs h => ?_, atRest_iff_phase⟩
  obtain hm | ⟨i, l, hi, he⟩ := step_eq_next h
  · obtain ⟨-, -, rfl⟩ := micro_eq_next.mp hm
    rw [microEffect_of_isRest s hs]
    exact hs
  · exact atRest_of_exec hi (s := { s with host := l }) hs he

/-- Settles O16: the state RESET answers, field by field; it holds no byte, so it rests in phase SCAN. -/
theorem resetGivesTheResetValues : Obligations.ResetGivesTheResetValues := by
  intro s
  have short : (resetState s).residual.length < 11 := by simp
  exact ⟨resetState s, rfl, rfl, rfl, rfl, rfl, rfl, rfl, rfl, rfl, rfl, rfl, rfl, atRest_of_short short⟩

end Sys2Proof.Machine

/-! SUPPORT. The invariants of operations and steps: each is a property that every part of an operation keeps. -/

namespace Sys2Proof.Machine

/-- No part lowers a counter (R25). -/
theorem keptByParts_countersLe (s : State) : KeptByParts (CountersLe s) where
  micro m u hashed h := by
    have follow := countersFollow_microEffect m u hashed
    obtain ⟨hg, hf, hp, hc, hpat⟩ := h
    rw [CountersLe, follow.goodFrames, follow.framingErr, follow.protocolErr, follow.checksumErr, follow.patternErr]
    exact ⟨BitVec.le_trans hg (le_countEvent _ _ _), BitVec.le_trans hf (le_countEvent _ _ _),
      BitVec.le_trans hp (le_countEvent _ _ _), BitVec.le_trans hc (le_countEvent _ _ _),
      BitVec.le_trans hpat (le_countEvent _ _ _)⟩
  append _ _ h := h
  capacity _ h := h
  value _ _ _ h := h

/-- Settles O54: the counters are at least their old values at the start, and every part keeps that. -/
theorem countersNeverDecrease : Obligations.CountersNeverDecrease := by
  intro i s t hi h
  have start : CountersLe s s :=
    ⟨BitVec.le_refl _, BitVec.le_refl _, BitVec.le_refl _, BitVec.le_refl _, BitVec.le_refl _⟩
  exact (keptByParts_countersLe s).exec (fun hr => absurd hr hi) (fun _ _ => start) start h

/-- No part clears `fault` (R26). -/
theorem keptByParts_fault : KeptByParts fun s => s.fault = true where
  micro m s _ h := (microEffect_frame m s).2.1.trans h
  append _ _ h := h
  capacity _ h := by simp [h]
  value _ _ _ h := h

/-- Settles O55: no part of an operation clears the flag. -/
theorem faultIsSticky : Obligations.FaultIsSticky := fun _ _ _ hi h hs =>
  keptByParts_fault.exec (fun hr => absurd hr hi) (fun _ _ => hs) hs h

/-- No part sets `fault` where the buffer is unbounded: an overflow needs a bound (R58). -/
theorem keptByParts_noFaultWhenUnbounded : KeptByParts NoFaultWhenUnbounded where
  micro m s _ h hcap := by
    obtain ⟨hcfg, hfault, -⟩ := microEffect_frame m s
    rw [hcfg] at hcap
    exact hfault.trans (h hcap)
  append _ _ h := h
  capacity s h hcap := by
    have fits : overflow s = false := by simp [overflow, Wire.within, show s.cfg.residualCap = none from hcap]
    simp [h hcap, fits]
  value _ _ _ h := h

/-- Settles O56: RESET clears the flag, and no other part sets it. -/
theorem noFaultWithAnUnboundedBuffer : Obligations.NoFaultWithAnUnboundedBuffer := fun _ _ hs h =>
  keptByParts_noFaultWhenUnbounded.step (fun _ _ _ => rfl) (fun _ _ h => h) hs h

/-- No part writes the parameters or the host's list (R31, R261). -/
theorem keptByParts_cfg_host (s : State) : KeptByParts fun t => t.cfg = s.cfg ∧ t.host = s.host where
  micro m u _ h := by
    obtain ⟨hcfg, -, -, -, hhost⟩ := microEffect_frame m u
    rw [hcfg, hhost]
    exact h
  append _ _ h := h
  capacity _ h := h
  value _ _ _ h := h

/-- Settles O57: operations write neither, and a step changes the host's list alone before it performs one. -/
theorem parametersNeverChange : Obligations.ParametersNeverChange := by
  have ops (i : Instr) (s t : State) (h : exec i s = .next t) : t.cfg = s.cfg ∧ t.host = s.host :=
    (keptByParts_cfg_host s).exec (fun _ => ⟨rfl, rfl⟩) (fun _ _ => ⟨rfl, rfl⟩) ⟨rfl, rfl⟩ h
  refine ⟨ops, fun s t h => ?_⟩
  obtain hm | ⟨i, l, -, he⟩ := step_eq_next h
  · exact (ops _ s t ((exec_toInstr _ s).trans hm)).1
  · exact (ops i _ t he).1

/-- No part parts the counters from the log: a micro-step logs the event that moves them (R33, R206). -/
theorem keptByParts_logExplainsCounters : KeptByParts LogExplainsCounters where
  micro m s hashed h hdiag := by
    rw [(microEffect_frame m s).1] at hdiag
    obtain ⟨hf, hp, hg, hc, hpat⟩ := h hdiag
    have follow := countersFollow_microEffect m s hashed
    rw [follow.framingErr, follow.protocolErr, follow.goodFrames, follow.checksumErr, follow.patternErr,
      hf, hp, hg, hc, hpat, microEffect_eventLog m s hashed, if_pos hdiag]
    exact ⟨countEvent_saturated _ _ _, countEvent_saturated _ _ _, countEvent_saturated _ _ _,
      countEvent_saturated _ _ _, countEvent_saturated _ _ _⟩
  append _ _ h := h
  capacity _ h := h
  value _ _ _ h := h

/-- No part logs anything without DIAG (R33). -/
theorem keptByParts_logEmptyWithoutDiag : KeptByParts LogEmptyWithoutDiag where
  micro m s hashed h hdiag := by
    rw [(microEffect_frame m s).1] at hdiag
    simp [microEffect_eventLog m s hashed, hdiag, h hdiag]
  append _ _ h := h
  capacity _ h := h
  value _ _ _ h := h

/-- Zero counters are accounted for by the empty log. -/
theorem logExplainsCounters_resetState (s : State) : LogExplainsCounters (resetState s) :=
  fun _ => ⟨rfl, rfl, rfl, rfl, rfl⟩

/-- Settles O58: both properties hold behind RESET, and every other part keeps them. -/
theorem eventLogExplainsTheCounters : Obligations.EventLogExplainsTheCounters := fun _ _ h =>
  ⟨fun hs => keptByParts_logExplainsCounters.step (fun s _ => logExplainsCounters_resetState s) (fun _ _ h => h) hs h,
    fun hs => keptByParts_logEmptyWithoutDiag.step (fun _ _ _ => rfl) (fun _ _ h => h) hs h⟩

/-- Settles O59: the reset state holds no byte, no event and no fault. -/
theorem invariantsHoldAtReset : Obligations.InvariantsHoldAtReset := by
  rintro c s rfl
  obtain ⟨rest, scan⟩ := atRest_of_short (s := State.resetWith c) (by simp [State.resetWith])
  exact ⟨⟨rfl, rest⟩, scan, fun _ => rfl, logExplainsCounters_resetState (State.resetWith c), fun _ => rfl,
    Memory.wf_cells _⟩

/-! ## The bytes an accepted chunk leaves -/

/-- An accepted byte writes neither what the model adds to the sink nor the parameters. -/
theorem keptByBytes_frame (s : State) :
    KeptByBytes fun t => t.cfg = s.cfg ∧ t.host = s.host ∧ t.openReads = s.openReads ∧ t.result = s.result where
  micro m u _ h := by
    obtain ⟨hcfg, -, hresult, hreads, hhost⟩ := microEffect_frame m u
    rw [hcfg, hresult, hreads, hhost]
    exact h
  append _ _ h := h
  capacity _ h := h

/-- Micro-steps remove bytes at the front alone (R21). -/
theorem keptByMicro_suffix (r : List Byte) : KeptByMicro fun t => t.residual <:+ r := fun m u _ h =>
  (microEffect_residual m u ▸ List.drop_suffix _ _ : (microEffect m u).residual <:+ u.residual).trans h

/-- What is held behind an accepted byte is the end of what was held with that byte. -/
theorem residual_suffix_of_putByte {b : Byte} {s t : State} (h : putByte b s = .next t) :
    t.residual <:+ s.residual ++ [b] := by
  obtain ⟨-, -, u, hl, rfl⟩ := putByte_eq_next.mp h
  rw [testCapacity_eq]
  have suffix : u.residual <:+ s.residual ++ [b] := ((keptByMicro_suffix _).decodeLoop List.suffix_rfl hl).2
  exact suffix

/-- What is held behind an accepted chunk is the end of what was held with that chunk (R60). -/
theorem residual_suffix_of_putBytes {bs : List Byte} {s t : State} (h : putBytes bs s = .next t) :
    t.residual <:+ s.residual ++ bs := by
  induction bs generalizing s with
  | nil => cases h; simp
  | cons b bs ih =>
    obtain ⟨u, hb, hbs⟩ := putBytes_cons_eq_next.mp h
    obtain ⟨front, hfront⟩ := residual_suffix_of_putByte hb
    have behind : u.residual ++ bs <:+ s.residual ++ b :: bs :=
      ⟨front, by rw [← List.append_assoc, hfront, List.append_assoc, List.singleton_append]⟩
    exact (ih hbs).trans behind

/-- Settles O19: WRITE is its bytes with the returned count, and what they leave is the end of all of them. -/
theorem acceptedBytesKeepTheirOrder : Obligations.AcceptedBytesKeepTheirOrder := by
  intro s t bs h
  obtain ⟨u, hu, rfl⟩ := acceptBytes_eq_next.mp h
  obtain ⟨hcfg, hhost, hreads, hresult⟩ := (keptByBytes_frame s).putBytes ⟨rfl, rfl, rfl, rfl⟩ hu
  have suffix := residual_suffix_of_putBytes hu
  have length : u.residual.length ≤ s.residual.length + bs.length := by simpa using suffix.length_le
  refine ⟨hcfg, hhost, hreads, length, fun i => ?_, ?_⟩
  · have hdrop := List.suffix_iff_eq_drop.mp suffix
    rw [List.length_append] at hdrop
    rw [memRead_eq_take_drop, returnValue_residual, ← List.drop_drop, ← hdrop]
  · rintro b rfl
    obtain ⟨u', hb, hnil⟩ := putBytes_cons_eq_next.mp hu
    cases hnil
    exact ⟨u, hb, rfl, hresult⟩

end Sys2Proof.Machine

/-! SUPPORT. What a step runs (R60, R154): the fetch where the sink is busy, and each thing the host can offer where it is
not. -/

namespace Sys2Proof.Machine

/-- A step performs the operation fetched. -/
theorem step_of_fetch_run {s u : State} {i : Instr} (h : fetch s = .run i u) : step s = exec i u := by
  simp only [step, h]

/-- A step that fetches nothing is the refusal. -/
theorem step_of_fetch_refused {s : State} {why : Refusal} (h : fetch s = .refused why) : step s = .refused why := by
  simp only [step, h]

/-- Between a byte and the rest behind it the selected micro-step is fetched (R60). -/
theorem fetch_of_busy {s : State} (hf : s.fault = false) (hr : atRest s = false) :
    fetch s = .run (selected s).toInstr s :=
  if_pos ⟨hf, hr⟩

/-- At rest, and after an overflow, the host is heard (U1). -/
theorem fetch_of_heard {s : State} (h : s.fault = true ∨ atRest s = true) : fetch s = fetchHost s := by
  refine if_neg fun ⟨hf, hr⟩ => ?_
  obtain h | h := h
  · exact Bool.false_ne_true (hf.symm.trans h)
  · exact Bool.false_ne_true (hr.symm.trans h)

/-- With nothing offered the host's turn is the selected micro-step. -/
theorem fetchHost_nil {s : State} (h : s.host = []) : fetchHost s = .run (selected s).toInstr s := by
  simp only [fetchHost, h]

/-- Offered bytes are fetched as the operation they decode to, and what is behind it stays offered. -/
theorem fetchHost_bytes_found {s : State} {bs behind : List Byte} {rest : List HostItem} {i : Instr}
    (h : s.host = .bytes bs :: rest) (hd : decode s.cfg bs = .found i behind) :
    fetchHost s = .run i { s with host := keepStream behind rest } := by
  simp only [fetchHost, h, hd]

/-- An empty piece of stream is the WRITE of no bytes (R152). -/
theorem fetchHost_bytes_nil {s : State} {rest : List HostItem} (h : s.host = .bytes [] :: rest) :
    fetchHost s = .run (.write []) { s with host := rest } := by
  simp only [fetchHost, h, decode]

/-- An operation offered is fetched exactly if the host may perform it (R12, R159). -/
theorem fetchHost_op {s : State} {i : Instr} {rest : List HostItem} (h : s.host = .op i :: rest) :
    fetchHost s = if i.byHost then .run i { s with host := rest } else .refused .notAHostOperation := by
  simp only [fetchHost, h]

/-- A piece of stream stays offered while it holds bytes. -/
theorem keepStream_eq (behind : List Byte) (rest : List HostItem) :
    keepStream behind rest = if behind = [] then rest else .bytes behind :: rest := by
  simp only [keepStream, List.isEmpty_iff]

/-- Settles O1: what is fetched, case by case, and a step performs it. -/
theorem stepRunsTheFetchedOperation : Obligations.StepRunsTheFetchedOperation := by
  refine fun s => ⟨fun hf hr => step_of_fetch_run (fetch_of_busy hf hr), fun heard => ?_⟩
  have hfetch := fetch_of_heard heard
  refine ⟨fun h => ?_, fun bs rest i behind h hd => ?_, fun rest h => ?_, fun i rest h hi => ?_, fun i rest h hi => ?_⟩
  · exact step_of_fetch_run (hfetch.trans (fetchHost_nil h))
  · rw [← keepStream_eq]
    exact step_of_fetch_run (hfetch.trans (fetchHost_bytes_found h hd))
  · exact step_of_fetch_run (hfetch.trans (fetchHost_bytes_nil h))
  · exact step_of_fetch_run (by rw [hfetch, fetchHost_op h, if_pos hi])
  · exact step_of_fetch_refused (by rw [hfetch, fetchHost_op h, hi]; rfl)

end Sys2Proof.Machine

/-! SUPPORT. The memory under operations that only store or only return a value (R51, R56). -/

namespace Sys2Proof.Machine

/-- The byte appended reads at the old length (R51). -/
theorem memRead_append_length (s : State) (b : Byte) : memRead (append s b) s.residual.length 1 = [b] := by
  simp [memRead_eq_take_drop]

/-- Append leaves every byte that was there (R51). -/
theorem memRead_append_of_le {s : State} {i n : Nat} (b : Byte) (h : i + n ≤ s.residual.length) :
    memRead (append s b) i n = memRead s i n :=
  Wire.slice_append [b] h

/-- An accepted byte that leaves the sink at rest is stored, and the capacity tested: the loop finds nothing to do
(R153, R58). -/
theorem putByte_of_atRest_append {s : State} {b : Byte} (hf : s.fault = false) (hr : atRest s = true)
    (hr' : atRest (append s b) = true) :
    putByte b s = .next { append s b with fault := overflow (append s b) } := by
  refine putByte_eq_next.mpr ⟨hf, hr, append s b, decodeLoop_of_atRest hf hr', ?_⟩
  rw [testCapacity_eq, append_fault, hf, Bool.false_or]

/-- Settles O18: the loop does nothing, so what is left is Append and the capacity test. -/
theorem putbyteThatCompletesNothingOnlyStores : Obligations.PutbyteThatCompletesNothingOnlyStores := by
  intro s b hf hr hr'
  have capacity : overflow (append s b) = !Wire.within s.cfg.residualCap (s.residual.length + 1) := by
    simp [overflow]
  refine ⟨_, putByte_of_atRest_append hf hr hr', ?_, memRead_append_length s b, fun i hi => memRead_append_of_le b hi⟩
  rw [capacity]
  rfl

/-- The operations that only return a value: READ_STATUS and the pure functions (R56, R155). -/
def onlyReturns : Instr → Bool
  | .readStatus _ => true
  | .generate _ _ | .verify _ _ | .lookup _ | .encodeFrame _ _ | .dec _ | .sha256 _ | .hexLower _ => true
  | .findDelim _ | .findField _ _ _ _ | .parse _ _ | .utf8At _ _ _ => true
  | .marker | .delim | .lPattern | .lLength | .lSha256 | .frame _ _ => false
  | .scanWait | .scanDropEdge | .scanDrop | .hdrWait | .hdrReject _ | .payloadWait _ _ | .resolve _ _ _ _ => false
  | .reset | .write _ | .putbyte _ | .emit _ => false

/-- An operation that only returns a value writes that value, and counts the free values it drew, at most. -/
theorem exec_eq_next_of_onlyReturns {i : Instr} {s t : State} (hi : onlyReturns i = true) (h : exec i s = .next t) :
    ∃ v n, t = { s with result := v, openReads := n } := by
  cases i with
  | readStatus sel =>
    simp only [exec, execReadStatus] at h
    split at h <;> cases h <;> exact ⟨_, _, rfl⟩
  | encodeFrame | sha256 =>
    cases (whenDigestDefined_eq_next.mp h).2
    exact ⟨_, _, rfl⟩
  | generate | verify | lookup | dec | hexLower | findDelim | findField | parse | utf8At =>
    cases h
    exact ⟨_, _, rfl⟩
  | marker | delim | lPattern | lLength | lSha256 | frame => cases hi
  | scanWait | scanDropEdge | scanDrop | hdrWait | hdrReject | payloadWait | resolve => cases hi
  | reset | write | putbyte | emit => cases hi

/-- Settles O52: an operation that only returns a value writes no field of the sink, and EMIT only the event log. -/
theorem pureOperationsLeaveTheSinkUnchanged : Obligations.PureOperationsLeaveTheSinkUnchanged := by
  intro i s t hi h
  have kind : onlyReturns i = true ∨ ∃ ev, i = .emit ev := by
    obtain ⟨_, _, rfl⟩ | ⟨_, _, rfl⟩ | ⟨_, rfl⟩ | ⟨_, _, rfl⟩ | ⟨_, rfl⟩ | ⟨_, rfl⟩ | ⟨_, rfl⟩ | ⟨_, rfl⟩ |
      ⟨_, _, _, _, rfl⟩ | ⟨_, _, rfl⟩ | ⟨_, _, _, rfl⟩ | ⟨_, rfl⟩ | hemit := hi
    case inr => exact .inr hemit
    all_goals exact .inl rfl
  obtain hret | ⟨ev, rfl⟩ := kind
  · obtain ⟨v, n, rfl⟩ := exec_eq_next_of_onlyReturns hret h
    exact ⟨rfl, rfl, rfl, fun _ => rfl, rfl, fun _ => rfl⟩
  · cases h
    exact ⟨rfl, rfl, rfl, fun _ => rfl, rfl, fun noEmit => absurd rfl (noEmit ev)⟩

/-- Where the spec does not give the value of a status read: off rest (U3), and after an overflow for every item but STATUS
(R279). -/
theorem statusGiven_eq_false_iff (sel : StatusSel) (s : State) :
    statusGiven sel s = false ↔ atRest s = false ∨ (s.fault = true ∧ sel ≠ .status) := by
  rw [statusGiven, Bool.and_eq_false_iff, Bool.or_eq_false_iff, Bool.not_eq_false', decide_eq_false_iff_not]

/-- A status read whose value the spec does not give answers the next free value. -/
theorem execReadStatus_of_not_given {sel : StatusSel} {s : State} (h : statusGiven sel s = false) :
    execReadStatus sel s =
      .next { s with result := .status (Config.openStatus s.openReads), openReads := s.openReads + 1 } := by
  rw [execReadStatus, h]
  rfl

/-- Settles O25: such a read draws a free value, and writes nothing of the sink. -/
theorem readTheSpecLeavesOpenReturnsAnyValue : Obligations.ReadTheSpecLeavesOpenReturnsAnyValue := by
  intro s sel hopen
  have notGiven := (statusGiven_eq_false_iff sel s).mpr hopen
  exact ⟨_, execReadStatus_of_not_given notGiven, rfl, rfl, rfl, rfl, rfl, rfl⟩

end Sys2Proof.Machine

/-! SUPPORT. Strict UTF-8 (R77): the decoder's bit masks as arithmetic, its continuation bytes as the 6-bit groups of the code
point, and `Utf8At` as the inverse of the shortest form. -/

namespace Sys2Proof.Wire

open Machine

/-! ## Lead and continuation bytes -/

/-- A byte is a continuation byte by its two top bits. -/
theorem isContinuation_iff (b : Byte) : b &&& 0xC0#8 = 0x80#8 ↔ b.toNat / 64 = 2 := by
  revert b
  decide

/-- The low `k` bits of a byte are its remainder. -/
theorem toNat_and_lowMask (b : Byte) {k : Nat} (hk : k ≤ 8) : (b &&& BitVec.ofNat 8 (2 ^ k - 1)).toNat = b.toNat % 2 ^ k := by
  have small : 2 ^ k - 1 < 2 ^ 8 := by have := Nat.pow_le_pow_right (n := 2) (by omega) hk; omega
  rw [BitVec.toNat_and, BitVec.toNat_ofNat, Nat.mod_eq_of_lt small, Nat.and_two_pow_sub_one_eq_mod]

/-- What a lead byte says, as arithmetic: the length, the code point's first bits and the least code point (R77). -/
theorem utf8Lead_eq_some_iff {b : Byte} {n cp lo : Nat} :
    utf8Lead b = some (n, cp, lo) ↔
      (n = 2 ∧ lo = 0x80 ∧ b.toNat = 0xC0 + cp ∧ 2 ≤ cp ∧ cp < 0x20) ∨
      (n = 3 ∧ lo = 0x800 ∧ b.toNat = 0xE0 + cp ∧ cp < 0x10) ∨
      (n = 4 ∧ lo = 0x10000 ∧ b.toNat = 0xF0 + cp ∧ cp < 5) := by
  have two : (b &&& 0x1F#8).toNat = b.toNat % 32 := toNat_and_lowMask b (k := 5) (by omega)
  have three : (b &&& 0x0F#8).toNat = b.toNat % 16 := toNat_and_lowMask b (k := 4) (by omega)
  have four : (b &&& 0x07#8).toNat = b.toNat % 8 := toNat_and_lowMask b (k := 3) (by omega)
  unfold utf8Lead
  rw [two, three, four]
  split_ifs
  case neg =>
    rw [false_iff]
    omega
  all_goals
    simp only [Option.some.injEq, Prod.mk.injEq]
    omega

/-- The `k` continuation bytes of a code point: its low 6-bit groups, most significant first (R77). -/
def continuation : Nat → Nat → List Byte
  | 0, _ => []
  | k + 1, cp => BitVec.ofNat 8 (0x80 + cp / 64 ^ k % 64) :: continuation k cp

@[simp] theorem length_continuation (k cp : Nat) : (continuation k cp).length = k := by
  induction k with
  | zero => rfl
  | succ k ih => simp [continuation, ih]

/-- A byte is the continuation byte of a 6-bit group exactly by its top bits and its low bits. -/
theorem eq_continuationByte_iff (b : Byte) (v : Nat) :
    b = BitVec.ofNat 8 (0x80 + v % 64) ↔ b &&& 0xC0#8 = 0x80#8 ∧ (b &&& 0x3F#8).toNat = v % 64 := by
  have low : (b &&& 0x3F#8).toNat = b.toNat % 64 := toNat_and_lowMask b (k := 6) (by omega)
  rw [isContinuation_iff, low, ← BitVec.toNat_inj, BitVec.toNat_ofNat]
  omega

/-- A byte string stands at an index exactly if its first byte does and the others behind it. -/
theorem take_drop_eq_cons_iff {r bs : List Byte} {i k : Nat} {b : Byte} :
    (r.drop i).take (k + 1) = b :: bs ↔ r[i]? = some b ∧ (r.drop (i + 1)).take k = bs := by
  by_cases hi : i < r.length
  · rw [List.drop_eq_getElem_cons hi, List.take_succ_cons, List.cons.injEq, List.getElem?_eq_getElem hi,
      Option.some.injEq]
  · simp [List.drop_eq_nil_of_le (Nat.not_lt.mp hi), List.getElem?_eq_none (Nat.not_lt.mp hi)]

/-- The bytes read are the continuation bytes of the code point, whose remaining bits are those there were before. -/
theorem utf8Continue_eq_some_iff {r : List Byte} {k j cp₀ cp : Nat} :
    utf8Continue r k j cp₀ = some cp ↔ (r.drop j).take k = continuation k cp ∧ cp / 64 ^ k = cp₀ := by
  induction k generalizing j cp₀ with
  | zero => simp [utf8Continue, continuation, eq_comm]
  | succ k ih =>
    have group : cp / 64 ^ (k + 1) = cp / 64 ^ k / 64 := by rw [pow_succ, Nat.div_div_eq_div_mul]
    rw [continuation, take_drop_eq_cons_iff, group, utf8Continue]
    cases r[j]? with
    | none => simp
    | some b =>
      have bits : (b &&& 0x3F#8).toNat < 64 :=
        (toNat_and_lowMask b (k := 6) (by omega)).trans_lt (Nat.mod_lt _ (by omega))
      simp only [Option.some.injEq, eq_continuationByte_iff]
      split
      · next top =>
        rw [ih]
        constructor
        · rintro ⟨bytes, value⟩
          exact ⟨⟨⟨top, by omega⟩, bytes⟩, by omega⟩
        · rintro ⟨⟨⟨-, low⟩, bytes⟩, rest⟩
          exact ⟨bytes, by omega⟩
      · next top => simp [top]

/-! ## Code points -/

/-- Every scalar value beyond ASCII has its lead byte, which the decoder reads, and its continuation bytes. -/
theorem utf8Encode_eq_cons {cp : Nat} (h : ScalarBeyondAscii cp) :
    ∃ b k lo, utf8Lead b = some (k + 1, cp / 64 ^ k, lo) ∧ lo ≤ cp ∧ utf8Encode cp = b :: continuation k cp := by
  obtain ⟨ascii, top, -⟩ := h
  by_cases two : cp < 0x800
  · refine ⟨BitVec.ofNat 8 (0xC0 + cp / 64), 1, 0x80, ?_, ascii, ?_⟩
    · rw [utf8Lead_eq_some_iff, BitVec.toNat_ofNat]
      omega
    · simp [utf8Encode, continuation, two, Nat.not_lt.mpr ascii]
  by_cases three : cp < 0x10000
  · refine ⟨BitVec.ofNat 8 (0xE0 + cp / 4096), 2, 0x800, ?_, by omega, ?_⟩
    · rw [utf8Lead_eq_some_iff, BitVec.toNat_ofNat]
      omega
    · simp [utf8Encode, continuation, two, three, Nat.not_lt.mpr ascii]
  · refine ⟨BitVec.ofNat 8 (0xF0 + cp / 262144), 3, 0x10000, ?_, by omega, ?_⟩
    · rw [utf8Lead_eq_some_iff, BitVec.toNat_ofNat]
      omega
    · simp [utf8Encode, continuation, two, three, Nat.not_lt.mpr ascii]

/-- The range of a code point that has the lead byte's length. -/
theorem utf8Lead_range {b : Byte} {k cp lo : Nat} (lead : utf8Lead b = some (k + 1, cp / 64 ^ k, lo)) (least : lo ≤ cp) :
    (k = 1 ∧ 0x80 ≤ cp ∧ cp < 0x800 ∧ b.toNat = 0xC0 + cp / 64) ∨
    (k = 2 ∧ 0x800 ≤ cp ∧ cp < 0x10000 ∧ b.toNat = 0xE0 + cp / 4096) ∨
    (k = 3 ∧ 0x10000 ≤ cp ∧ b.toNat = 0xF0 + cp / 262144) := by
  obtain ⟨hk, hlo, hb, -, hc⟩ | ⟨hk, hlo, hb, hc⟩ | ⟨hk, hlo, hb, -⟩ := utf8Lead_eq_some_iff.mp lead
  all_goals cases hk; omega

/-- A lead byte with a code point of its length is the first byte of that code point's shortest form. -/
theorem utf8Encode_of_lead {b : Byte} {k cp lo : Nat} (scalar : ScalarBeyondAscii cp)
    (lead : utf8Lead b = some (k + 1, cp / 64 ^ k, lo)) (least : lo ≤ cp) : utf8Encode cp = b :: continuation k cp := by
  obtain ⟨b', k', lo', lead', least', bytes⟩ := utf8Encode_eq_cons scalar
  have range := utf8Lead_range lead least
  have range' := utf8Lead_range lead' least'
  obtain rfl : k' = k := by omega
  obtain rfl : b' = b := BitVec.eq_of_toNat_eq (by omega)
  exact bytes

/-- What `Utf8At` asks, read off its definition (R77). -/
theorem utf8At_eq_some_iff_lead {r : List Byte} {i e cp n : Nat} :
    utf8At r i e = some (cp, n) ↔
      ∃ b k lo, r[i]? = some b ∧ n = k + 1 ∧ utf8Lead b = some (k + 1, cp / 64 ^ k, lo) ∧ i + n ≤ e ∧
        (r.drop (i + 1)).take k = continuation k cp ∧ lo ≤ cp ∧ cp ≤ 0x10FFFF ∧ ¬(0xD800 ≤ cp ∧ cp ≤ 0xDFFF) := by
  constructor
  · intro h
    unfold utf8At at h
    split at h
    · cases h
    next b hb =>
    split at h
    · cases h
    next n' cp₀ lo hlead =>
    have := utf8Lead_length hlead
    split at h
    · cases h
    split at h
    · cases h
    next cp' hcont =>
    split at h
    · cases h
    cases h
    obtain ⟨bytes, rfl⟩ := utf8Continue_eq_some_iff.mp hcont
    obtain ⟨k, rfl⟩ : ∃ k, n = k + 1 := ⟨n - 1, by omega⟩
    exact ⟨b, k, lo, hb, rfl, hlead, by omega, bytes, by omega, by omega, by omega⟩
  · rintro ⟨b, k, lo, hb, rfl, hlead, hend, bytes, least, top, surrogate⟩
    have hcont := utf8Continue_eq_some_iff.mpr ⟨bytes, rfl⟩
    simp only [utf8At, hb, hlead, Nat.add_sub_cancel, hcont]
    rw [if_neg (by omega), if_neg (by omega)]

/-- `Utf8At` gives a code point exactly if its shortest form stands there (R77). -/
theorem utf8At_eq_some_iff {r : List Byte} {i e cp n : Nat} :
    utf8At r i e = some (cp, n) ↔
      ScalarBeyondAscii cp ∧ n = (utf8Encode cp).length ∧ i + n ≤ e ∧ (r.drop i).take n = utf8Encode cp := by
  rw [utf8At_eq_some_iff_lead]
  constructor
  · rintro ⟨b, k, lo, hb, rfl, lead, hend, bytes, least, top, surrogate⟩
    have scalar : ScalarBeyondAscii cp := ⟨by have := utf8Lead_range lead least; omega, top, surrogate⟩
    rw [utf8Encode_of_lead scalar lead least]
    exact ⟨scalar, by simp, hend, take_drop_eq_cons_iff.mpr ⟨hb, bytes⟩⟩
  · rintro ⟨scalar, rfl, hend, bytes⟩
    obtain ⟨b, k, lo, lead, least, form⟩ := utf8Encode_eq_cons scalar
    rw [form, List.length_cons, length_continuation] at bytes hend ⊢
    obtain ⟨first, bytes⟩ := take_drop_eq_cons_iff.mp bytes
    exact ⟨b, k, lo, first, rfl, lead, hend, bytes, least, scalar.2⟩

end Sys2Proof.Wire

namespace Sys2Proof.Machine

/-- Inside its bytes Utf8At answers what R77's function gives of them. -/
theorem exec_utf8At_of_le (s : State) {r : List Byte} {i e : Nat} (hi : i < r.length) (he : e ≤ r.length) :
    exec (.utf8At r i e) s = .next { s with result := .codePoint (Wire.utf8At r i e) } := by
  have inside : max (i + 1) e ≤ r.length := by omega
  show execUtf8At r i e s = _
  rw [execUtf8At, drawTo_of_le s inside, readTo_of_le s inside]
  rfl

/-- Settles O40: the decoder is the inverse of the shortest form. -/
theorem utf8AtIsStrictUtf8 : Obligations.Utf8AtIsStrictUtf8 := fun s _ _ _ hi he =>
  ⟨_, exec_utf8At_of_le s hi he, fun _ _ => Wire.utf8At_eq_some_iff⟩

end Sys2Proof.Machine

/-! SUPPORT. Word characters as byte strings (R78), and runs over values that a newline, or the end, follows (R185). -/

namespace Sys2Proof.Wire

open Machine

/-! ## Word characters -/

/-- The bytes of one word character (R78): an ASCII word byte, or the shortest form of a code point of `UNICODE_WORD`. -/
inductive IsWordChar (c : Config) : List Byte → Prop where
  | ascii (b : Byte) (word : isWordAscii b = true) : IsWordChar c [b]
  | unicode (cp : Nat) (scalar : ScalarBeyondAscii cp) (word : unicodeWord c cp = true) : IsWordChar c (utf8Encode cp)

/-- An ASCII word byte is an ASCII byte. -/
theorem lt_of_isWordAscii {b : Byte} (h : isWordAscii b = true) : b.toNat < 0x80 := by
  simp only [isWordAscii, isDigit, Bool.or_eq_true, decide_eq_true_eq] at h
  omega

/-- Every byte of a scalar value's form is beyond ASCII. -/
theorem le_of_mem_utf8Encode {cp : Nat} {b : Byte} (h : ScalarBeyondAscii cp) (hb : b ∈ utf8Encode cp) :
    0x80 ≤ b.toNat := by
  obtain ⟨ascii, top, -⟩ := h
  rw [utf8Encode, if_neg (by omega)] at hb
  split_ifs at hb <;> simp only [List.mem_cons, List.not_mem_nil, or_false] at hb
  · rcases hb with rfl | rfl <;> rw [BitVec.toNat_ofNat] <;> omega
  · rcases hb with rfl | rfl | rfl <;> rw [BitVec.toNat_ofNat] <;> omega
  · rcases hb with rfl | rfl | rfl | rfl <;> rw [BitVec.toNat_ofNat] <;> omega

/-- No newline is part of a word character. -/
theorem newline_notMem_of_isWordChar {c : Config} {ch : List Byte} (h : IsWordChar c ch) : newline ∉ ch := by
  cases h with
  | ascii b word =>
    intro hb
    cases List.mem_singleton.mp hb
    cases word
  | unicode cp scalar word => exact fun hb => absurd (le_of_mem_utf8Encode scalar hb) (by decide)

/-- A word character stands at an index exactly if its bytes do, wholly before `e` (R78). -/
theorem wordCharAt_eq_some_iff {c : Config} {r : List Byte} {i e n : Nat} :
    wordCharAt c r i e = some n ↔
      ∃ ch, IsWordChar c ch ∧ n = ch.length ∧ i + n ≤ e ∧ (r.drop i).take n = ch := by
  constructor
  · intro h
    unfold wordCharAt at h
    split at h
    case isFalse => cases h
    next hi =>
    split at h
    · cases h
    next b hb =>
    split at h
    · split at h
      · next word =>
        cases h
        exact ⟨[b], .ascii b word, rfl, hi, take_drop_eq_cons_iff.mpr ⟨hb, List.take_zero⟩⟩
      · cases h
    · split at h
      · cases h
      next cp m hcp =>
      split at h
      · next word =>
        cases h
        obtain ⟨scalar, length, hend, bytes⟩ := utf8At_eq_some_iff.mp hcp
        exact ⟨_, .unicode cp scalar word, length, hend, bytes⟩
      · cases h
  · rintro ⟨ch, hch, rfl, hend, bytes⟩
    cases hch with
    | ascii b word =>
      obtain ⟨hb, -⟩ := take_drop_eq_cons_iff.mp bytes
      have hi : i < e := hend
      simp [wordCharAt, hi, hb, lt_of_isWordAscii word, word]
    | unicode cp scalar word =>
      have hcp := utf8At_eq_some_iff.mpr ⟨scalar, rfl, hend, bytes⟩
      obtain ⟨b, k, lo, lead, least, form⟩ := utf8Encode_eq_cons scalar
      have beyond : 0x80 ≤ b.toNat := le_of_mem_utf8Encode scalar (form ▸ List.mem_cons_self)
      rw [form, List.length_cons] at bytes hend
      obtain ⟨hb, -⟩ := take_drop_eq_cons_iff.mp bytes
      have hi : i < e := by omega
      simp [wordCharAt, hi, hb, hcp, Nat.not_lt.mpr beyond, word]

/-- What a word run passes over is made of word characters (R185). -/
theorem exists_wordChars_of_runWordFrom {c : Config} {name : List Byte} {k i : Nat} (hi : i ≤ name.length)
    (h : runWordFrom c name name.length k i = name.length) :
    ∃ chars : List (List Byte), (∀ ch ∈ chars, IsWordChar c ch) ∧ name.drop i = chars.flatten := by
  induction k generalizing i with
  | zero =>
    cases h
    exact ⟨[], by simp, by simp⟩
  | succ k ih =>
    rw [runWordFrom] at h
    split at h
    · subst h
      exact ⟨[], by simp, by simp⟩
    · next n hn =>
      obtain ⟨ch, hch, -, hend, bytes⟩ := wordCharAt_eq_some_iff.mp hn
      obtain ⟨chars, word, rest⟩ := ih hend h
      refine ⟨ch :: chars, List.forall_mem_cons.mpr ⟨hch, word⟩, ?_⟩
      rw [List.flatten_cons, ← rest, ← bytes, ← List.drop_drop, List.take_append_drop]

/-! ## Values and the runs over them -/

/-- A value the run of its kind passes over whole: word characters, digits, hexadecimal digits (R80 to R82). -/
def IsValue (c : Config) : RunKind → List Byte → Prop
  | .word, value => ∃ chars : List (List Byte), (∀ ch ∈ chars, IsWordChar c ch) ∧ value = chars.flatten
  | .digit, value => ∀ x ∈ value, isDigit x = true
  | .hex, value => ∀ x ∈ value, isHex x = true

/-- No bytes, or a newline first: where a line's value ends. -/
def EndsLine (rest : List Byte) : Prop := ∀ x ∈ rest.head?, x = newline

/-- A well-formed name is not empty, and a value of word characters (R80). -/
theorem isValue_of_wellFormedName {c : Config} {name : List Byte} (h : wellFormedName c name = true) :
    name ≠ [] ∧ IsValue c .word name := by
  rw [wellFormedName, Bool.and_eq_true, decide_eq_true_eq] at h
  obtain ⟨nonempty, run⟩ := h
  obtain ⟨chars, word, bytes⟩ := exists_wordChars_of_runWordFrom (Nat.zero_le _) run
  exact ⟨by simpa using nonempty, chars, word, bytes⟩

/-- No value holds a newline. -/
theorem newline_notMem_of_isValue {c : Config} {run : RunKind} {value : List Byte} (h : IsValue c run value) :
    newline ∉ value := by
  intro mem
  cases run with
  | word =>
    obtain ⟨chars, word, rfl⟩ := h
    obtain ⟨ch, hch, mem⟩ := List.mem_flatten.mp mem
    exact newline_notMem_of_isWordChar (word ch hch) mem
  | digit => cases h newline mem
  | hex => cases h newline mem

/-- No word character stands where the line ends. -/
theorem wordCharAt_of_endsLine (c : Config) {r front rest : List Byte} (hr : r = front ++ rest) (ends : EndsLine rest) :
    wordCharAt c r front.length r.length = none := by
  cases rest with
  | nil => simp [wordCharAt, hr]
  | cons b rest =>
    obtain rfl : b = newline := ends b rfl
    simp [wordCharAt, hr, newline, isWordAscii, isDigit]

/-- A word run passes over the word characters up to the end of their line. -/
theorem runWordFrom_flatten {c : Config} {chars : List (List Byte)} {r front rest : List Byte} {k : Nat}
    (word : ∀ ch ∈ chars, IsWordChar c ch) (hr : r = front ++ (chars.flatten ++ rest)) (ends : EndsLine rest)
    (bound : chars.flatten.length ≤ k) :
    runWordFrom c r r.length k front.length = front.length + chars.flatten.length := by
  induction chars generalizing front k with
  | nil =>
    cases k with
    | zero => rfl
    | succ k =>
      rw [runWordFrom, wordCharAt_of_endsLine c hr ends]
      rfl
  | cons ch chars ih =>
    obtain ⟨hch, word⟩ := List.forall_mem_cons.mp word
    rw [List.flatten_cons, List.length_append] at bound ⊢
    rw [List.flatten_cons, List.append_assoc] at hr
    have length := congrArg List.length hr
    simp only [List.length_append] at length
    have here : wordCharAt c r front.length r.length = some ch.length :=
      wordCharAt_eq_some_iff.mpr ⟨ch, hch, rfl, by omega, by simp [hr]⟩
    have pos : 1 ≤ ch.length := (wordCharAt_le here).1
    obtain ⟨k, rfl⟩ : ∃ k', k = k' + 1 := ⟨k - 1, by omega⟩
    have behind := ih word (front := front ++ ch) (k := k) (by rw [hr, List.append_assoc]) (by omega)
    rw [List.length_append] at behind
    rw [runWordFrom, here]
    exact behind.trans (Nat.add_assoc _ _ _)

/-- A run of a class passes over the bytes of the class up to the end of their line. -/
theorem runClass_of_endsLine {p : Byte → Bool} {r front value rest : List Byte} (hp : p newline = false)
    (hv : ∀ x ∈ value, p x = true) (hr : r = front ++ (value ++ rest)) (ends : EndsLine rest) :
    runClass p r front.length r.length = front.length + value.length := by
  have stop : rest.takeWhile p = [] := by
    cases rest with
    | nil => rfl
    | cons b rest =>
      obtain rfl : b = newline := ends b rfl
      simp [hp]
  rw [runClass, slice, List.take_length, hr, List.drop_left, List.takeWhile_append_of_pos hv, stop, List.append_nil]

/-- The run of a kind passes over a value of that kind up to the end of its line, and no further (R185). -/
theorem runEnd_of_isValue {c : Config} {run : RunKind} {r front value rest : List Byte} (hv : IsValue c run value)
    (hr : r = front ++ (value ++ rest)) (ends : EndsLine rest) :
    runEnd c run r front.length r.length = front.length + value.length := by
  cases run with
  | word =>
    obtain ⟨chars, word, rfl⟩ := hv
    exact runWordFrom_flatten word hr ends (by simp [hr])
  | digit => exact runClass_of_endsLine rfl hv hr ends
  | hex => exact runClass_of_endsLine rfl hv hr ends

/-! ## The field of a line -/

/-- A slice by its length (R14). -/
theorem slice_add (r : List Byte) (a n : Nat) : slice r a (a + n) = (r.drop a).take n := by
  simp [slice, List.drop_take]

/-- A part of a concatenation, by its offset. -/
theorem slice_middle (front part rest : List Byte) :
    slice (front ++ (part ++ rest)) front.length (front.length + part.length) = part := by
  rw [slice_add, List.drop_left, List.take_left]

/-- At the start of a line that is a label and a value, the field is the value (R184). -/
theorem fieldAt_of_isValue {c : Config} {run : RunKind} {r front label value rest : List Byte}
    (hr : r = front ++ newline :: (label ++ (value ++ rest))) (hv : IsValue c run value) (nonempty : value ≠ [])
    (ends : EndsLine rest) : fieldAt c r r.length label run (front.length + 1) = some value := by
  have split : r = (front ++ newline :: label) ++ (value ++ rest) := by simp [hr]
  have start : lineStart r (front.length + 1) = true := by simp [lineStart, hr]
  have labelled : slice r (front.length + 1) (front.length + 1 + label.length) = label := by
    simpa [hr] using slice_middle (front ++ [newline]) label (value ++ rest)
  have valued := split ▸ slice_middle (front ++ newline :: label) value rest
  have runs := runEnd_of_isValue hv split ends
  have here : front.length + 1 + label.length = (front ++ newline :: label).length := by simp; omega
  have fits : (front ++ newline :: label).length ≤ r.length := by simp [split]
  have pos := List.length_pos_of_ne_nil nonempty
  rw [fieldAt, if_pos ⟨start, here ▸ fits, labelled⟩, here]
  dsimp only
  rw [runs, valued, if_pos (by omega)]

/-- Within a line that does not begin as the label does no field begins (R79, R184). -/
theorem fieldAt_of_line {c : Config} {run : RunKind} {r front line rest label lineTail labelTail : List Byte} {a b : Byte}
    {d p : Nat} (hr : r = front ++ (line ++ rest)) (noNewline : newline ∉ line) (hline : line = b :: lineTail)
    (hlabel : label = a :: labelTail) (other : a ≠ b) (after : front.length ≤ p) (upto : p ≤ front.length + line.length) :
    fieldAt c r d label run p = none := by
  refine if_neg ?_
  rintro ⟨start, -, labelled⟩
  obtain rfl | inside := after.eq_or_lt
  · rw [hlabel, List.length_cons, slice_add, take_drop_eq_cons_iff] at labelled
    obtain ⟨first, -⟩ := labelled
    simp only [hr, hline, List.cons_append, List.getElem?_append_right, Nat.le_refl, Nat.sub_self,
      List.getElem?_cons_zero, Option.some.injEq] at first
    exact other first.symm
  · have start : r[p - 1]? = some newline := of_decide_eq_true start
    rw [hr, List.getElem?_append_right (by omega), List.getElem?_append_left (by omega)] at start
    exact noNewline (List.mem_of_getElem? start)

/-- The field is the first one a line holds (R184). -/
theorem findField_of_first {c : Config} {r label v : List Byte} {d p : Nat} {run : RunKind} (hp : 2 ≤ p) (hd : p < d)
    (hit : fieldAt c r d label run p = some v) (miss : ∀ q, 2 ≤ q → q < p → fieldAt c r d label run q = none) :
    findField c r d label run = some v := by
  obtain ⟨m, rfl⟩ := Nat.exists_eq_add_of_le hp
  obtain ⟨n, rfl⟩ := Nat.exists_eq_add_of_lt hd
  have count : 2 + m + n + 1 - 2 = m + (n + 1) := by omega
  refine List.findSome?_eq_some_iff.mpr ⟨List.range' 2 m, 2 + m, List.range' (2 + m + 1) n, ?_, hit, fun q hq => ?_⟩
  · rw [count, ← List.range'_append_1, List.range'_succ]
  · rw [List.mem_range'_1] at hq
    exact miss q hq.1 hq.2

end Sys2Proof.Wire

/-! SUPPORT. The canonical frame (R74, R121): what DEC and HEXLOWER write, the header's three lines, where its delimiter stands
and what the parser reads from it. -/

namespace Sys2Proof

/-! ## Decimal and hexadecimal digits -/

/-- DEC writes digits only (R122). -/
theorem Encoder.isDigit_of_mem_decimalDigits {n v : Nat} {x : Byte} (h : x ∈ decimalDigits n v) :
    Wire.isDigit x = true := by
  induction n generalizing v with
  | zero => cases h
  | succ n ih =>
    rw [decimalDigits, List.mem_append, List.mem_singleton] at h
    obtain h | rfl := h
    · split at h
      · cases h
      · exact ih h
    · simp only [Wire.isDigit, BitVec.toNat_ofNat, decide_eq_true_eq]
      omega

/-- One digit more is ten times the value and that digit (R188). -/
theorem Wire.digitsValue_concat (digits : List Byte) (x : Byte) :
    digitsValue (digits ++ [x]) = digitsValue digits * 10 + (x.toNat - 0x30) := List.foldl_concat ..

/-- Reading back what DEC writes gives the number (R122, R188). -/
theorem Wire.digitsValue_decimalDigits {n v : Nat} (h : v < n) : digitsValue (Encoder.decimalDigits n v) = v := by
  induction n generalizing v with
  | zero => cases h
  | succ n ih =>
    have last : (BitVec.ofNat 8 (0x30 + v % 10)).toNat - 0x30 = v % 10 := by
      rw [BitVec.toNat_ofNat]
      omega
    rw [Encoder.decimalDigits, digitsValue_concat, last]
    split
    · simp only [digitsValue, List.foldl_nil]
      omega
    · rw [ih (by omega)]
      omega

/-- Reading back what DEC writes gives the number (R122, R188). -/
theorem Wire.digitsValue_dec (v : Nat) : digitsValue (Encoder.dec v) = v := digitsValue_decimalDigits (Nat.lt_succ_self v)

/-- DEC writes at least one digit (R122). -/
theorem Encoder.dec_ne_nil (v : Nat) : dec v ≠ [] := by simp [dec, decimalDigits]

/-- A nibble's character is a hexadecimal digit (R139). -/
theorem Sha256.isHex_hexDigit {v : Nat} (h : v < 16) : Wire.isHex (hexDigit v) = true := by
  interval_cases v <;> rfl

/-- HEXLOWER writes hexadecimal digits only (R139). -/
theorem Sha256.isHex_of_mem_hexLower {b : List Byte} {x : Byte} (h : x ∈ hexLower b) : Wire.isHex x = true := by
  obtain ⟨y, -, hy⟩ := List.mem_flatMap.mp h
  have := y.isLt
  rw [List.mem_pair] at hy
  obtain rfl | rfl := hy <;> exact isHex_hexDigit (by omega)

/-- HEXLOWER writes two characters per byte (R139). -/
@[simp] theorem Sha256.length_hexLower (b : List Byte) : (hexLower b).length = 2 * b.length := by
  simp [hexLower, List.length_flatMap, Nat.mul_comm]

@[simp] theorem Sha256.length_bigEndian (n v : Nat) : (bigEndian n v).length = n := by
  induction n with
  | zero => rfl
  | succ n ih => simp [bigEndian, ih]

/-- A digest has 32 bytes (R138). -/
@[simp] theorem Sha256.length_sha256 (msg : List Byte) : (sha256 msg).length = 32 := by
  simp [sha256, digestBytes, wordBytes]

/-! ## The header -/

namespace Wire

/-- The bytes of a canonical frame up to its delimiter (R74): the marker's newlines and the three lines. -/
def headerBytes (name digits hex : List Byte) : List Byte :=
  delimBytes ++ (labelPattern ++ name ++ newline :: (labelLength ++ digits ++ newline :: (labelSha256 ++ hex)))

@[simp] theorem length_headerBytes (name digits hex : List Byte) :
    (headerBytes name digits hex).length = 29 + name.length + digits.length + hex.length := by
  simp [headerBytes, delimBytes, labelPattern, labelLength, labelSha256]
  omega

/-- ENCODE writes a header, the delimiter and the payload (R74, R121). -/
theorem encode_eq_headerBytes (name payload : List Byte) :
    Encoder.encode name payload =
      headerBytes name (Encoder.dec payload.length) (Sha256.hexLower (Sha256.sha256 payload)) ++ (delimBytes ++ payload) := by
  simp [Encoder.encode, headerBytes, markerBytes, delimBytes, labelPattern, newline]

/-- A line of a label and a value holds no newline. -/
theorem newline_notMem_line {c : Config} {run : RunKind} {label value : List Byte} (hlabel : newline ∉ label)
    (hvalue : IsValue c run value) : newline ∉ label ++ value := by
  rw [List.mem_append, not_or]
  exact ⟨hlabel, newline_notMem_of_isValue hvalue⟩

/-- A newline ends a line. -/
theorem endsLine_newline (rest : List Byte) : EndsLine (newline :: rest) := fun _ h => (Option.some.inj h).symm

/-- So do no more bytes. -/
theorem endsLine_nil : EndsLine [] := fun _ h => by cases h

section Header

variable {c : Config} {name digits hex : List Byte} (hname : IsValue c .word name) (hdigits : IsValue c .digit digits)
  (hhex : IsValue c .hex hex)

include hname

/-- The first line gives the name (R80). -/
theorem findField_pattern (nonempty : name ≠ []) :
    findField c (headerBytes name digits hex) (headerBytes name digits hex).length labelPattern .word = some name :=
  findField_of_first le_rfl (by simp; omega)
    (fieldAt_of_isValue (front := [newline]) rfl hname nonempty (endsLine_newline _)) (fun q h h' => by omega)

/-- No field with another label's first byte begins in the line of the name. -/
theorem fieldAt_nameLine {run : RunKind} {label tail : List Byte} {a : Byte} {q : Nat} (hlabel : label = a :: tail)
    (other : a ≠ 0x50#8) (after : 2 ≤ q) (upto : q ≤ 11 + name.length) :
    fieldAt c (headerBytes name digits hex) (headerBytes name digits hex).length label run q = none :=
  fieldAt_of_line (front := delimBytes) rfl (newline_notMem_line (by decide) hname) rfl hlabel other after
    (by simp [delimBytes, labelPattern]; omega)

include hdigits

/-- The second line gives the digits of the length (R81). -/
theorem findField_length (nonempty : digits ≠ []) :
    findField c (headerBytes name digits hex) (headerBytes name digits hex).length labelLength .digit = some digits := by
  have split : headerBytes name digits hex = (delimBytes ++ (labelPattern ++ name)) ++
      newline :: (labelLength ++ (digits ++ newline :: (labelSha256 ++ hex))) := by simp [headerBytes]
  have position : (delimBytes ++ (labelPattern ++ name)).length = 11 + name.length := by
    simp [delimBytes, labelPattern]; omega
  have hit := fieldAt_of_isValue split hdigits nonempty (endsLine_newline _)
  rw [position] at hit
  exact findField_of_first (by omega) (by simp; omega) hit fun q h h' =>
    fieldAt_nameLine hname rfl (by decide) h (by omega)

include hhex

/-- The third line gives the digest (R82). -/
theorem findField_sha256 (nonempty : hex ≠ []) :
    findField c (headerBytes name digits hex) (headerBytes name digits hex).length labelSha256 .hex = some hex := by
  have lengthLine : headerBytes name digits hex = (delimBytes ++ (labelPattern ++ name ++ [newline])) ++
      ((labelLength ++ digits) ++ newline :: (labelSha256 ++ hex)) := by simp [headerBytes]
  have split : headerBytes name digits hex = (delimBytes ++ (labelPattern ++ name ++ newline :: (labelLength ++ digits))) ++
      newline :: (labelSha256 ++ (hex ++ [])) := by simp [headerBytes]
  have position : (delimBytes ++ (labelPattern ++ name ++ newline :: (labelLength ++ digits))).length =
      20 + name.length + digits.length := by
    simp [delimBytes, labelPattern, labelLength]; omega
  have hit := fieldAt_of_isValue split hhex nonempty endsLine_nil
  rw [position] at hit
  refine findField_of_first (by omega) ?_ hit fun q h h' => ?_
  · have := List.length_pos_of_ne_nil nonempty
    simp
    omega
  · by_cases first : q ≤ 11 + name.length
    · exact fieldAt_nameLine hname rfl (by decide) h first
    · refine fieldAt_of_line lengthLine (newline_notMem_line (by decide) hdigits) rfl rfl (by decide) ?_ ?_ <;>
        simp [delimBytes, labelPattern, labelLength] <;> omega

/-- The parser reads the three values from a header of three lines (R191). -/
theorem parseWith_headerBytes {lenMax : Option Nat} (hn : name ≠ []) (hd : digits ≠ []) (hh : hex ≠ [])
    (fits : within lenMax (digitsValue digits) = true) :
    parseWith c lenMax (headerBytes name digits hex) (headerBytes name digits hex).length =
      some { name := name, len := digitsValue digits, hex := hex } := by
  rw [parseWith, findField_pattern hname hn, findField_length hname hdigits hd, findField_sha256 hname hdigits hhex hh]
  exact if_pos fits

end Header

/-! ## The delimiter -/

/-- The search goes on behind a byte that is no newline (R181). -/
theorem findDelimFrom_of_ne {a : Byte} (j : Nat) (bs : List Byte) (h : a ≠ newline) :
    findDelimFrom j (a :: bs) = findDelimFrom (j + 1) bs := by
  cases bs with
  | nil => rfl
  | cons b bs => exact if_neg fun both => h both.1

/-- The search passes over a line (R181). -/
theorem findDelimFrom_line {line : List Byte} (j : Nat) (rest : List Byte) (h : newline ∉ line) :
    findDelimFrom j (line ++ rest) = findDelimFrom (j + line.length) rest := by
  induction line generalizing j with
  | nil => rfl
  | cons a line ih =>
    obtain ⟨ha, hline⟩ := not_or.mp (mt List.mem_cons.mpr h)
    rw [List.cons_append, findDelimFrom_of_ne j _ (Ne.symm ha), ih (j + 1) hline, List.length_cons]
    congr 1
    omega

/-- A newline in front of a line that is not empty is no delimiter (R181). -/
theorem findDelimFrom_newline_line {line : List Byte} (j : Nat) (rest : List Byte) (h : newline ∉ line)
    (nonempty : line ≠ []) : findDelimFrom j (newline :: (line ++ rest)) = findDelimFrom (j + 1 + line.length) rest := by
  cases line with
  | nil => exact absurd rfl nonempty
  | cons b line =>
    have single : ¬(newline = newline ∧ b = newline) := fun both => h (both.2 ▸ List.mem_cons_self)
    exact (if_neg single).trans (findDelimFrom_line (j + 1) rest h)

/-- The first delimiter of a header's bytes, whatever is behind, is the one that ends it (R181). -/
theorem findDelim_headerBytes {c : Config} {name digits hex : List Byte} (hname : IsValue c .word name)
    (hdigits : IsValue c .digit digits) (hhex : IsValue c .hex hex) (behind : List Byte) :
    findDelim (headerBytes name digits hex ++ (delimBytes ++ behind)) = some (headerBytes name digits hex).length := by
  have lines : (headerBytes name digits hex ++ (delimBytes ++ behind)).drop markerLen =
      name ++ newline :: ((labelLength ++ digits) ++ newline :: ((labelSha256 ++ hex) ++ (delimBytes ++ behind))) := by
    simp [headerBytes, delimBytes, labelPattern, markerLen]
  rw [findDelim, lines, findDelimFrom_line _ _ (newline_notMem_of_isValue hname),
    findDelimFrom_newline_line _ _ (newline_notMem_line (by decide) hdigits) (by simp [labelLength]),
    findDelimFrom_newline_line _ _ (newline_notMem_line (by decide) hhex) (by simp [labelSha256])]
  have total : markerLen + name.length + 1 + (labelLength ++ digits).length + 1 + (labelSha256 ++ hex).length =
      (headerBytes name digits hex).length := by
    simp [markerLen, labelLength, labelSha256]
    omega
  rw [total]
  rfl

/-! ## The frame -/

/-- The digits of DEC are a value of digits. -/
theorem isValue_dec (c : Config) (v : Nat) : IsValue c .digit (Encoder.dec v) :=
  fun _ => Encoder.isDigit_of_mem_decimalDigits

/-- What HEXLOWER writes is a value of hexadecimal digits. -/
theorem isValue_hexLower (c : Config) (b : List Byte) : IsValue c .hex (Sha256.hexLower b) :=
  fun _ => Sha256.isHex_of_mem_hexLower

/-- Where the delimiter of a canonical frame stands (R74). -/
def delimIndex (name payload : List Byte) : Nat := 93 + name.length + (Encoder.dec payload.length).length

/-- The header of a canonical frame ends there. -/
theorem length_headerBytes_encode (name payload : List Byte) :
    (headerBytes name (Encoder.dec payload.length) (Sha256.hexLower (Sha256.sha256 payload))).length =
      delimIndex name payload := by
  simp [delimIndex]
  omega

section Frame

variable {c : Config} {name : List Byte} (wellFormed : wellFormedName c name = true) (payload : List Byte)

include wellFormed

/-- The delimiter of a canonical frame is the first (R74, R181). -/
theorem findDelim_encode : findDelim (Encoder.encode name payload) = some (delimIndex name payload) := by
  rw [encode_eq_headerBytes, ← length_headerBytes_encode]
  exact findDelim_headerBytes (isValue_of_wellFormedName wellFormed).2 (isValue_dec c _) (isValue_hexLower c _) payload

/-- The parser reads from a canonical frame its name, its payload's length and its payload's digest (R74, R191). -/
theorem parseWith_encode {lenMax : Option Nat} (fits : within lenMax payload.length = true) :
    parseWith c lenMax (Encoder.encode name payload) (delimIndex name payload) =
      some { name := name, len := payload.length, hex := Sha256.hexLower (Sha256.sha256 payload) } := by
  obtain ⟨nonempty, hname⟩ := isValue_of_wellFormedName wellFormed
  have hexNonempty : Sha256.hexLower (Sha256.sha256 payload) ≠ [] := List.ne_nil_of_length_pos (by simp)
  have parsed := parseWith_headerBytes (lenMax := lenMax) hname (isValue_dec c payload.length)
    (isValue_hexLower c (Sha256.sha256 payload)) nonempty (Encoder.dec_ne_nil _) hexNonempty
    (by rwa [digitsValue_dec])
  rw [digitsValue_dec] at parsed
  rw [encode_eq_headerBytes, ← length_headerBytes_encode, parseWith_append _ _ _ le_rfl, parsed]

end Frame

/-- The marker begins every frame (R74). -/
theorem markerAtFront_encode (name payload : List Byte) : markerAtFront (Encoder.encode name payload) = true := by
  simp [markerAtFront, Encoder.encode, markerLen, markerBytes]

/-- The payload stands behind the delimiter (R74). -/
theorem drop_encode (name payload : List Byte) :
    (Encoder.encode name payload).drop (delimIndex name payload + delimLen) = payload := by
  have front : delimIndex name payload + delimLen = (headerBytes name (Encoder.dec payload.length)
      (Sha256.hexLower (Sha256.sha256 payload)) ++ delimBytes).length := by
    rw [List.length_append, length_headerBytes_encode]
    rfl
  rw [front, encode_eq_headerBytes, ← List.append_assoc, List.drop_left]

/-- The length of a frame (R121). -/
theorem length_encode (name payload : List Byte) :
    (Encoder.encode name payload).length = delimIndex name payload + delimLen + payload.length := by
  rw [encode_eq_headerBytes, List.length_append, length_headerBytes_encode, List.length_append, ← Nat.add_assoc]
  rfl

/-- The part at an offset, and what stands behind it. -/
theorem slice_of_drop {f part rest : List Byte} {i j : Nat} (h : f.drop i = part ++ rest) (hj : i + part.length = j) :
    slice f i j = part ∧ f.drop j = rest := by
  subst hj
  rw [slice_add, ← List.drop_drop, h, List.take_left, List.drop_left]
  exact ⟨rfl, rfl⟩

/-- Settles O44: the parts of the frame, each read off what stands behind the one before it. -/
theorem encodeWritesTheCanonicalLayout : Obligations.EncodeWritesTheCanonicalLayout := by
  intro s name payload short
  refine ⟨Encoder.encode name payload, Machine.whenDigestDefined_of_lt short, ?_⟩
  rintro n k len rfl rfl rfl
  have total := length_encode name payload
  obtain ⟨marker, h⟩ := slice_of_drop (f := Encoder.encode name payload) (i := 0) (j := 11) rfl rfl
  obtain ⟨pattern, h⟩ := slice_of_drop h rfl
  obtain ⟨lengthLabel, h⟩ := slice_of_drop (j := 20 + name.length) h (by simp [labelLength]; omega)
  obtain ⟨digits, h⟩ := slice_of_drop h rfl
  obtain ⟨digestLabel, h⟩ := slice_of_drop (j := 29 + name.length + (Encoder.dec payload.length).length) h
    (by simp [labelSha256]; omega)
  obtain ⟨digest, h⟩ := slice_of_drop (j := 93 + name.length + (Encoder.dec payload.length).length) h (by simp; omega)
  obtain ⟨delim, h⟩ := slice_of_drop (j := 95 + name.length + (Encoder.dec payload.length).length) h
    (by simp [delimBytes]; omega)
  refine ⟨?_, marker, pattern, lengthLabel, digits, digestLabel, digest, delim, h⟩
  rw [total, delimIndex, delimLen]
  omega

end Wire

/-! ## The stream -/

/-- A canonical frame at the front of the stream is cut from it as that frame (R74, R121). -/
theorem decodeFrame_encode_append {c : Config} {name payload : List Byte} (behind : List Byte)
    (wellFormed : wellFormedName c name = true) (short : payload.length < 2 ^ 61) :
    decodeFrame c (Encoder.encode name payload ++ behind) = some (name, payload, behind) := by
  have marker : Wire.markerAtFront (Encoder.encode name payload ++ behind) = true := by
    rw [Wire.markerAtFront_append _ (Wire.length_of_markerAtFront (Wire.markerAtFront_encode name payload)),
      Wire.markerAtFront_encode]
  have length := Wire.length_encode name payload
  have parsed := Wire.parseWith_encode wellFormed payload (lenMax := none) rfl
  rw [← Wire.parseWith_append _ _ behind (by omega)] at parsed
  have held : Wire.slice (Encoder.encode name payload ++ behind) (Wire.delimIndex name payload + Wire.delimLen)
      (Wire.delimIndex name payload + Wire.delimLen + payload.length) = payload := by
    rw [Wire.slice_append _ length.ge, Wire.slice, ← length, List.take_length, Wire.drop_encode]
  rw [decodeFrame, if_pos marker, Wire.findDelim_append _ (Wire.findDelim_encode wellFormed payload)]
  simp only [parsed, held]
  rw [← length, List.take_left, List.drop_left, if_pos ⟨decide_eq_true short, rfl⟩]

/-- A stream that does not begin with the marker begins no frame (R71). -/
theorem decodeFrame_of_not_marker (c : Config) {bs : List Byte} (h : Wire.markerAtFront bs = false) :
    decodeFrame c bs = none := by
  rw [decodeFrame, h]
  rfl

/-- A stream that begins with a canonical frame decodes to that frame, with what is behind it left (R74, R121). -/
theorem decode_encode_append {c : Config} {name payload : List Byte} (behind : List Byte)
    (wellFormed : wellFormedName c name = true) (short : payload.length < 2 ^ 61) :
    decode c (Encoder.encode name payload ++ behind) = .found (.frame name payload) behind := by
  have cut := decodeFrame_encode_append behind wellFormed short
  cases hbs : Encoder.encode name payload ++ behind with
  | nil => simp [Encoder.encode, Wire.markerBytes] at hbs
  | cons b bs =>
    rw [hbs] at cut
    simp only [decode, cut]

/-- Every token is longer than a byte, so a single byte is a PUTBYTE. -/
theorem decode_singleton (c : Config) (b : Byte) : decode c [b] = .found (.putbyte b) [] := by
  have noFrame : decodeFrame c [b] = none :=
    decodeFrame_of_not_marker c (by simp [Wire.markerAtFront, Wire.markerLen, Wire.markerBytes])
  have noToken : decodeToken [b] = none := by
    simp [decodeToken, Wire.markerBytes, Wire.labelPattern, Wire.labelLength, Wire.labelSha256, Wire.delimBytes]
  simp only [decode, noFrame, noToken]

/-- Settles O3: a frame is cut whole; what is no frame has no delimiter behind a marker, and is the token whose bytes it
is. -/
theorem streamDecodeOfEncode : Obligations.StreamDecodeOfEncode := by
  intro c i bs wellFormed hbs
  cases i with
  | frame name payload =>
    cases hbs
    rw [Instr.wellFormed, Bool.and_eq_true] at wellFormed
    obtain ⟨wellFormed, short⟩ := wellFormed
    have whole := decode_encode_append [] wellFormed (of_decide_eq_true short)
    rwa [List.append_nil] at whole
  | marker => cases hbs; rfl
  | delim => cases hbs; rfl
  | lPattern => cases hbs; rfl
  | lLength => cases hbs; rfl
  | lSha256 => cases hbs; rfl
  | putbyte b => cases hbs; exact decode_singleton c b
  | scanWait | scanDropEdge | scanDrop | hdrWait | hdrReject | payloadWait | resolve => cases hbs
  | reset | write | readStatus | emit => cases hbs
  | generate | verify | lookup | encodeFrame | dec | sha256 | hexLower => cases hbs
  | findDelim | findField | parse | utf8At => cases hbs

/-- Settles O2: the written-out bytes and numbers hold no frame, and evaluate to the tokens. -/
theorem writtenOutBytesDecode : Obligations.WrittenOutBytesDecode :=
  ⟨rfl, rfl, rfl, rfl, rfl, rfl, rfl, rfl, rfl, rfl, rfl, rfl⟩

end Sys2Proof

/-! SUPPORT. The selection table (R90): a row whose own guard holds is the row selected, and a row that is not selected is
refused. -/

namespace Sys2Proof.Machine

/-- A micro-step whose own guard holds is the one the rows, tried in order, select (R90). -/
theorem select_of_microGuard {c : Config} {r : List Byte} {sync : Bool} {m : MicroStep}
    (h : microGuard c r sync m = true) : select c r sync = m := by
  have long (hm : Wire.markerAtFront r = true) : ¬r.length < Wire.markerLen :=
    Nat.not_lt.mpr (Wire.length_of_markerAtFront hm)
  cases m with
  | scanWait =>
    have short : r.length < Wire.markerLen := of_decide_eq_true h
    simp [select, short]
  | scanDropEdge | scanDrop =>
    simp only [microGuard, Bool.and_eq_true, decide_eq_true_eq, Bool.not_eq_true'] at h
    obtain ⟨⟨hl, hm⟩, hs⟩ := h
    simp [select, Wire.markerLen, Nat.not_lt.mpr hl, hm, hs]
  | hdrWait =>
    simp only [microGuard, Bool.and_eq_true, decide_eq_true_eq] at h
    obtain ⟨hm, hd⟩ := h
    simp [select, long hm, hm, hd]
  | hdrReject d =>
    simp only [microGuard, Bool.and_eq_true, decide_eq_true_eq] at h
    obtain ⟨⟨hm, hd⟩, hp⟩ := h
    simp [select, long hm, hm, hd, hp]
  | payloadWait d len =>
    simp only [microGuard, Bool.and_eq_true, decide_eq_true_eq] at h
    obtain ⟨⟨hm, hd⟩, hp⟩ := h
    cases hh : Wire.parse c r d with
    | none => simp [hh] at hp
    | some hdr =>
      simp only [hh, Bool.and_eq_true, decide_eq_true_eq] at hp
      obtain ⟨rfl, hl⟩ := hp
      simp [select, long hm, hm, hd, hh, Wire.delimLen, hl]
  | resolve d name len hex =>
    simp only [microGuard, Bool.and_eq_true, decide_eq_true_eq] at h
    obtain ⟨⟨⟨hm, hd⟩, hp⟩, hl⟩ := h
    simp [select, long hm, hm, hd, hp, Wire.delimLen, Nat.not_lt.mpr hl]

/-- Settles O4: the selected row's guard holds, and a row whose guard holds is selected. -/
theorem selectionTableIsTotalAndExclusive : Obligations.SelectionTableIsTotalAndExclusive := fun c r sync _ =>
  ⟨fun h => (select_of_microGuard h).symm, fun h => h ▸ microGuard_select c r sync⟩

/-- A row whose guard holds is one of rows 4 to 7 exactly if the marker stands at the front (R71). -/
theorem four_le_row_iff_of_guard {c : Config} {r : List Byte} {sync : Bool} {m : MicroStep}
    (h : microGuard c r sync m = true) : 4 ≤ m.row ↔ Wire.markerAtFront r = true := by
  cases m with
  | scanWait =>
    have short : r.length < 11 := of_decide_eq_true h
    have noMarker : Wire.markerAtFront r ≠ true := fun hm => by
      have := Wire.length_of_markerAtFront hm
      omega
    simp [MicroStep.row, noMarker]
  | scanDropEdge | scanDrop =>
    simp only [microGuard, Bool.and_eq_true, Bool.not_eq_true'] at h
    obtain ⟨⟨-, noMarker⟩, -⟩ := h
    simp [MicroStep.row, noMarker]
  | hdrWait | hdrReject | payloadWait | resolve =>
    simp only [microGuard, Bool.and_eq_true, and_assoc] at h
    obtain ⟨marker, -⟩ := h
    simp [MicroStep.row, marker]

/-- Settles O5: the selected row's guard says whether the marker stands at the front. -/
theorem frameStartIsTheMarkerAtTheFront : Obligations.FrameStartIsTheMarkerAtTheFront := fun s =>
  (four_le_row_iff_of_guard (microGuard_select s.cfg s.residual s.sync)).trans decide_eq_true_iff

/-- Without a fault a micro-step whose guard does not hold is refused (R90). -/
theorem whenGuarded_of_not_guard {m : MicroStep} {s : State} {k : Answer} (hf : s.fault = false)
    (hg : microGuard s.cfg s.residual s.sync m = false) : whenGuarded m s k = .refused .notSelected := by
  simp [whenGuarded, hf, hg]

/-- Settles O14: only the selected micro-step's guard holds. -/
theorem unselectedMicroStepIsRefused : Obligations.UnselectedMicroStepIsRefused := by
  intro m s hf unselected
  have noGuard : microGuard s.cfg s.residual s.sync m = false :=
    Bool.eq_false_iff.mpr fun h => unselected (select_of_microGuard h).symm
  rw [exec_toInstr, runMicroStep_eq, whenGuarded_of_not_guard hf noGuard]

end Sys2Proof.Machine

/-! SUPPORT. Tokens and frames as the WRITE of their bytes (R71 to R74, R88, R152): where the bytes find room they are
accepted, where they complete nothing they are held, and the cut of the stream hides no byte. -/

namespace Sys2Proof.Machine

/-! ## Bytes that find room -/

/-- A number within a bound is within it with every smaller number (R5, R6). -/
theorem within_of_le {bound : Option Nat} {m n : Nat} (hmn : m ≤ n) (h : Wire.within bound n = true) :
    Wire.within bound m = true := by
  cases bound with
  | none => rfl
  | some b => exact decide_eq_true (hmn.trans (of_decide_eq_true h))

/-- The loop completes on every live buffer of a size SHA-256 is defined on (R157, R140). -/
theorem exists_decodeLoop_eq_next {s : State} (hf : s.fault = false) (hl : s.residual.length < 2 ^ 61) :
    ∃ t, decodeLoop s = .next t := by
  revert hf hl
  refine loop_induction (P := fun s => s.fault = false → s.residual.length < 2 ^ 61 → ∃ t, decodeLoop s = .next t) ?_ ?_ s
  · exact fun s hr hf _ => ⟨s, decodeLoop_of_atRest hf hr⟩
  · intro s hr ih hf hl
    rw [decodeLoop_of_not_atRest hr, micro_of_length hf hl, andThen_next]
    exact ih ((microEffect_frame _ s).2.1.trans hf) ((length_microEffect_lt hr).trans hl)

/-- The loop writes neither the parameters nor `fault`. -/
theorem keptByMicro_cfg_fault (s : State) : KeptByMicro fun t => t.cfg = s.cfg ∧ t.fault = s.fault := fun m u _ h => by
  obtain ⟨hcfg, hfault, -⟩ := microEffect_frame m u
  rw [hcfg, hfault]
  exact h

/-- A byte that finds room is accepted, and leaves the sink live with room for what is to come (R153, R58). -/
theorem putByte_of_room {s : State} {n : Nat} (b : Byte) (live : Live s) (room : RoomFor s (n + 1)) :
    ∃ t, putByte b s = .next t ∧ Live t ∧ RoomFor t n := by
  obtain ⟨hf, hr⟩ := live
  obtain ⟨capacity, domain⟩ := room
  obtain ⟨t, run⟩ := exists_decodeLoop_eq_next (s := append s b) hf (by simp; omega)
  obtain ⟨rest, hcfg, hfault⟩ := (keptByMicro_cfg_fault (append s b)).decodeLoop ⟨rfl, rfl⟩ run
  have length : t.residual.length ≤ s.residual.length + 1 := by
    simpa using ((keptByMicro_suffix (append s b).residual).decodeLoop List.suffix_rfl run).2.length_le
  have room (m : Nat) (hm : m ≤ n) : Wire.within t.cfg.residualCap (t.residual.length + m) = true := by
    rw [hcfg]
    exact within_of_le (by omega) capacity
  have noOverflow : overflow t = false := by simpa [overflow] using room 0 (Nat.zero_le n)
  have fits : testCapacity t = t := by simp [testCapacity, noOverflow]
  exact ⟨t, putByte_eq_next.mpr ⟨hf, hr, t, run, fits.symm⟩, ⟨hfault.trans hf, rest⟩, room n le_rfl, by omega⟩

/-- Bytes that find room are accepted, and leave the sink live (R152). -/
theorem putBytes_of_room {s : State} {bs : List Byte} (live : Live s) (room : RoomFor s bs.length) :
    ∃ t, putBytes bs s = .next t ∧ Live t := by
  induction bs generalizing s with
  | nil => exact ⟨s, rfl, live⟩
  | cons b bs ih =>
    obtain ⟨u, hb, live, room⟩ := putByte_of_room b live room
    obtain ⟨t, hbs, live⟩ := ih live room
    exact ⟨t, putBytes_cons_eq_next.mpr ⟨u, hb, hbs⟩, live⟩

/-- Accepted bytes return their number and leave the sink live (R152). -/
theorem acceptBytes_of_room {s : State} {bs : List Byte} (live : Live s) (room : RoomFor s bs.length) :
    ∃ t, acceptBytes bs s = .next t ∧ t.result = .accepted bs.length ∧ Live t := by
  obtain ⟨t, run, live⟩ := putBytes_of_room live room
  have rest : Live (returnValue t (.accepted bs.length)) := live
  exact ⟨_, acceptBytes_eq_next.mpr ⟨t, run, rfl⟩, rfl, rest⟩

/-! ## Tokens -/

/-- The tokens, each with its fixed bytes (R71 to R73). -/
inductive IsToken : Instr → List Byte → Prop where
  | marker : IsToken .marker Wire.markerBytes
  | delim : IsToken .delim Wire.delimBytes
  | lPattern : IsToken .lPattern Wire.labelPattern
  | lLength : IsToken .lLength Wire.labelLength
  | lSha256 : IsToken .lSha256 Wire.labelSha256

/-- A token is the WRITE of its bytes (R88). -/
theorem IsToken.exec_eq {i : Instr} {bs : List Byte} (h : IsToken i bs) (s : State) : exec i s = exec (.write bs) s := by
  cases h <;> rfl

/-- A frame SHA-256 is defined on is the WRITE of its bytes (R74, R88). -/
theorem exec_frame_eq_write {name payload : List Byte} (short : payload.length < 2 ^ 61) (s : State) :
    exec (.frame name payload) s = exec (.write (Encoder.encode name payload)) s :=
  whenDigestDefined_of_lt short

/-- A PUTBYTE is the WRITE of its byte, apart from the value returned (R153). -/
theorem exec_putbyte_eq_write (b : Byte) (s : State) :
    answerForgetResult (exec (.putbyte b) s) = answerForgetResult (exec (.write [b]) s) := by
  show answerForgetResult (putByte b s) = answerForgetResult (acceptBytes [b] s)
  simp only [acceptBytes, putBytes]
  cases putByte b s <;> rfl

/-- A token is cut off with its bytes. -/
theorem decodeToken_eq_some {bs behind : List Byte} {i : Instr} (h : decodeToken bs = some (i, behind)) :
    ∃ front, IsToken i front ∧ bs = front ++ behind := by
  unfold decodeToken at h
  split_ifs at h with first first first first first <;> cases h
  · exact ⟨_, .marker, first ▸ (List.take_append_drop _ _).symm⟩
  · exact ⟨_, .lPattern, first ▸ (List.take_append_drop _ _).symm⟩
  · exact ⟨_, .lLength, first ▸ (List.take_append_drop _ _).symm⟩
  · exact ⟨_, .lSha256, first ▸ (List.take_append_drop _ _).symm⟩
  · exact ⟨_, .delim, first ▸ (List.take_append_drop _ _).symm⟩

/-- What is cut from the stream: a frame, a token or a byte, and what is left is what is behind it. -/
theorem decode_eq_found {c : Config} {bs behind : List Byte} {i : Instr} (h : decode c bs = .found i behind) :
    (∃ name payload, i = .frame name payload ∧ payload.length < 2 ^ 61 ∧ bs = Encoder.encode name payload ++ behind) ∨
    (∃ front, IsToken i front ∧ bs = front ++ behind) ∨ ∃ b, i = .putbyte b ∧ bs = b :: behind := by
  unfold decode at h
  split at h
  · cases h
  · split at h
    · next hframe =>
      cases h
      exact .inl ⟨_, _, rfl, decodeFrame_eq_some hframe⟩
    · split at h
      · next htoken =>
        cases h
        exact .inr (.inl (decodeToken_eq_some htoken))
      · cases h
        exact .inr (.inr ⟨_, rfl, rfl⟩)

/-- Settles O30: each kind of operation the stream is cut into is the WRITE of its bytes, and bytes that find room are
accepted. -/
theorem tokensAndFramesAreWritesOfTheirBytes : Obligations.TokensAndFramesAreWritesOfTheirBytes := by
  refine ⟨fun c bs i behind h => ?_, fun s live => ⟨fun i bs htoken room => ?_, fun name payload short room => ?_⟩⟩
  · obtain ⟨name, payload, rfl, short, hbs⟩ | ⟨front, htoken, hbs⟩ | ⟨b, rfl, hbs⟩ := decode_eq_found h
    · exact ⟨_, by simp [Encoder.encode, Wire.markerBytes], hbs, fun s => congrArg _ (exec_frame_eq_write short s)⟩
    · exact ⟨front, by cases htoken <;> decide, hbs, fun s => congrArg _ (htoken.exec_eq s)⟩
    · exact ⟨[b], by simp, hbs, exec_putbyte_eq_write b⟩
  · have htoken : IsToken i bs := by
      simp only [List.mem_cons, Prod.mk.injEq, List.not_mem_nil, or_false] at htoken
      obtain ⟨rfl, rfl⟩ | ⟨rfl, rfl⟩ | ⟨rfl, rfl⟩ | ⟨rfl, rfl⟩ | ⟨rfl, rfl⟩ := htoken
      exacts [.marker, .delim, .lPattern, .lLength, .lSha256]
    obtain ⟨t, run, result, live⟩ := acceptBytes_of_room live room
    exact ⟨t, (htoken.exec_eq s).trans run, run, result, live⟩
  · obtain ⟨t, run, result, live⟩ := acceptBytes_of_room live room
    exact ⟨t, (exec_frame_eq_write short s).trans run, run, result, live⟩

/-! ## Bytes that complete nothing -/

/-- Bytes that leave the sink at rest one after the other, and find room, are held as they are (R153). -/
theorem putBytes_of_rest {s : State} {bs : List Byte} (hf : s.fault = false)
    (rest : ∀ k ≤ bs.length, atRest (extend s (bs.take k)) = true)
    (room : Wire.within s.cfg.residualCap (s.residual.length + bs.length) = true) :
    putBytes bs s = .next (extend s bs) := by
  induction bs generalizing s with
  | nil => exact congrArg _ (extend_nil s).symm
  | cons b bs ih =>
    have now : atRest s = true := by simpa [extend_nil] using rest 0 (Nat.zero_le _)
    have next : atRest (append s b) = true := rest 1 (by simp)
    have fits : overflow (append s b) = false := by
      have := within_of_le (m := s.residual.length + 1) (by simp) room
      simpa [overflow] using this
    have stored : putByte b s = .next (append s b) := by
      rw [putByte_of_atRest_append hf now next, fits, ← hf]
      rfl
    have behind : putBytes bs (append s b) = .next (extend (append s b) bs) := by
      refine ih hf (fun k hk => ?_) ?_
      · rw [← extend_singleton, extend_extend]
        exact rest (k + 1) (Nat.succ_le_succ hk)
      · simpa [Nat.add_assoc, Nat.add_comm 1] using room
    rw [← extend_singleton, extend_extend] at behind
    exact putBytes_cons_eq_next.mpr ⟨_, stored, behind⟩

/-- The marker alone waits for its header (R182). -/
theorem select_markerBytes (c : Config) (sync : Bool) : select c Wire.markerBytes sync = .hdrWait := rfl

/-- Settles O31: no byte of the marker completes anything, so all of them are held. -/
theorem markerOnAnEmptyBufferOpensAHeader : Obligations.MarkerOnAnEmptyBufferOpensAHeader := by
  intro s hf empty room
  have held : putBytes Wire.markerBytes s = .next (extend s Wire.markerBytes) := by
    refine putBytes_of_rest hf (fun k hk => ?_) (by simpa [empty, Wire.markerBytes] using room)
    obtain short | rfl := Nat.lt_or_eq_of_le hk
    · refine (atRest_of_short ?_).1
      simp only [extend_residual, empty, List.nil_append, List.length_take]
      exact lt_of_le_of_lt (Nat.min_le_left _ _) short
    · simp [atRest, selected, empty, select_markerBytes, MicroStep.isRest]
  have next : exec .marker s = .next (returnValue (extend s Wire.markerBytes) (.accepted 11)) :=
    acceptBytes_eq_next.mpr ⟨_, held, rfl⟩
  refine ⟨next.trans ?_, rfl⟩
  simp [returnValue, extend, empty]

end Sys2Proof.Machine

/-! SUPPORT. The pattern functions (R101 to R107): a generated payload by its bytes and by its chunks, the walk of VERIFY as
equality with it, and LOOKUP where names are unique. -/

namespace Sys2Proof

@[simp] theorem NEBytes.length_toList (b : NEBytes) : b.toList.length = b.length := rfl

theorem NEBytes.length_pos (b : NEBytes) : 0 < b.length := Nat.succ_pos _

theorem NEBytes.toList_injective : Function.Injective NEBytes.toList := by
  rintro ⟨a, as⟩ ⟨b, bs⟩ h
  obtain ⟨rfl, rfl⟩ := List.cons.inj h
  rfl

/-- Well-formed parameters have a catalog of unique names (R7). -/
theorem Config.nodup_names_of_wf {c : Config} (h : c.wf = true) : (c.catalog.map CatalogEntry.name).Nodup :=
  of_decide_eq_true (Bool.and_eq_true_iff.mp h).2

namespace Pattern

/-! ## Generated bytes -/

@[simp] theorem length_generate (seed : NEBytes) (n : Nat) : (generate seed n).length = n := by simp [generate]

/-- Byte `i` is `seed[i mod len(seed)]` (R101). -/
theorem getElem?_generate (seed : NEBytes) {i n : Nat} (h : i < n) :
    (generate seed n)[i]? = seed.toList[i % seed.length]? := by
  have inSeed : i % seed.length < seed.toList.length := Nat.mod_lt _ seed.length_pos
  simp [generate, seedByte, h, List.getElem?_eq_getElem inSeed]

/-- R104: a byte string is what GENERATE gives exactly if each of its bytes is the repeated seed's. -/
theorem eq_generate_iff (seed : NEBytes) {bytes : List Byte} {n : Nat} (length : bytes.length = n) :
    bytes = generate seed n ↔ ∀ i < n, bytes[i]? = seed.toList[i % seed.length]? := by
  refine ⟨fun h i hi => h ▸ getElem?_generate seed hi, fun h => List.ext_getElem? fun i => ?_⟩
  obtain hi | hi := Nat.lt_or_ge i n
  · rw [h i hi, getElem?_generate seed hi]
  · rw [List.getElem?_eq_none (length ▸ hi), List.getElem?_eq_none ((length_generate seed n).symm ▸ hi)]

/-- R103, R104: a generated payload is its first chunk, which is the front of the seed, and behind it a generated payload
that starts at `seed[0]` again. -/
theorem chunk_append_generate (seed : NEBytes) (n : Nat) :
    seed.toList.take (min n seed.length) ++ generate seed (n - min n seed.length) = generate seed n := by
  refine (eq_generate_iff seed (by simp)).mpr fun i hi => ?_
  obtain inChunk | behind := Nat.lt_or_ge i (min n seed.length)
  · have inSeed : i < seed.length := inChunk.trans_le (Nat.min_le_right _ _)
    rw [List.getElem?_append_left (by simpa using inChunk), List.getElem?_take_of_lt inChunk, Nat.mod_eq_of_lt inSeed]
  · have whole : min n seed.length = seed.length := by omega
    rw [whole] at behind ⊢
    rw [List.getElem?_append_right (by simpa using behind), List.length_take, NEBytes.length_toList, Nat.min_self,
      getElem?_generate seed (by omega), ← Nat.mod_eq_sub_mod behind]

/-! ## The walk of VERIFY -/

/-- R103: the walk compares one chunk and goes on behind it. -/
theorem walk_succ_eq_true_iff (seed : NEBytes) (n : Nat) (payload : List Byte) :
    walk seed (n + 1) payload = true ↔ payload = [] ∨
      payload.take (min payload.length seed.length) = seed.toList.take (min payload.length seed.length) ∧
        walk seed n (payload.drop (min payload.length seed.length)) = true := by
  cases payload <;> simp [walk]

/-- R104: a walk with enough chunks finds exactly the generated payload. -/
theorem walk_eq_true_iff (seed : NEBytes) {n : Nat} {payload : List Byte} (enough : payload.length ≤ n) :
    walk seed n payload = true ↔ payload = generate seed payload.length := by
  induction n generalizing payload with
  | zero => simp [List.length_eq_zero_iff.mp (Nat.le_zero.mp enough), walk, generate]
  | succ n ih =>
    rw [walk_succ_eq_true_iff]
    obtain rfl | nonempty := eq_or_ne payload []
    · simp [generate]
    · have chunk : 0 < min payload.length seed.length :=
        Nat.lt_min.mpr ⟨List.length_pos_of_ne_nil nonempty, seed.length_pos⟩
      rw [ih (by rw [List.length_drop]; omega), List.length_drop, or_iff_right nonempty,
        ← chunk_append_generate seed payload.length]
      constructor
      · rintro ⟨front, behind⟩
        rw [← front, ← behind, List.take_append_drop]
      · intro h
        exact List.append_inj ((List.take_append_drop _ _).trans h) (by simp)

/-- VERIFY accepts what GENERATE gives for the length of the payload, and nothing else (R104). -/
theorem verify_eq_true_iff (seed : NEBytes) (payload : List Byte) :
    verify seed payload = true ↔ payload = generate seed payload.length :=
  walk_eq_true_iff seed le_rfl

/-! ## LOOKUP -/

/-- R106: under unique names (R7) the seed found is that of the one entry of that name. -/
theorem lookup_eq_some_iff {catalog : List CatalogEntry} (unique : (catalog.map CatalogEntry.name).Nodup)
    (name : List Byte) (seed : NEBytes) :
    lookup catalog name = some seed ↔ ∃ e ∈ catalog, e.name.toList = name ∧ e.seed = seed := by
  induction catalog with
  | nil => simp [lookup]
  | cons e rest ih =>
    obtain ⟨fresh, unique⟩ := List.nodup_cons.mp unique
    by_cases h : e.name.toList = name
    · have other : ∀ e' ∈ rest, e'.name.toList ≠ name := fun e' mem h' =>
        fresh (List.mem_map.mpr ⟨e', mem, NEBytes.toList_injective (h'.trans h.symm)⟩)
      rw [lookup, if_pos h, Option.some.injEq, List.exists_mem_cons_iff]
      refine ⟨fun found => .inl ⟨h, found⟩, ?_⟩
      rintro (⟨-, found⟩ | ⟨e', mem, h', -⟩)
      · exact found
      · exact absurd h' (other e' mem)
    · simp [lookup, h, ih unique]

end Pattern

namespace Machine

/-- Settles O41: GENERATE's bytes are the repeated seed's, and they are what VERIFY looks for. -/
theorem generateRepeatsTheSeed : Obligations.GenerateRepeatsTheSeed := by
  intro s seed length
  have accepted : Pattern.verify seed (Pattern.generate seed length) = true := by simp [Pattern.verify_eq_true_iff]
  refine ⟨_, rfl, Pattern.length_generate seed length, fun _ => Pattern.getElem?_generate seed, ?_⟩
  rw [← accepted]
  rfl

/-- Settles O42: the walk in chunks is equality with the generated payload, and that is equality byte for byte. -/
theorem verifyComparesWithTheRepeatedSeed : Obligations.VerifyComparesWithTheRepeatedSeed := fun _ seed payload =>
  have generated := Pattern.verify_eq_true_iff seed payload
  ⟨_, rfl, generated.trans (Pattern.eq_generate_iff seed rfl), generated⟩

/-- Settles O43: the search stops at the one entry of that name. -/
theorem lookupIsExactEquality : Obligations.LookupIsExactEquality := fun _ name =>
  ⟨_, rfl, fun wf seed => Pattern.lookup_eq_some_iff (Config.nodup_names_of_wf wf) name seed⟩

end Machine

end Sys2Proof

/-! SUPPORT. DEC (R122): the digits do not depend on the bound of the recursion, which leaves the recursion of the spec. -/

namespace Sys2Proof

namespace Encoder

/-- Every bound above the number gives the same digits. -/
theorem decimalDigits_of_lt {m n v : Nat} (hm : v < m) (hn : v < n) : decimalDigits m v = decimalDigits n v := by
  induction m generalizing n v with
  | zero => cases hm
  | succ m ih =>
    obtain ⟨n, rfl⟩ : ∃ n', n = n' + 1 := ⟨n - 1, by omega⟩
    rw [decimalDigits, decimalDigits]
    split
    · rfl
    · rw [ih (n := n) (by omega) (by omega)]

/-- Below ten DEC is one digit (R122). -/
theorem dec_of_lt {v : Nat} (h : v < 10) : dec v = [BitVec.ofNat 8 (0x30 + v)] := by
  rw [dec, decimalDigits, if_pos h, Nat.mod_eq_of_lt h]
  rfl

/-- From ten on the last digit stands behind the digits of the rest (R122). -/
theorem dec_of_ge {v : Nat} (h : 10 ≤ v) : dec v = dec (v / 10) ++ [BitVec.ofNat 8 (0x30 + v % 10)] := by
  rw [dec, decimalDigits, if_neg (Nat.not_lt.mpr h), dec,
    decimalDigits_of_lt (m := v) (n := v / 10 + 1) (by omega) (by omega)]

/-- DEC writes no leading zero (R122). -/
theorem head?_dec_ne_zero {v : Nat} (h : 0 < v) : (dec v).head? ≠ some 0x30#8 := by
  induction v using Nat.strong_induction_on with
  | h v ih =>
    obtain small | large := Nat.lt_or_ge v 10
    · rw [dec_of_lt small, List.head?_cons, ne_eq, Option.some.injEq, ← BitVec.toNat_inj, BitVec.toNat_ofNat,
        BitVec.toNat_ofNat]
      omega
    · rw [dec_of_ge large, List.head?_append_of_ne_nil _ (dec_ne_nil _)]
      exact ih (v / 10) (by omega) (by omega)

end Encoder

/-- Settles O45: the recursion of R122, and what follows from it digit by digit. -/
theorem decIsCanonicalDecimal : Obligations.DecIsCanonicalDecimal := by
  refine fun s v => ⟨Encoder.dec v, rfl, Encoder.dec_of_lt, fun large => ?_, Encoder.head?_dec_ne_zero,
    fun _ => Encoder.isDigit_of_mem_decimalDigits, Wire.digitsValue_dec v⟩
  rw [Encoder.dec_of_ge large, List.dropLast_concat, List.getLast?_concat]
  exact ⟨rfl, rfl⟩

end Sys2Proof

/-! SUPPORT. The frame of a registered pattern (R123): no part of it is resolved before its last byte arrives, and then it is
resolved as good. -/

namespace Sys2Proof

/-! ## The verdicts on such a frame -/

/-- A nibble's character is lower case (R84, R139). -/
theorem Wire.lowerByte_hexDigit {v : Nat} (h : v < 16) : lowerByte (Sha256.hexDigit v) = Sha256.hexDigit v := by
  interval_cases v <;> rfl

/-- HEXLOWER writes what Lower leaves (R84, R139). -/
theorem Wire.lower_hexLower (b : List Byte) : lower (Sha256.hexLower b) = Sha256.hexLower b := by
  refine (List.map_congr_left fun x hx => ?_).trans (List.map_id _)
  obtain ⟨y, -, hy⟩ := List.mem_flatMap.mp hx
  have := y.isLt
  rw [List.mem_pair] at hy
  obtain rfl | rfl := hy <;> exact lowerByte_hexDigit (by omega)

namespace Machine

/-- The digest ENCODE writes is good (R121, R204). -/
theorem checksumGood_computedDigest (payload : List Byte) : checksumGood (computedDigest payload) payload = true :=
  checksumGood_iff.mpr (Wire.lower_hexLower _)

/-- What GENERATE gives of the registered seed matches (R105, R205). -/
theorem patternResult_generate {catalog : List CatalogEntry} {name : List Byte} {seed : NEBytes} (len : Nat)
    (registered : Pattern.lookup catalog name = some seed) :
    patternResult catalog name (Pattern.generate seed len) = .matched := by
  have accepted : Pattern.verify seed (Pattern.generate seed len) = true := by simp [Pattern.verify_eq_true_iff]
  simp [patternResult, registered, accepted]

/-- What a good frame does to the sink: `sync` set, the frame counted, its event emitted (R123, R206). -/
def acceptGoodFrame (name payload : List Byte) (s : State) : State :=
  emitEvent (.frame name payload.length (computedDigest payload) (computedDigest payload) true .matched)
    (countGood (resync s))

/-- A frame that is to be good (R123): of a registered name of word characters and `len` bytes of its pattern, within the
bounds of R6, R59 and R140. -/
structure Sendable (c : Config) (name : List Byte) (seed : NEBytes) (len : Nat) : Prop where
  registered : Pattern.lookup c.catalog name = some seed
  wellFormed : wellFormedName c name = true
  lenFits : Wire.within c.lenMax len = true
  short : len < 2 ^ 61
  capacity : Wire.within c.residualCap (94 + name.length + (Encoder.dec len).length + len) = true

/-! ## When it is resolved -/

/-- The sink rests while it holds less than what the selected micro-step removes once more bytes are there (R156). -/
theorem atRest_of_lt_bytesDropped_extend {s : State} {x : List Byte}
    (h : s.residual.length < bytesDropped (selected (extend s x))) : atRest s = true := by
  by_contra busy
  have same : selected (extend s x) = selected s := select_append s.cfg x s.sync (Bool.eq_false_iff.mpr busy)
  rw [same] at h
  exact absurd (bytesDropped_le_of_guard (microGuard_select s.cfg s.residual s.sync)) (Nat.not_le.mpr h)

/-! ## The frame byte by byte -/

/-- Bytes behind bytes are accepted one after the other (R152). -/
theorem putBytes_append (as bs : List Byte) (s : State) :
    putBytes (as ++ bs) s = andThen (putBytes as s) (putBytes bs) := by
  induction as generalizing s with
  | nil => rfl
  | cons a as ih =>
    simp only [List.cons_append, putBytes]
    cases putByte a s with
    | next u => exact ih u
    | fault r => rfl
    | refused r => rfl

/-- Bytes that are held up to the last one are accepted with what the loop makes of all of them (R153). -/
theorem putBytes_concat_of_rest {s t : State} {front : List Byte} {last : Byte} (hf : s.fault = false)
    (rest : ∀ k ≤ front.length, atRest (extend s (front.take k)) = true)
    (room : Wire.within s.cfg.residualCap (s.residual.length + front.length) = true)
    (run : decodeLoop (extend s (front ++ [last])) = .next t) :
    putBytes (front ++ [last]) s = .next (testCapacity t) := by
  have whole : atRest (extend s front) = true := by simpa using rest front.length le_rfl
  rw [← extend_extend, extend_singleton] at run
  rw [putBytes_append, putBytes_of_rest hf rest room, andThen_next]
  exact putBytes_singleton (putByte_eq_next.mpr ⟨hf, whole, t, run, rfl⟩)

section Frame

variable {s : State} {name : List Byte} {seed : NEBytes} {len : Nat} {payload : List Byte}

/-- A canonical frame that is held whole, and nothing else, is selected for RESOLVE (R74, R90). -/
theorem selected_extend_encode (empty : s.residual = []) (wellFormed : wellFormedName s.cfg name = true)
    (lenFits : Wire.within s.cfg.lenMax payload.length = true) :
    selected (extend s (Encoder.encode name payload)) =
      .resolve (Wire.delimIndex name payload) name payload.length (computedDigest payload) := by
  have whole : Wire.delimIndex name payload + 2 + payload.length ≤ (Encoder.encode name payload).length :=
    (Wire.length_encode name payload).ge
  refine select_of_microGuard ?_
  simp only [extend_residual, extend_cfg, empty, List.nil_append, microGuard, Wire.markerAtFront_encode,
    Wire.findDelim_encode wellFormed, Wire.parse, Wire.parseWith_encode wellFormed payload lenFits, computedDigest, whole,
    decide_true, Bool.and_self]

/-- RESOLVE of such a frame counts it as good, and leaves no byte (R202, R206). -/
theorem microEffect_resolve_encode (empty : s.residual = []) (registered : Pattern.lookup s.cfg.catalog name = some seed)
    (generated : payload = Pattern.generate seed len) :
    microEffect (.resolve (Wire.delimIndex name payload) name payload.length (computedDigest payload))
      (extend s (Encoder.encode name payload)) = acceptGoodFrame name payload s := by
  have read : memRead (extend s (Encoder.encode name payload)) (Wire.delimIndex name payload + Wire.delimLen)
      payload.length = payload := by
    rw [memRead_eq_take_drop, extend_residual, empty, List.nil_append, Wire.drop_encode, List.take_length]
  have taken : dropFront (resync (extend s (Encoder.encode name payload)))
      (Wire.delimIndex name payload + Wire.delimLen + payload.length) = resync s := by
    simp [dropFront, resync, extend, empty, ← Wire.length_encode]
  have matched : patternResult s.cfg.catalog name payload = .matched := generated ▸ patternResult_generate len registered
  simp only [microEffect, resolveFrame, frameEvent, extend_cfg, read, taken, checksumGood_computedDigest, matched]
  rfl

/-- On an empty buffer the loop counts the whole frame (R154, R202). -/
theorem decodeLoop_extend_encode (hf : s.fault = false) (empty : s.residual = []) (frame : Sendable s.cfg name seed len)
    (generated : payload = Pattern.generate seed len) :
    decodeLoop (extend s (Encoder.encode name payload)) = .next (acceptGoodFrame name payload s) := by
  have length : payload.length = len := by simp [generated]
  have row := selected_extend_encode empty frame.wellFormed (length ▸ frame.lenFits)
  have busy : atRest (extend s (Encoder.encode name payload)) = false := by rw [atRest, row]; rfl
  have resolved : micro (extend s (Encoder.encode name payload)) = .next (acceptGoodFrame name payload s) := by
    rw [micro_eq_next, row, microEffect_resolve_encode empty frame.registered generated]
    exact ⟨hf, length ▸ frame.short, rfl⟩
  have rests : atRest (acceptGoodFrame name payload s) = true := (atRest_of_short (by simp [acceptGoodFrame, empty])).1
  rw [decodeLoop_of_not_atRest busy, resolved, andThen_next]
  exact decodeLoop_of_atRest hf rests

/-- Less than the whole frame completes nothing (R74, R201). -/
theorem atRest_extend_take_encode (empty : s.residual = []) (wellFormed : wellFormedName s.cfg name = true)
    (lenFits : Wire.within s.cfg.lenMax payload.length = true) {k : Nat} (hk : k < (Encoder.encode name payload).length) :
    atRest (extend s ((Encoder.encode name payload).take k)) = true := by
  refine atRest_of_lt_bytesDropped_extend (x := (Encoder.encode name payload).drop k) ?_
  have removed :
      bytesDropped (selected (extend s (Encoder.encode name payload))) = (Encoder.encode name payload).length := by
    rw [selected_extend_encode empty wellFormed lenFits, Wire.length_encode]
    rfl
  rw [extend_extend, List.take_append_drop, removed]
  simpa [empty] using hk

/-- R123: the frame's bytes, one after the other on an empty buffer, count one good frame. -/
theorem putBytes_encode (hf : s.fault = false) (empty : s.residual = []) (frame : Sendable s.cfg name seed len)
    (generated : payload = Pattern.generate seed len) :
    putBytes (Encoder.encode name payload) s = .next (acceptGoodFrame name payload s) := by
  have length : payload.length = len := by simp [generated]
  have total : (Encoder.encode name payload).length = 94 + name.length + (Encoder.dec len).length + len + 1 := by
    rw [Wire.length_encode, Wire.delimIndex, Wire.delimLen, length]
    omega
  have rest {k : Nat} (hk : k < (Encoder.encode name payload).length) :=
    atRest_extend_take_encode empty frame.wellFormed (length ▸ frame.lenFits) hk
  have run := decodeLoop_extend_encode hf empty frame generated
  have fits : testCapacity (acceptGoodFrame name payload s) = acceptGoodFrame name payload s := by
    have room : overflow (acceptGoodFrame name payload s) = false := by
      simpa [overflow, acceptGoodFrame, empty] using within_of_le (Nat.zero_le _) frame.capacity
    simp [testCapacity, room]
  obtain ⟨front, last, split⟩ : ∃ front last, Encoder.encode name payload = front ++ [last] :=
    ⟨_, _, (List.dropLast_append_getLast (List.ne_nil_of_length_pos (by omega))).symm⟩
  rw [split] at rest run total ⊢
  rw [List.length_append, List.length_singleton] at rest total
  rw [← fits]
  refine putBytes_concat_of_rest hf (fun k hk => ?_) ?_ run
  · have held := rest (Nat.lt_succ_of_le hk)
    rwa [List.take_append_of_le_length hk] at held
  · rw [empty, List.length_nil, Nat.zero_add, Nat.succ.inj total]
    exact frame.capacity

end Frame

/-- Settles O32: the frame's bytes count it, and its operation is their WRITE. -/
theorem encodedFrameCountsAsOneGoodFrame : Obligations.EncodedFrameCountsAsOneGoodFrame := by
  rintro s name seed len hf empty registered wellFormed lenFits short capacity payload bytes t generated rfl rfl
  have length : payload.length = len := by simp [generated]
  have written : exec (.write (Encoder.encode name payload)) s =
      .next (returnValue (acceptGoodFrame name payload s) (.accepted (Encoder.encode name payload).length)) :=
    acceptBytes_eq_next.mpr
      ⟨_, putBytes_encode hf empty ⟨registered, wellFormed, lenFits, short, capacity⟩ generated, rfl⟩
  rw [exec_frame_eq_write (length ▸ short), written, acceptGoodFrame, length]
  exact ⟨rfl, rfl⟩

/-! ## Frames back to back -/

/-- What `n` good frames on an empty buffer do to what the host sees: `goodFrames` rises by one each, up to its largest
value (R24), the error counters stay, and the sink is left synchronised, empty and without a fault (R123). -/
structure CountsGood (n : Nat) (s t : State) : Prop where
  goodFrames : t.goodFrames.toNat = min (s.goodFrames.toNat + n) (2 ^ 64 - 1)
  framingErr : t.framingErr = s.framingErr
  protocolErr : t.protocolErr = s.protocolErr
  checksumErr : t.checksumErr = s.checksumErr
  patternErr : t.patternErr = s.patternErr
  residual : t.residual = []
  fault : t.fault = false
  sync : 0 < n → t.sync = true

/-- The bytes of frames back to back (R123). -/
def framesBytes (frames : List (List Byte × NEBytes × Nat)) : List Byte :=
  frames.flatMap fun f => Encoder.encode f.1 (Pattern.generate f.2.1 f.2.2)

/-- R123: good frames back to back count one each. -/
theorem putBytes_framesBytes {frames : List (List Byte × NEBytes × Nat)} {s : State} (hf : s.fault = false)
    (empty : s.residual = []) (sendable : ∀ f ∈ frames, Sendable s.cfg f.1 f.2.1 f.2.2) :
    ∃ t, putBytes (framesBytes frames) s = .next t ∧ CountsGood frames.length s t := by
  induction frames generalizing s with
  | nil =>
    have := s.goodFrames.isLt
    exact ⟨s, rfl, by simp; omega, rfl, rfl, rfl, rfl, empty, hf, fun h => absurd h (Nat.lt_irrefl 0)⟩
  | cons f frames ih =>
    obtain ⟨first, others⟩ := List.forall_mem_cons.mp sendable
    have counted := putBytes_encode hf empty first rfl
    obtain ⟨t, run, count⟩ := ih (s := acceptGoodFrame f.1 (Pattern.generate f.2.1 f.2.2) s) hf empty others
    refine ⟨t, ?_, ?_, count.framingErr, count.protocolErr, count.checksumErr, count.patternErr, count.residual,
      count.fault, fun _ => ?_⟩
    · rw [framesBytes, List.flatMap_cons, putBytes_append, counted, andThen_next]
      exact run
    · have step : (acceptGoodFrame f.1 (Pattern.generate f.2.1 f.2.2) s).goodFrames = inc s.goodFrames := rfl
      rw [count.goodFrames, step, toNat_inc, List.length_cons]
      omega
    · cases frames with
      | nil => cases run; rfl
      | cons g frames => exact count.sync (Nat.succ_pos _)

/-! ## One byte a write -/

/-- No micro-step reads the value returned before it. -/
theorem microEffect_returnValue (m : MicroStep) (s : State) (v : Result) :
    microEffect m (returnValue s v) = returnValue (microEffect m s) v := by
  cases m with
  | scanWait | scanDropEdge | scanDrop | hdrWait | hdrReject | payloadWait => rfl
  | resolve d name len hex =>
    simp only [microEffect, resolveFrame, memRead, returnValue_residual, returnValue_cfg]
    generalize checksumGood hex _ = good
    generalize patternResult s.cfg.catalog name _ = pattern
    cases good <;> cases pattern <;> rfl

/-- The loop does not read the value returned before it. -/
theorem decodeLoop_returnValue {s t : State} (v : Result) (hf : s.fault = false) (h : decodeLoop s = .next t) :
    decodeLoop (returnValue s v) = .next (returnValue t v) := by
  revert hf h
  refine loop_induction (P := fun s => s.fault = false → decodeLoop s = .next t →
    decodeLoop (returnValue s v) = .next (returnValue t v)) ?_ ?_ s
  · intro s rest hf h
    cases eq_of_decodeLoop_of_atRest rest h
    exact decodeLoop_of_atRest (s := returnValue t v) hf rest
  · intro s busy ih hf h
    obtain ⟨hashed, run⟩ := decodeLoop_microEffect_of_not_atRest busy h
    have first : micro (returnValue s v) = .next (returnValue (microEffect (selected s) s) v) :=
      micro_eq_next.mpr ⟨hf, hashed, (microEffect_returnValue _ s v).symm⟩
    rw [decodeLoop_of_not_atRest (s := returnValue s v) busy, first, andThen_next]
    exact ih ((microEffect_frame _ s).2.1.trans hf) run

/-- An accepted byte does not read the value returned before it. -/
theorem putByte_returnValue {b : Byte} {s t : State} (v : Result) (h : putByte b s = .next t) :
    putByte b (returnValue s v) = .next (returnValue t v) := by
  obtain ⟨hf, rest, u, run, rfl⟩ := putByte_eq_next.mp h
  refine putByte_eq_next.mpr ⟨hf, rest, returnValue u v, decodeLoop_returnValue (s := append s b) v hf run, ?_⟩
  rw [testCapacity_eq, testCapacity_eq]
  rfl

/-- Accepted bytes do not read the value returned before them. -/
theorem putBytes_returnValue {bs : List Byte} {s t : State} (v : Result) (h : putBytes bs s = .next t) :
    putBytes bs (returnValue s v) = .next (returnValue t v) := by
  induction bs generalizing s with
  | nil => cases h; rfl
  | cons b bs ih =>
    obtain ⟨u, byte, run⟩ := putBytes_cons_eq_next.mp h
    exact putBytes_cons_eq_next.mpr ⟨_, putByte_returnValue v byte, ih run⟩

/-- R156: bytes that are accepted are accepted one per WRITE, with the same state apart from the value returned. -/
theorem foldl_write_singleton {bs : List Byte} {s t : State} (h : putBytes bs s = .next t) :
    ∃ v, bs.foldl (fun o b => andThen o (exec (.write [b]))) (.next s) = .next (returnValue t v) := by
  induction bs generalizing s t with
  | nil => cases h; exact ⟨s.result, rfl⟩
  | cons b bs ih =>
    obtain ⟨u, byte, run⟩ := putBytes_cons_eq_next.mp h
    have written : exec (.write [b]) s = .next (returnValue u (.accepted 1)) :=
      acceptBytes_eq_next.mpr ⟨u, putBytes_singleton byte, rfl⟩
    obtain ⟨v, rest⟩ := ih (putBytes_returnValue (.accepted 1) run)
    refine ⟨v, ?_⟩
    rw [List.foldl_cons, andThen_next, written, rest]
    rfl

/-- Settles O33: the frames' bytes count them, and one byte per WRITE changes only the value returned. -/
theorem backToBackFramesCountEach : Obligations.BackToBackFramesCountEach := by
  rintro frames s hf empty each bytes rfl
  have sendable (f : List Byte × NEBytes × Nat) (mem : f ∈ frames) : Sendable s.cfg f.1 f.2.1 f.2.2 := by
    obtain ⟨registered, wellFormed, lenFits, short, capacity⟩ := each f mem
    exact ⟨registered, wellFormed, lenFits, short, capacity⟩
  obtain ⟨t, run, count⟩ := putBytes_framesBytes hf empty sendable
  obtain ⟨v, single⟩ := foldl_write_singleton run
  refine ⟨_, acceptBytes_eq_next.mpr ⟨t, run, rfl⟩, ?_, count.goodFrames, count.framingErr, count.protocolErr,
    count.checksumErr, count.patternErr, count.residual, count.fault, fun h => count.sync (List.length_pos_of_ne_nil h)⟩
  rw [framesBytes] at single
  rw [single]
  rfl

end Machine

end Sys2Proof

/-! SUPPORT. SHA-256 (R130 to R138) and HEXLOWER (R139): the bytes of a number, the padding, the schedule, the words of the
padded message and the hash value behind each of its blocks. -/

namespace Sys2Proof

namespace Sha256

/-! ## HEXLOWER -/

/-- HEXDIGIT as a number (R139). -/
theorem hexDigit_eq_ofNat (v : Nat) : hexDigit v = BitVec.ofNat 8 (if v ≤ 9 then 0x30 + v else 0x61 + (v - 10)) :=
  (apply_ite (BitVec.ofNat 8) _ _ _).symm

/-- The two characters of byte `i` stand at `2i` and `2i + 1` (R139). -/
theorem getElem?_hexLower {b : List Byte} {i : Nat} {x : Byte} (h : b[i]? = some x) :
    (hexLower b)[2 * i]? = some (hexDigit (x.toNat / 16)) ∧
      (hexLower b)[2 * i + 1]? = some (hexDigit (x.toNat % 16)) := by
  induction b generalizing i with
  | nil => cases h
  | cons y b ih =>
    cases i with
    | zero => cases h; exact ⟨rfl, rfl⟩
    | succ i => exact ih h

/-! ## Numbers as bytes, and the padding -/

/-- Byte `i` of the `n` bytes of a number has `n - 1 - i` bytes behind it (R134, R138). -/
theorem bigEndian_eq_map (n v : Nat) :
    bigEndian n v = (List.range n).map fun i => BitVec.ofNat 8 (v >>> (8 * (n - 1 - i))) := by
  induction n with
  | zero => rfl
  | succ n ih =>
    have first : v / 256 ^ n = v >>> (8 * n) := by rw [Nat.shiftRight_eq_div_pow, Nat.pow_mul]
    have behind (i : Nat) : n + 1 - 1 - (i + 1) = n - 1 - i := by omega
    rw [bigEndian, ih, first, List.range_succ_eq_map, List.map_cons, List.map_map]
    simp only [Function.comp_def, Nat.succ_eq_add_one, behind]
    rfl

/-- The four bytes of a word (R138). -/
theorem wordBytes_eq (w : Word) :
    wordBytes w = [w.extractLsb' 24 8, w.extractLsb' 16 8, w.extractLsb' 8 8, w.extractLsb' 0 8] :=
  bigEndian_eq_map 4 w.toNat

/-- The padded message fills whole blocks (R134). -/
theorem length_pad (msg : List Byte) :
    (pad msg).length = 64 * (msg.length / 64 + (if msg.length % 64 ≤ 55 then 1 else 2)) := by
  simp only [pad, List.length_append, List.length_singleton, List.length_replicate, length_bigEndian, padZeros]
  split <;> omega

/-! ## The schedule -/

/-- For 0 < n < 32, ROTR is the rotation of a word (R131). -/
theorem rotr_eq_rotateRight (x : Word) {n : Nat} (h : n < 32) : rotr x n = x.rotateRight n := by
  rw [BitVec.rotateRight_def, Nat.mod_eq_of_lt h, rotr]

/-- Σ0 by rotations (R131). -/
theorem bigSigma0_eq (x : Word) : bigSigma0 x = x.rotateRight 2 ^^^ x.rotateRight 13 ^^^ x.rotateRight 22 := by
  simp [bigSigma0, rotr_eq_rotateRight]

/-- Σ1 by rotations (R131). -/
theorem bigSigma1_eq (x : Word) : bigSigma1 x = x.rotateRight 6 ^^^ x.rotateRight 11 ^^^ x.rotateRight 25 := by
  simp [bigSigma1, rotr_eq_rotateRight]

/-- σ0 by rotations (R131). -/
theorem smallSigma0_eq (x : Word) : smallSigma0 x = x.rotateRight 7 ^^^ x.rotateRight 18 ^^^ x >>> 3 := by
  simp [smallSigma0, shr, rotr_eq_rotateRight]

/-- σ1 by rotations (R131). -/
theorem smallSigma1_eq (x : Word) : smallSigma1 x = x.rotateRight 17 ^^^ x.rotateRight 19 ^^^ x >>> 10 := by
  simp [smallSigma1, shr, rotr_eq_rotateRight]

/-- `W[t]` from the words before it, newest first (R136). -/
def nextWord (w : List Word) : Word := smallSigma1 (w.getD 1 0) + w.getD 6 0 + smallSigma0 (w.getD 14 0) + w.getD 15 0

/-- The last of `n + 1` more words comes from all the words before it (R136). -/
theorem extend_succ (n : Nat) (w : List Word) : extend (n + 1) w = nextWord (extend n w) :: extend n w := by
  induction n generalizing w with
  | zero => rfl
  | succ n ih => exact ih (nextWord w :: w)

@[simp] theorem length_extend (n : Nat) (w : List Word) : (extend n w).length = w.length + n := by
  induction n with
  | zero => rfl
  | succ n ih => rw [extend_succ, List.length_cons, ih, Nat.add_assoc]

/-- More words push the words so far back and change none (R136). -/
theorem getElem?_extend_add (m n k : Nat) (w : List Word) : (extend (n + m) w)[m + k]? = (extend n w)[k]? := by
  induction m with
  | zero => rw [Nat.add_zero, Nat.zero_add]
  | succ m ih => rw [← Nat.add_assoc, extend_succ, Nat.add_right_comm, List.getElem?_cons_succ, ih]

section Schedule

variable {block : List Word} (hb : block.length = 16)
include hb

theorem length_schedule : (schedule block).length = 64 := by simp [schedule, hb]

/-- Behind `n` further words, the schedule's word `k + 1` back is the `k`-th newest (R136). -/
theorem getElem?_schedule_back {n k : Nat} (hn : n ≤ 48) (hk : k < 16 + n) :
    (schedule block)[16 + n - (k + 1)]? = (extend n block.reverse)[k]? := by
  have total : (extend 48 block.reverse).length = 64 := by simp [hb]
  have place : 64 - 1 - (16 + n - (k + 1)) = 48 - n + k := by omega
  have pushed := getElem?_extend_add (48 - n) n k block.reverse
  rw [Nat.add_sub_cancel' hn] at pushed
  rw [schedule, List.getElem?_reverse (by omega), total, place, pushed]

/-- The schedule begins with the block (R136). -/
theorem getElem?_schedule_of_lt {t : Nat} (ht : t < 16) : (schedule block)[t]? = block[t]? := by
  have back : 16 + 0 - (15 - t + 1) = t := by omega
  have place : 16 - 1 - (15 - t) = t := by omega
  have kept := getElem?_schedule_back hb (n := 0) (k := 15 - t) (by omega) (by omega)
  rwa [back, extend, List.getElem?_reverse (by omega), hb, place] at kept

/-- From the seventeenth on, a word is the next one behind the words before it (R136). -/
theorem getElem?_schedule_of_ge {n : Nat} (hn : n < 48) :
    (schedule block)[16 + n]? = some (nextWord (extend n block.reverse)) := by
  have newest := getElem?_schedule_back hb (n := n + 1) (k := 0) hn (by omega)
  rwa [extend_succ] at newest

/-- Word `16 + n` comes from the words 2, 7, 15 and 16 places before it (R136). -/
theorem schedule_recurrence {n : Nat} {w2 w7 w15 w16 : Word} (hn : n < 48)
    (h2 : (schedule block)[16 + n - 2]? = some w2) (h7 : (schedule block)[16 + n - 7]? = some w7)
    (h15 : (schedule block)[16 + n - 15]? = some w15) (h16 : (schedule block)[16 + n - 16]? = some w16) :
    (schedule block)[16 + n]? = some (smallSigma1 w2 + w7 + smallSigma0 w15 + w16) := by
  have back {k : Nat} {w : Word} (hk : k < 16) (h : (schedule block)[16 + n - (k + 1)]? = some w) :
      (extend n block.reverse).getD k 0 = w := by
    rw [getElem?_schedule_back hb hn.le (by omega)] at h
    rw [List.getD_eq_getElem?_getD, h, Option.getD_some]
  rw [getElem?_schedule_of_ge hb hn, nextWord, back (k := 1) (by decide) h2, back (k := 6) (by decide) h7,
    back (k := 14) (by decide) h15, back (k := 15) (by decide) h16]

end Schedule

/-! ## The words of the padded message -/

/-- The word of the four bytes from index `k` on, most significant first (R135). -/
def wordAt (p : List Byte) (k : Nat) : Word := p.getD k 0 ++ p.getD (k + 1) 0 ++ p.getD (k + 2) 0 ++ p.getD (k + 3) 0

/-- The 16 words of block `i` (R135). -/
def blockAt (p : List Byte) (i : Nat) : List Word := (List.range 16).map fun t => wordAt p (64 * i + 4 * t)

theorem length_blockAt (p : List Byte) (i : Nat) : (blockAt p i).length = 16 := by simp [blockAt]

/-- What does not begin with four bytes has fewer than four. -/
theorem length_lt_four {p : List Byte} (short : ∀ b0 b1 b2 b3 rest, p = b0 :: b1 :: b2 :: b3 :: rest → False) :
    p.length < 4 := by
  match p, short with
  | [], _ | [_], _ | [_, _], _ | [_, _, _], _ => simp
  | b0 :: b1 :: b2 :: b3 :: rest, short => exact (short b0 b1 b2 b3 rest rfl).elim

/-- Four bytes make a word (R135). -/
theorem length_toWords (p : List Byte) : (toWords p).length = p.length / 4 := by
  fun_induction toWords p with
  | case1 b0 b1 b2 b3 rest ih =>
    simp only [List.length_cons, ih]
    omega
  | case2 p short => exact (Nat.div_eq_of_lt (length_lt_four short)).symm

/-- Word `t` is made of the four bytes from `4t` on (R135). -/
theorem getElem?_toWords {p : List Byte} {t : Nat} (h : 4 * t + 3 < p.length) :
    (toWords p)[t]? = some (wordAt p (4 * t)) := by
  fun_induction toWords p generalizing t with
  | case1 b0 b1 b2 b3 rest ih =>
    cases t with
    | zero => rfl
    | succ t => exact ih (by simp only [List.length_cons] at h; omega)
  | case2 p short =>
    have := length_lt_four short
    omega

/-- Sixteen words in their place are a block (R135). -/
theorem take_drop_toWords {p : List Byte} {i : Nat} (h : 64 * (i + 1) ≤ p.length) :
    ((toWords p).drop (16 * i)).take 16 = blockAt p i := by
  refine List.ext_getElem? fun t => ?_
  obtain ht | ht := Nat.lt_or_ge t 16
  · have index : 4 * (16 * i + t) = 64 * i + 4 * t := by omega
    rw [List.getElem?_take_of_lt ht, List.getElem?_drop, getElem?_toWords (by omega), index]
    simp [blockAt, ht]
  · have behind : (blockAt p i).length ≤ t := (length_blockAt p i).trans_le ht
    rw [List.getElem?_take_eq_none ht, List.getElem?_eq_none behind]

/-! ## The compression -/

/-- The working variables after `t` rounds on a block (R137). -/
def variablesAfter (v : Hash) (block : List Word) (t : Nat) : Hash :=
  ((roundConstants.zip (schedule block)).take t).foldl round v

/-- The hash value after the first `i` blocks of the padded message (R137). -/
def hashAfter (p : List Byte) : Nat → Hash
  | 0 => initial
  | i + 1 => compress (hashAfter p i) (blockAt p i)

/-- One more round, with its constant and its schedule word (R137). -/
theorem variablesAfter_succ (v : Hash) {block : List Word} (hb : block.length = 16) {t : Nat} (ht : t < 64) :
    variablesAfter v block (t + 1) =
      round (variablesAfter v block t) (roundConstants.getD t 0, (schedule block).getD t 0) := by
  have constant : t < roundConstants.length := ht
  have word : t < (schedule block).length := by rwa [length_schedule hb]
  have pair : (roundConstants.zip (schedule block))[t]? =
      some (roundConstants.getD t 0, (schedule block).getD t 0) := by
    rw [List.getElem?_zip_eq_some]
    simp [constant, word]
  rw [variablesAfter, List.take_add_one, pair, Option.toList_some, List.foldl_concat, variablesAfter]

/-- A block's compression adds the working variables after its 64 rounds (R137). -/
theorem compress_eq (v : Hash) {block : List Word} (hb : block.length = 16) {y : Hash}
    (hy : y = variablesAfter v block 64) :
    compress v block = { a := v.a + y.a, b := v.b + y.b, c := v.c + y.c, d := v.d + y.d,
                         e := v.e + y.e, f := v.f + y.f, g := v.g + y.g, h := v.h + y.h } := by
  have all : (roundConstants.zip (schedule block)).length ≤ 64 := by simp [length_schedule hb]
  rw [hy, variablesAfter, List.take_of_length_le all]
  rfl

/-- One more block stands behind the blocks before it (R137). -/
theorem compressBlocks_succ (n : Nat) (w : List Word) (v : Hash) :
    compressBlocks (n + 1) w v = compress (compressBlocks n w v) ((w.drop (16 * n)).take 16) := by
  induction n generalizing w v with
  | zero => rfl
  | succ n ih =>
    rw [compressBlocks, ih, compressBlocks, List.drop_drop, Nat.mul_succ, Nat.add_comm 16]

/-- The blocks of the message's words are compressed in order (R135, R137). -/
theorem compressBlocks_toWords {p : List Byte} {n : Nat} (h : 64 * n ≤ p.length) :
    compressBlocks n (toWords p) initial = hashAfter p n := by
  induction n with
  | zero => rfl
  | succ n ih => rw [compressBlocks_succ, ih (by omega), take_drop_toWords h, hashAfter]

/-- The digest is the hash value after all the blocks (R130, R138). -/
theorem sha256_eq_digestBytes (msg : List Byte) :
    sha256 msg = digestBytes (hashAfter (pad msg) ((pad msg).length / 64)) := by
  have blocks : (toWords (pad msg)).length / 16 = (pad msg).length / 64 := by
    rw [length_toWords, Nat.div_div_eq_div_mul]
  rw [sha256, blocks, compressBlocks_toWords (Nat.mul_div_le _ _)]

/-- The digest's bytes, word by word (R138). -/
theorem digestBytes_eq_flatMap (x : Hash) :
    digestBytes x = [x.a, x.b, x.c, x.d, x.e, x.f, x.g, x.h].flatMap fun w =>
      [w.extractLsb' 24 8, w.extractLsb' 16 8, w.extractLsb' 8 8, w.extractLsb' 0 8] := by
  simp [digestBytes, wordBytes_eq]

/-! ## The statements -/

/-- Settles O46: the hash values are those after each block, the working variables those after each round. -/
theorem sha256GivesThirtyTwoBytes : Obligations.Sha256GivesThirtyTwoBytes := by
  intro s msg short
  refine ⟨sha256 msg, Machine.whenDigestDefined_of_lt short, length_sha256 msg,
    fun i t => wordAt (pad msg) (64 * i + 4 * t), hashAfter (pad msg),
    fun i => variablesAfter (hashAfter (pad msg) i) (blockAt (pad msg) i), fun _ _ => rfl, rfl, fun _ => rfl,
    ?_, ?_, ?_⟩
  · rintro i t ht x t1 t2 rfl rfl rfl
    rw [← bigSigma0_eq, ← bigSigma1_eq]
    exact variablesAfter_succ _ (length_blockAt _ _) ht
  · rintro i x y rfl last
    exact compress_eq _ (length_blockAt _ _) last
  · rintro x rfl
    rw [sha256_eq_digestBytes, digestBytes_eq_flatMap]

/-- Settles O47, by computing the three digests. -/
theorem knownDigests : Obligations.KnownDigests := by
  rintro _ rfl
  refine ⟨?_, ?_, ?_⟩ <;> decide +kernel

/-- Settles O48: the zeros of R134 are fewer than 64, so none fewer reach the same remainder. -/
theorem paddingFillsWholeBlocks : Obligations.PaddingFillsWholeBlocks := by
  refine fun msg => ⟨padZeros msg.length, ?_, fun z fewer => ?_, ?_, length_pad msg⟩
  · rw [padZeros]; omega
  · rw [padZeros] at fewer; omega
  · rw [pad, bigEndian_eq_map]

/-- Settles O49: a word behind the block's is the next one of the words before it. -/
theorem scheduleFollowsTheRecurrence : Obligations.ScheduleFollowsTheRecurrence := by
  refine fun block hb => ⟨length_schedule hb, fun _ => getElem?_schedule_of_lt hb, ?_⟩
  intro t w2 w7 w15 w16 ge lt h2 h7 h15 h16
  obtain ⟨n, rfl⟩ := Nat.exists_eq_add_of_le ge
  rw [← smallSigma1_eq, ← smallSigma0_eq]
  exact schedule_recurrence hb (by omega) h2 h7 h15 h16

/-- Settles O50: the high nibble is the quotient by 16, the low one the remainder. -/
theorem hexLowerGivesTwoCharactersPerByte : Obligations.HexLowerGivesTwoCharactersPerByte := by
  refine fun s b => ⟨hexLower b, rfl, length_hexLower b, fun HexDigit digit i x h => ?_⟩
  have low : x.toNat &&& 0x0F = x.toNat % 16 := Nat.and_two_pow_sub_one_eq_mod x.toNat 4
  rw [digit, digit, Nat.shiftRight_eq_div_pow, low, ← hexDigit_eq_ofNat, ← hexDigit_eq_ofNat]
  exact getElem?_hexLower h

end Sha256

end Sys2Proof

/-! SUPPORT. The decode loop as micro-steps alone (R154), and how many of them one Run performs (R157). -/

namespace Sys2Proof.Machine

/-- The selected micro-step as an operation is `Micro` (R154). -/
theorem exec_selected (s : State) : exec (selected s).toInstr s = micro s := exec_toInstr (selected s) s

/-- Where the loop ends, micro-steps that do not wait lead to (R154). -/
theorem runsTo_of_decodeLoop {s t : State} (h : decodeLoop s = .next t) : RunsTo s t := by
  revert h
  refine loop_induction (P := fun s => decodeLoop s = .next t → RunsTo s t) ?_ ?_ s
  · intro s rest h
    cases eq_of_decodeLoop_of_atRest rest h
    exact .refl
  · intro s busy ih h
    rw [decodeLoop_of_not_atRest busy, andThen_eq_next] at h
    obtain ⟨u, first, run⟩ := h
    obtain ⟨-, -, rfl⟩ := micro_eq_next.mp first
    exact .head ⟨busy, (exec_selected s).trans first⟩ (ih run)

/-- The least number of bytes R157 counts for a micro-step. -/
def leastDropped (m : MicroStep) : Nat := if m.isRest = true then 0 else if MicroStep.endsHeader m = true then 13 else 1

/-- A micro-step whose guard holds removes at least what R157 counts for it. -/
theorem leastDropped_le_of_guard {c : Config} {r : List Byte} {sync : Bool} {m : MicroStep}
    (guard : microGuard c r sync m = true) : leastDropped m ≤ bytesDropped m := by
  unfold leastDropped
  split_ifs with rest ends
  · exact Nat.zero_le _
  · exact bytesDropped_of_endsHeader guard (of_decide_eq_true ends)
  · exact bytesDropped_pos (Bool.eq_false_iff.mpr rest)

/-- What R157 counts for a micro-step is missing from `residual` behind it. -/
theorem length_microEffect_add_le {m : MicroStep} {s : State} (guard : microGuard s.cfg s.residual s.sync m = true) :
    (microEffect m s).residual.length + leastDropped m ≤ s.residual.length := by
  have least := leastDropped_le_of_guard guard
  have most := bytesDropped_le_of_guard guard
  rw [microEffect_residual, List.length_drop]
  omega

/-- At rest a Run is the wait. -/
theorem loopTrace_of_atRest {s : State} (n : Nat) (rest : atRest s = true) : loopTrace (n + 1) s = [selected s] := by
  simp only [loopTrace, rest, if_true]

/-- Off rest a Run is the selected micro-step, and the Run behind it. -/
theorem loopTrace_of_not_atRest {s t : State} (n : Nat) (busy : atRest s = false) (first : micro s = .next t) :
    loopTrace (n + 1) s = selected s :: loopTrace n t := by
  simp only [loopTrace, busy, exec_selected, first, Bool.false_eq_true, if_false]

/-- What R157 says of the micro-steps of a Run on `m` bytes: at most `m` that do not wait, each that ends a header at the
cost of 13 bytes, then one wait. -/
def RunBounded (m : Nat) (trace : List MicroStep) : Prop :=
  ∃ front last, trace = front ++ [last] ∧ last.isRest = true ∧ (∀ before ∈ front, before.isRest = false) ∧
    front.length ≤ m ∧ 13 * front.countP MicroStep.endsHeader ≤ m

/-- One wait is bounded by any number of bytes. -/
theorem runBounded_singleton {last : MicroStep} (m : Nat) (wait : last.isRest = true) : RunBounded m [last] :=
  ⟨[], last, rfl, wait, by simp⟩

/-- A micro-step that does not wait, in front of a bounded Run, is paid for by the bytes it removes. -/
theorem RunBounded.cons {m k : Nat} {first : MicroStep} {trace : List MicroStep} (bounded : RunBounded k trace)
    (going : first.isRest = false) (paid : k + leastDropped first ≤ m) : RunBounded m (first :: trace) := by
  obtain ⟨front, last, rfl, wait, before, length, headers⟩ := bounded
  refine ⟨first :: front, last, rfl, wait, List.forall_mem_cons.mpr ⟨going, before⟩, ?_, ?_⟩
  all_goals
    rw [leastDropped, going, if_neg Bool.false_ne_true] at paid
    simp only [List.length_cons, List.countP_cons]
    split_ifs at paid ⊢ <;> omega

/-- Every Run is bounded by the bytes it starts with (R157). -/
theorem runBounded_loopTrace {s : State} (hf : s.fault = false) (hl : s.residual.length < 2 ^ 61) :
    ∀ n, s.residual.length < n → RunBounded s.residual.length (loopTrace n s) := by
  revert hf hl
  refine loop_induction (P := fun s => s.fault = false → s.residual.length < 2 ^ 61 →
    ∀ n, s.residual.length < n → RunBounded s.residual.length (loopTrace n s)) ?_ ?_ s
  · intro s rest _ _ n hn
    obtain ⟨k, rfl⟩ := Nat.exists_eq_add_of_lt hn
    rw [loopTrace_of_atRest _ rest]
    exact runBounded_singleton _ rest
  · intro s busy ih hf hl n hn
    obtain ⟨k, rfl⟩ := Nat.exists_eq_add_of_lt hn
    have shorter := length_microEffect_lt busy
    have behind := ih ((microEffect_frame _ s).2.1.trans hf) (shorter.trans hl) (s.residual.length + k) (by omega)
    rw [loopTrace_of_not_atRest _ busy (micro_of_length hf hl)]
    exact behind.cons busy (length_microEffect_add_le (microGuard_select s.cfg s.residual s.sync))

/-- Settles O23: each micro-step pays for itself in bytes, the loop completes, and its trace is bounded by what it pays. -/
theorem runEndsWithinItsBound : Obligations.RunEndsWithinItsBound := by
  refine ⟨fun m s t h => ?_, fun s hf hl => ⟨?_, runBounded_loopTrace hf hl⟩⟩
  · rw [exec_toInstr, runMicroStep_eq_next] at h
    obtain ⟨-, guard, -, rfl⟩ := h
    exact length_microEffect_add_le guard
  · obtain ⟨t, run⟩ := exists_decodeLoop_eq_next hf hl
    exact ⟨t, run, runsTo_of_decodeLoop run, atRest_of_decodeLoop run⟩

end Sys2Proof.Machine

/-! SUPPORT. PUTBYTE and WRITE (R152, R153, R156): a chunk byte after byte, joined chunks, and the source's formulation. -/

namespace Sys2Proof.Machine

/-! ## Chains -/

/-- A chain of three parts may be cut at either joint. -/
theorem andThen_assoc (o : Answer) (f g : State → Answer) :
    andThen (andThen o f) g = andThen o fun t => andThen (f t) g := by
  cases o <;> rfl

/-- What follows a guarded micro-step is guarded with it. -/
theorem andThen_whenGuarded (m : MicroStep) (s : State) (k : Answer) (f : State → Answer) :
    andThen (whenGuarded m s k) f = whenGuarded m s (andThen k f) := by
  unfold whenGuarded
  split_ifs <;> rfl

/-- What follows the computation of a digest happens where the digest is defined. -/
theorem andThen_whenDigestDefined (n : Nat) (k : Answer) (f : State → Answer) :
    andThen (whenDigestDefined n k) f = whenDigestDefined n (andThen k f) := by
  unfold whenDigestDefined
  split_ifs <;> rfl

/-- An answer with another value returned. -/
def withResult (v : Result) (o : Answer) : Answer := andThen o fun t => .next (returnValue t v)

/-- Accepted bytes are the bytes, with their number returned (R152). -/
theorem acceptBytes_eq (bs : List Byte) (s : State) :
    acceptBytes bs s = withResult (.accepted bs.length) (putBytes bs s) := rfl

/-- To forget the value returned is to return none. -/
theorem answerForgetResult_eq (o : Answer) : answerForgetResult o = withResult .none o := by
  cases o <;> rfl

/-- The last value returned counts. -/
theorem withResult_withResult (v w : Result) (o : Answer) : withResult w (withResult v o) = withResult w o := by
  cases o <;> rfl

/-- A chain returns what its last part returns. -/
theorem withResult_andThen (v : Result) (o : Answer) (k : State → Answer) :
    withResult v (andThen o k) = andThen o fun t => withResult v (k t) := andThen_assoc o k _

/-- A chain goes on from the value returned. -/
theorem andThen_withResult (v : Result) (o : Answer) (k : State → Answer) :
    andThen (withResult v o) k = andThen o fun t => k (returnValue t v) := andThen_assoc o _ k

/-! ## The value returned before an operation changes none of its answers -/

/-- `Micro` carries the value returned before it through, whatever it answers. -/
theorem micro_returnValue (s : State) (v : Result) : micro (returnValue s v) = withResult v (micro s) := by
  show runMicroStep (selected s) (returnValue s v) = andThen (runMicroStep (selected s) s) _
  rw [runMicroStep_eq, runMicroStep_eq, andThen_whenGuarded, andThen_whenDigestDefined, andThen_next,
    microEffect_returnValue]
  rfl

/-- At rest the loop is the wait (R154). -/
theorem decodeLoop_eq_micro {s : State} (rest : atRest s = true) : decodeLoop s = micro s := if_pos rest

/-- The loop carries the value returned before it through, whatever it answers. -/
theorem decodeLoop_returnValue_eq (s : State) (v : Result) : decodeLoop (returnValue s v) = withResult v (decodeLoop s) := by
  refine loop_induction (P := fun s => decodeLoop (returnValue s v) = withResult v (decodeLoop s)) ?_ ?_ s
  · intro s rest
    rw [decodeLoop_eq_micro (s := returnValue s v) rest, decodeLoop_eq_micro rest, micro_returnValue]
  · intro s busy ih
    rw [decodeLoop_of_not_atRest (s := returnValue s v) busy, decodeLoop_of_not_atRest busy, micro_returnValue,
      andThen_withResult, withResult_andThen]
    cases first : micro s with
    | next t =>
      obtain ⟨-, -, rfl⟩ := micro_eq_next.mp first
      exact ih
    | fault r => rfl
    | refused r => rfl

/-- PUTBYTE carries the value returned before it through, whatever it answers. -/
theorem putByte_returnValue_eq (b : Byte) (s : State) (v : Result) :
    putByte b (returnValue s v) = withResult v (putByte b s) := by
  have loop : decodeLoop (append (returnValue s v) b) = withResult v (decodeLoop (append s b)) :=
    decodeLoop_returnValue_eq (append s b) v
  have rest : atRest (returnValue s v) = atRest s := rfl
  unfold putByte
  rw [returnValue_fault, rest, loop]
  split_ifs
  · rfl
  · cases decodeLoop (append s b) with
    | next u =>
      simp only [withResult, andThen_next, testCapacity_eq]
      rfl
    | fault r => rfl
    | refused r => rfl
  · rfl

/-- A chunk's bytes carry the value returned before them through, whatever they answer. -/
theorem putBytes_returnValue_eq (bs : List Byte) (s : State) (v : Result) :
    putBytes bs (returnValue s v) = withResult v (putBytes bs s) := by
  induction bs generalizing s with
  | nil => rfl
  | cons b bs ih =>
    simp only [putBytes]
    rw [putByte_returnValue_eq, andThen_withResult, withResult_andThen]
    exact congrArg _ (funext ih)

/-! ## The statements -/

/-- Settles O17: the loop completes on the longer buffer, and the capacity test finds `fault` as it was. -/
theorem putbyteAppendsRunsAndTests : Obligations.PutbyteAppendsRunsAndTests := by
  intro s b hf rest short
  obtain ⟨u, run⟩ := exists_decodeLoop_eq_next (s := append s b) hf (by simpa using short)
  obtain ⟨rest', hcfg, hfault⟩ := (keptByMicro_cfg_fault (append s b)).decodeLoop ⟨rfl, rfl⟩ run
  have noFault : u.fault = false := hfault.trans hf
  refine ⟨u, runsTo_of_decodeLoop run, rest', putByte_eq_next.mpr ⟨hf, rest, u, run, ?_⟩⟩
  rw [testCapacity_eq, noFault, Bool.false_or, overflow, hcfg, append_cfg]
  cases s.cfg.residualCap with
  | none => rfl
  | some cap => simp only [Wire.within, ← decide_not, Nat.not_le]

/-- Settles O20: bytes that find room are accepted one after the other. -/
theorem writeAcceptsEveryByte : Obligations.WriteAcceptsEveryByte := fun _ _ live room => acceptBytes_of_room live room

/-- Settles O21: a chunk's bytes are a chain, and the last value returned counts. -/
theorem writeIsPutbyteOfEachByte : Obligations.WriteIsPutbyteOfEachByte := by
  refine fun s => ⟨rfl, fun b bs => ?_⟩
  calc exec (.write (b :: bs)) s
      = withResult (.accepted (bs.length + 1)) (andThen (putByte b s) (putBytes bs)) := rfl
    _ = andThen (putByte b s) fun u => withResult (.accepted (bs.length + 1)) (putBytes bs u) := withResult_andThen _ _ _
    _ = andThen (putByte b s) fun u => withResult (.accepted (bs.length + 1)) (acceptBytes bs u) := by
      simp only [acceptBytes_eq, withResult_withResult]

/-- The state apart from `fault`, which the source's formulation does not write (R156). -/
def clearFault (s : State) : State := { s with fault := false }

/-- Without a fault there is none to clear. -/
theorem clearFault_of_live {s : State} (hf : s.fault = false) : clearFault s = s := by
  rw [clearFault, ← hf]

/-- The capacity test sets `fault` alone (R58). -/
theorem clearFault_testCapacity (s : State) : clearFault (testCapacity s) = clearFault s := by
  rw [testCapacity_eq, clearFault, clearFault]

/-- What a chunk's bytes leave is what one loop behind all of them leaves, apart from `fault` (R156). -/
theorem decodeLoop_extend_of_putBytes {s t : State} {bs : List Byte} (rest : atRest s = true)
    (h : putBytes bs s = .next t) : decodeLoop (extend (clearFault s) bs) = .next (clearFault t) := by
  induction bs generalizing s with
  | nil =>
    cases h
    rw [extend_nil]
    exact decodeLoop_of_atRest (s := clearFault t) rfl rest
  | cons b bs ih =>
    obtain ⟨w, byte, behind⟩ := putBytes_cons_eq_next.mp h
    have later := ih (atRest_of_putByte byte) behind
    obtain ⟨hf, -, u, run, rfl⟩ := putByte_eq_next.mp byte
    obtain ⟨-, -, hfault⟩ := (keptByMicro_cfg_fault (append s b)).decodeLoop ⟨rfl, rfl⟩ run
    have noFault : u.fault = false := hfault.trans hf
    rw [clearFault_testCapacity, clearFault_of_live noFault] at later
    rw [clearFault_of_live hf, ← List.singleton_append, ← extend_extend, extend_singleton,
      decodeLoop_extend (append s b) _ hf, run, andThen_next, later]

/-- Settles O22: a joined chunk is a chain of its parts, and no part reads the value the one before it returned; one loop
behind the whole chunk does what the loops behind its bytes do. -/
theorem chunkBoundariesHaveNoMeaning : Obligations.ChunkBoundariesHaveNoMeaning := by
  refine ⟨fun s a b => ?_, fun s t c live h => ?_⟩
  · show answerForgetResult (andThen (acceptBytes a s) (acceptBytes b)) = answerForgetResult (acceptBytes (a ++ b) s)
    simp only [answerForgetResult_eq, acceptBytes_eq, putBytes_append, andThen_withResult, withResult_andThen,
      withResult_withResult, putBytes_returnValue_eq]
  · obtain ⟨hf, rest⟩ := live
    obtain ⟨u, run, rfl⟩ := acceptBytes_eq_next.mp h
    obtain ⟨-, -, -, result⟩ := (keptByBytes_frame s).putBytes ⟨rfl, rfl, rfl, rfl⟩ run
    have once := decodeLoop_extend_of_putBytes rest run
    rw [clearFault_of_live hf] at once
    rw [← result]
    exact once

end Sys2Proof.Machine

/-! SUPPORT. What the host reads (R30, R155, R160): the status items, the event output and the port list. -/

namespace Sys2Proof.Machine

/-- The word of STATUS as a number below 4 (R30). -/
theorem statusWord_eq (s : State) : statusWord s = BitVec.ofNat 64 (s.sync.toNat + 2 * s.fault.toNat) := by
  unfold statusWord
  cases s.sync <;> cases s.fault <;> rfl

/-- Bit 0 of STATUS is `sync` (R30). -/
theorem getLsbD_zero_statusWord (s : State) : (statusWord s).getLsbD 0 = s.sync := by
  rw [statusWord_eq]
  cases s.sync <;> cases s.fault <;> rfl

/-- Bit 1 of STATUS is `fault` (R30). -/
theorem getLsbD_one_statusWord (s : State) : (statusWord s).getLsbD 1 = s.fault := by
  rw [statusWord_eq]
  cases s.sync <;> cases s.fault <;> rfl

/-- The other bits of STATUS read as 0 (R30). -/
theorem getLsbD_statusWord_of_two_le {k : Nat} (s : State) (hk : 2 ≤ k) : (statusWord s).getLsbD k = false := by
  have small : s.sync.toNat + 2 * s.fault.toNat < 2 ^ k := by
    have := Nat.pow_le_pow_right (n := 2) (by decide) hk
    have := s.sync.toNat_lt
    have := s.fault.toNat_lt
    omega
  rw [statusWord_eq, BitVec.getLsbD_ofNat, Nat.testBit_lt_two_pow small, Bool.and_false]

/-- Where the spec gives the value of a status read (R62, R279). -/
theorem statusGiven_of_atRest {s : State} {sel : StatusSel} (rest : atRest s = true)
    (h : s.fault = false ∨ sel = .status) : statusGiven sel s = true := by
  obtain hf | rfl := h
  · simp [statusGiven, rest, hf]
  · simp [statusGiven, rest]

/-- A status read whose value the spec gives answers the item, and changes nothing else (R155). -/
theorem execReadStatus_of_given {sel : StatusSel} {s : State} (h : statusGiven sel s = true) :
    execReadStatus sel s = .next { s with result := .status (statusItem s sel) } := by
  rw [execReadStatus, h]
  rfl

/-- Settles O24: the item answered is the one of the status view. -/
theorem readStatusReturnsTheItem : Obligations.ReadStatusReturnsTheItem := by
  intro s sel rest h
  have item {other : StatusSel} (same : sel = other) : statusItem s sel = statusItem s other := congrArg _ same
  refine ⟨statusItem s sel, execReadStatus_of_given (statusGiven_of_atRest rest h), item, item, item, item, item, ?_, ?_⟩
  · rintro rfl
    exact ⟨getLsbD_zero_statusWord s, getLsbD_one_statusWord s, fun _ => getLsbD_statusWord_of_two_le s⟩
  · rintro rfl
    rw [statusItem, BitVec.toNat_ofNat]
    omega

/-- Settles O26: EMIT is the event output. -/
theorem emitAppendsOnlyWithDiag : Obligations.EmitAppendsOnlyWithDiag := fun _ _ => rfl

/-- A status output shows the item where the spec gives its value. -/
theorem statusOutput_of_given (free : StatusSel → Counter) {s : State} {sel : StatusSel} (h : statusGiven sel s = true) :
    statusOutput free s sel = statusItem s sel := if_pos h

/-- A wait emits no event (R159). -/
theorem microEvent_of_isRest (s : State) {m : MicroStep} (h : m.isRest = true) : microEvent s m = none := by
  cases m with
  | scanWait | hdrWait | payloadWait => rfl
  | scanDropEdge | scanDrop | hdrReject | resolve => cases h

/-- An event's code fits the three bits of `evt_code` (R226). -/
theorem toNat_evtCode (ev : Event) : (eventOutput ev).evtCode.toNat = eventCode ev := by
  have small : eventCode ev < 8 := by
    cases ev with
    | framingLoss | protocolError => simp [eventCode]
    | frame _ _ _ _ good pattern =>
      simp only [eventCode]
      split_ifs <;> omega
  rw [eventOutput, BitVec.toNat_ofNat, Nat.mod_eq_of_lt small]

/-- The log behind the selected micro-step: the event of the ports stands at its end, if there is one (R159, R160). -/
theorem eventLog_of_selected (free : StatusSel → Counter) {s t : State} (h : exec (selected s).toInstr s = .next t) :
    t.eventLog = s.eventLog ++ ((ports free s).evt.map EventOutput.event).toList := by
  obtain ⟨hf, hashed, rfl⟩ := micro_eq_next.mp ((exec_selected s).symm.trans h)
  rw [microEffect_eventLog _ _ hashed]
  cases hd : s.cfg.diag with
  | false => simp [ports, hd]
  | true => cases he : microEvent s (selected s) <;> simp [ports, hd, hf, he, eventOutput]

/-- What stands on the event outputs stands under its code (R226). -/
theorem toNat_evtCode_of_ports {free : StatusSel → Counter} {s : State} {o : EventOutput}
    (h : (ports free s).evt = some o) : o.evtCode.toNat = eventCode o.event := by
  have output : (microEvent s (selected s)).map eventOutput = some o := by
    simp only [ports] at h
    split_ifs at h
    exact h
  obtain ⟨ev, -, rfl⟩ := Option.map_eq_some_iff.mp output
  exact toNat_evtCode ev

/-- Settles O60: the status outputs are status items, and the event outputs are the log's next entry. -/
theorem portsShowTheStatusAndTheEvents : Obligations.PortsShowTheStatusAndTheEvents := by
  rintro free s p rfl
  refine ⟨fun rest hf => ?_, by simp [ports], fun rest hf => ⟨?_, if_neg ?_⟩, fun hd => by simp [ports, hd],
    fun t h => ⟨fun silent => ?_, fun o shown => ⟨?_, toNat_evtCode_of_ports shown⟩⟩⟩
  · have item (sel : StatusSel) : statusOutput free s sel = statusItem s sel :=
      statusOutput_of_given free (statusGiven_of_atRest rest (.inl hf))
    have wait : microEvent s (selected s) = none := microEvent_of_isRest s rest
    simp only [ports, item, wait, statusItem, getLsbD_zero_statusWord, getLsbD_one_statusWord, hf, Option.map_none,
      ite_self, and_self]
  · simp only [ports, statusOutput_of_given free (statusGiven_of_atRest rest (.inr rfl)), statusItem,
      getLsbD_one_statusWord, hf]
  · simp [(statusGiven_eq_false_iff .goodFrames s).mpr (.inr ⟨hf, by decide⟩)]
  · simpa [silent] using eventLog_of_selected free h
  · simpa [shown] using eventLog_of_selected free h

end Sys2Proof.Machine

/-! SUPPORT. Outside an operation's domain: overlapping writes (R153), digests that are not defined (R140), and reads past
the end of a function's bytes (R51). -/

namespace Sys2Proof.Machine

/-- A byte off rest overlaps a PUTBYTE (R153, U2). -/
theorem putByte_of_busy {s : State} (b : Byte) (hf : s.fault = false) (busy : atRest s = false) :
    putByte b s = .refused .overlappingWrite := by
  simp [putByte, hf, busy]

/-- A chunk of at least one byte off rest overlaps a PUTBYTE (R153, U2). -/
theorem acceptBytes_of_busy {s : State} (b : Byte) (bs : List Byte) (hf : s.fault = false) (busy : atRest s = false) :
    acceptBytes (b :: bs) s = .refused .overlappingWrite := by
  rw [acceptBytes_eq, putBytes, putByte_of_busy b hf busy]
  rfl

/-- A RESOLVE that the state selects, of a payload SHA-256 is not defined on (R140, U5). -/
theorem execResolve_of_ge {s : State} {d len : Nat} {name hex : List Byte} (hf : s.fault = false)
    (hsel : selected s = .resolve d name len hex) (long : 2 ^ 61 ≤ len) :
    execResolve d name len hex s = .refused .digestUndefined := by
  have guard : microGuard s.cfg s.residual s.sync (.resolve d name len hex) = true :=
    hsel ▸ microGuard_select s.cfg s.residual s.sync
  rw [execResolve, whenGuarded_of_guard hf guard, whenDigestDefined_of_ge long]

/-- A function that may read beyond its bytes sees some bytes there, up to where it may read. -/
theorem exists_readTo_eq_append (s : State) {r : List Byte} {n : Nat} (h : r.length < n) :
    ∃ beyond : List Byte, r.length + beyond.length = n ∧ readTo s r n = r ++ beyond := by
  refine ⟨_, ?_, rfl⟩
  rw [List.length_map, List.length_range']
  omega

/-- Such a reading counts a draw. -/
theorem drawTo_of_lt (s : State) {r : List Byte} {n : Nat} (h : r.length < n) :
    drawTo s r n = { s with openReads := s.openReads + 1 } := by
  rw [drawTo, if_pos h]

/-- A function that may read beyond its bytes answers what it answers on some longer bytes, and counts a draw. -/
theorem exists_beyond (s : State) {r : List Byte} {n : Nat} (f : List Byte → Result) (h : r.length < n) :
    ∃ beyond : List Byte, r.length + beyond.length = n ∧
      returnValue (drawTo s r n) (f (readTo s r n)) =
        { s with result := f (r ++ beyond), openReads := s.openReads + 1 } := by
  obtain ⟨beyond, length, bytes⟩ := exists_readTo_eq_append s h
  exact ⟨beyond, length, by rw [drawTo_of_lt s h, bytes, returnValue]⟩

/-- Settles O29: each refusal by its own lemma, and the three reads from one. -/
theorem outsideItsDomainAnOperationIsRefused : Obligations.OutsideItsDomainAnOperationIsRefused := by
  refine fun s => ⟨fun b => putByte_of_busy b, fun b bs => acceptBytes_of_busy b bs,
    fun d name len hex => execResolve_of_ge, fun msg => whenDigestDefined_of_ge,
    fun name payload long => ⟨whenDigestDefined_of_ge long, whenDigestDefined_of_ge long⟩,
    fun r d label run h => ?_, fun r d h => ?_, fun r i e h => ?_⟩
  · obtain ⟨beyond, length, answer⟩ := exists_beyond s (fun bytes => .field (Wire.findField s.cfg bytes d label run)) h
    exact ⟨beyond, length, congrArg _ answer⟩
  · obtain ⟨beyond, length, answer⟩ := exists_beyond s (fun bytes => .header (Wire.parse s.cfg bytes d)) h
    exact ⟨beyond, length, congrArg _ answer⟩
  · have past : r.length < max (i + 1) e := by omega
    obtain ⟨beyond, length, answer⟩ := exists_beyond s (fun bytes => .codePoint (Wire.utf8At bytes i e)) past
    exact ⟨beyond, length, congrArg _ answer⟩

end Sys2Proof.Machine

/-! SUPPORT. The micro-steps of the scanner and the waits (R171 to R173, R182, R201): a micro-step whose guard holds is its
effect; and where `sync` and the two counters of lost framing move (R174, R221, R222, R231). -/

namespace Sys2Proof.Machine

/-! ## A micro-step whose guard holds -/

/-- A micro-step whose own guard holds decides whether the sink rests, and answers its effect (R90, R154). -/
theorem exec_of_guard {m : MicroStep} {s : State} (hf : s.fault = false)
    (guard : microGuard s.cfg s.residual s.sync m = true) (hashed : microHashed m < 2 ^ 61) :
    atRest s = m.isRest ∧ exec m.toInstr s = .next (microEffect m s) :=
  ⟨congrArg _ (select_of_microGuard guard), (exec_toInstr m s).trans (runMicroStep_eq_next.mpr ⟨hf, guard, hashed, rfl⟩)⟩

/-- Behind a marker, while no delimiter has arrived, the phase is HEADER (R28). -/
theorem phase_of_no_delim {s : State} (marker : Wire.markerAtFront s.residual = true)
    (hd : Wire.findDelim s.residual = none) : phase s = some .header := by
  simp [phase, Nat.not_lt.mpr (Wire.length_of_markerAtFront marker), marker, hd]

/-- Behind a marker and a header that parses, while its payload is not all there, the phase is PAYLOAD (R28). -/
theorem phase_of_short_payload {s : State} {d : Nat} {h : Header} (marker : Wire.markerAtFront s.residual = true)
    (hd : Wire.findDelim s.residual = some d) (hp : Wire.parse s.cfg s.residual d = some h)
    (short : s.residual.length < d + 2 + h.len) : phase s = some .payload := by
  simp [phase, Nat.not_lt.mpr (Wire.length_of_markerAtFront marker), marker, hd, hp, short]

/-- Settles O6: the guard of each wait holds, and its effect is none. -/
theorem waitsChangeNothing : Obligations.WaitsChangeNothing := by
  refine fun s hf => ⟨fun short => ?_, fun front hd => ?_, fun d h front hd hp short => ?_⟩
  · obtain ⟨rest, next⟩ := exec_of_guard (m := .scanWait) hf (decide_eq_true short) (by decide)
    exact ⟨next, rest, (atRest_of_short short).2⟩
  · have marker : Wire.markerAtFront s.residual = true := decide_eq_true front
    obtain ⟨rest, next⟩ := exec_of_guard (m := .hdrWait) hf (by simp [microGuard, marker, hd]) (by decide)
    exact ⟨next, rest, phase_of_no_delim marker hd⟩
  · have marker : Wire.markerAtFront s.residual = true := decide_eq_true front
    obtain ⟨rest, next⟩ := exec_of_guard (m := .payloadWait d h.len) hf
      (by simp [microGuard, marker, hd, hp, short]) (Nat.two_pow_pos 61)
    exact ⟨next, rest, phase_of_short_payload marker hd hp short⟩

/-- The scanner drops a byte where there are 11 and no marker in front, at the edge or behind it (R172, R173). -/
theorem scanGuards_of_no_marker {s : State} (long : 11 ≤ s.residual.length)
    (noMarker : Wire.markerAtFront s.residual = false) :
    microGuard s.cfg s.residual s.sync (if s.sync then .scanDropEdge else .scanDrop) = true := by
  cases sync : s.sync <;> simp [microGuard, long, noMarker]

/-- Settles O7: the guard of SCAN_DROP_EDGE holds, and its effect is the state written out. -/
theorem scanDropEdgeCountsOneFramingError : Obligations.ScanDropEdgeCountsOneFramingError := by
  intro s hf long front sync
  have guard := scanGuards_of_no_marker long (decide_eq_false front)
  rw [if_pos sync] at guard
  exact exec_of_guard hf guard (by decide)

/-- Settles O8: the guard of SCAN_DROP holds, and its effect is DropFront(1). -/
theorem scanDropCountsNothing : Obligations.ScanDropCountsNothing := by
  intro s hf long front sync
  have guard := scanGuards_of_no_marker long (decide_eq_false front)
  rw [if_neg (Bool.eq_false_iff.mp sync)] at guard
  exact exec_of_guard hf guard (by decide)

/-! ## Where `sync` and the counters of lost framing move -/

/-- SCAN_DROP_EDGE and HDR_REJECT clear `sync` (R221, R222). -/
theorem microEffect_sync_of_loss {m : MicroStep} (s : State) (h : m.row = 2 ∨ m.row = 5) :
    (microEffect m s).sync = false := by
  cases m with
  | scanDropEdge | hdrReject => rfl
  | scanWait | scanDrop | hdrWait | payloadWait | resolve => simp [MicroStep.row] at h

/-- A micro-step other than RESOLVE leaves `sync`, or clears it (R231). -/
theorem microEffect_sync_of_not_resolve {m : MicroStep} (s : State) (h : m.row ≠ 7) :
    (microEffect m s).sync = s.sync ∨ (microEffect m s).sync = false := by
  cases m with
  | resolve => exact absurd rfl h
  | scanDropEdge | hdrReject => exact .inr rfl
  | scanWait | scanDrop | hdrWait | payloadWait => exact .inl rfl

/-- Row 2 is SCAN_DROP_EDGE (R90). -/
theorem eq_scanDropEdge_of_row {m : MicroStep} (h : m.row = 2) : m = .scanDropEdge := by
  cases m with
  | scanDropEdge => rfl
  | scanWait | scanDrop | hdrWait | hdrReject | payloadWait | resolve => simp [MicroStep.row] at h

/-- Settles O11: every other micro-step leaves a `sync` of 0 at 0. -/
theorem onlyResolveRestoresSync : Obligations.OnlyResolveRestoresSync := by
  intro m s t h lost found
  rw [exec_toInstr, runMicroStep_eq_next] at h
  obtain ⟨-, -, -, rfl⟩ := h
  by_contra other
  have still : (microEffect m s).sync = false := (microEffect_sync_of_not_resolve s other).elim (·.trans lost) id
  exact Bool.false_ne_true (still.symm.trans found)

/-- Settles O12: each counter has its row, the rows differ, and the guard of SCAN_DROP_EDGE holds at `sync` 1 alone. -/
theorem framingAndProtocolErrorsHaveOneSource : Obligations.FramingAndProtocolErrorsHaveOneSource := by
  intro m s t h
  rw [exec_toInstr, runMicroStep_eq_next] at h
  obtain ⟨-, guard, -, rfl⟩ := h
  have framing : (microEffect m s).framingErr ≠ s.framingErr → m.row = 2 := not_imp_comm.mp (microEffect_framingErr s)
  have protocol : (microEffect m s).protocolErr ≠ s.protocolErr → m.row = 5 := not_imp_comm.mp (microEffect_protocolErr s)
  refine ⟨fun moved => ?_, fun moved => ⟨protocol moved, microEffect_sync_of_loss s (.inr (protocol moved))⟩, ?_⟩
  · obtain rfl := eq_scanDropEdge_of_row (framing moved)
    exact ⟨rfl, (Bool.and_eq_true_iff.mp guard).2, rfl⟩
  · by_contra! both
    exact absurd ((framing both.1).symm.trans (protocol both.2)) (by decide)

end Sys2Proof.Machine

/-! SUPPORT. Bytes without a marker (R174, C2): the loop scans them down to 10, counting at most the first loss, and so does a
chunk of them, because no byte of it overflows a buffer of 10 (R58). -/

namespace Sys2Proof.Machine

/-! ## The marker in a byte string -/

/-- The marker occurs in a byte string exactly as a block of bytes in a row (R174). -/
theorem hasMarker_iff_isInfix (bs : List Byte) : HasMarker bs ↔ Wire.markerBytes <:+: bs := by
  constructor
  · rintro ⟨i, h⟩
    exact h ▸ (List.take_prefix 11 (bs.drop i)).isInfix.trans (List.drop_suffix i bs).isInfix
  · rintro ⟨front, behind, rfl⟩
    refine ⟨front.length, ?_⟩
    rw [List.append_assoc, List.drop_left]
    exact List.take_left' rfl

/-- A part of bytes without a marker has none. -/
theorem not_hasMarker_of_isInfix {part bs : List Byte} (h : part <:+: bs) (free : ¬HasMarker bs) : ¬HasMarker part :=
  fun found => free ((hasMarker_iff_isInfix bs).mpr (((hasMarker_iff_isInfix part).mp found).trans h))

/-- Bytes without a marker have none in front. -/
theorem markerAtFront_of_not_hasMarker {bs : List Byte} (free : ¬HasMarker bs) : Wire.markerAtFront bs = false :=
  decide_eq_false fun front => free ⟨0, front⟩

/-! ## The loop on bytes without a marker -/

/-- What dropping a byte does besides (R172, R173): at the edge the loss is counted, behind it nothing happens. -/
def noteLoss (s : State) : State := if s.sync then emitEvent .framingLoss (raise .framing s) else s

/-- What the loop makes of bytes without a marker (R174): fewer than 11 are held, and of more the last 10. -/
def scanned (s : State) : State :=
  if s.residual.length < 11 then s else dropFront (noteLoss s) (s.residual.length - 10)

@[simp] theorem noteLoss_cfg (s : State) : (noteLoss s).cfg = s.cfg := by
  unfold noteLoss; split <;> rfl

@[simp] theorem noteLoss_fault (s : State) : (noteLoss s).fault = s.fault := by
  unfold noteLoss; split <;> rfl

@[simp] theorem noteLoss_residual (s : State) : (noteLoss s).residual = s.residual := by
  unfold noteLoss; split <;> rfl

@[simp] theorem noteLoss_sync (s : State) : (noteLoss s).sync = false := by
  cases h : s.sync <;> simp [noteLoss, h]

/-- A loss is counted once (R174). -/
theorem noteLoss_of_lost {s : State} (h : s.sync = false) : noteLoss s = s := if_neg (Bool.eq_false_iff.mp h)

theorem scanned_of_short {s : State} (h : s.residual.length < 11) : scanned s = s := if_pos h

theorem scanned_of_long {s : State} (h : 11 ≤ s.residual.length) :
    scanned s = dropFront (noteLoss s) (s.residual.length - 10) := if_neg (Nat.not_lt.mpr h)

/-- Scanning writes neither the parameters nor `fault`. -/
theorem scanned_cfg_fault (s : State) : (scanned s).cfg = s.cfg ∧ (scanned s).fault = s.fault := by
  unfold scanned
  split <;> simp

/-- What stays held is the end of what was held (R21). -/
theorem residual_scanned_suffix (s : State) : (scanned s).residual <:+ s.residual := by
  unfold scanned
  split
  · exact List.suffix_rfl
  · simpa using List.drop_suffix _ s.residual

/-- At most 10 bytes stay held. -/
theorem length_scanned (s : State) : (scanned s).residual.length ≤ 10 := by
  unfold scanned
  split
  · omega
  · simp only [dropFront_residual, noteLoss_residual, List.length_drop]
    omega

/-- Scanning ends at rest (R171). -/
theorem atRest_scanned (s : State) : atRest (scanned s) = true :=
  (atRest_of_short (Nat.lt_succ_of_le (length_scanned s))).1

/-- DropFront after DropFront (R51). -/
theorem dropFront_dropFront (s : State) (a b : Nat) : dropFront (dropFront s a) b = dropFront s (a + b) := by
  simp [dropFront]

/-- Scanning behind the first byte dropped is scanning (R174). -/
theorem scanned_dropFront_noteLoss {s : State} (long : 11 ≤ s.residual.length) :
    scanned (dropFront (noteLoss s) 1) = scanned s := by
  have length : (dropFront (noteLoss s) 1).residual.length = s.residual.length - 1 := by simp
  rw [scanned_of_long long]
  obtain exact11 | more := Nat.eq_or_lt_of_le long
  · rw [scanned_of_short (by omega), ← exact11]
  · have lost : noteLoss (dropFront (noteLoss s) 1) = dropFront (noteLoss s) 1 := noteLoss_of_lost (noteLoss_sync s)
    rw [scanned_of_long (by omega), lost, dropFront_dropFront, length]
    congr 1
    omega

/-- On 11 bytes or more without a marker the selected micro-step drops a byte (R172, R173). -/
theorem selected_of_not_hasMarker {s : State} (long : 11 ≤ s.residual.length) (free : ¬HasMarker s.residual) :
    selected s = if s.sync then .scanDropEdge else .scanDrop :=
  select_of_microGuard (scanGuards_of_no_marker long (markerAtFront_of_not_hasMarker free))

/-- The loop on bytes without a marker (R154, R174). -/
theorem decodeLoop_of_not_hasMarker {s : State} (hf : s.fault = false) (free : ¬HasMarker s.residual) :
    decodeLoop s = .next (scanned s) := by
  revert hf free
  refine loop_induction (P := fun s => s.fault = false → ¬HasMarker s.residual → decodeLoop s = .next (scanned s)) ?_ ?_ s
  · intro s rest hf free
    have short : s.residual.length < 11 := by
      by_contra! long
      rw [atRest, selected_of_not_hasMarker long free] at rest
      cases sync : s.sync <;> simp [sync, MicroStep.isRest] at rest
    rw [decodeLoop_of_atRest hf rest, scanned_of_short short]
  · intro s busy ih hf free
    have long : 11 ≤ s.residual.length := by
      by_contra! short
      exact Bool.false_ne_true (busy.symm.trans (atRest_of_short short).1)
    have row := selected_of_not_hasMarker long free
    have effect : microEffect (selected s) s = dropFront (noteLoss s) 1 := by
      rw [row, noteLoss]
      split <;> rfl
    have hashed : microHashed (selected s) = 0 := by
      rw [row]
      split <;> rfl
    have first : micro s = .next (microEffect (selected s) s) := micro_eq_next.mpr ⟨hf, by omega, rfl⟩
    have behind : ¬HasMarker (microEffect (selected s) s).residual := by
      rw [microEffect_residual]
      exact not_hasMarker_of_isInfix (List.drop_suffix _ _).isInfix free
    rw [decodeLoop_of_not_atRest busy, first, andThen_next, ih ((microEffect_frame _ s).2.1.trans hf) behind, effect,
      scanned_dropFront_noteLoss long]

/-! ## A chunk without a marker -/

/-- Well-formed parameters have room for 10 bytes (R5, R58). -/
theorem within_of_wf {c : Config} (wf : c.wf = true) {n : Nat} (hn : n ≤ 10) : Wire.within c.residualCap n = true := by
  obtain ⟨cap, -⟩ := Bool.and_eq_true_iff.mp wf
  cases h : c.residualCap with
  | none => rfl
  | some m =>
    rw [h] at cap
    exact decide_eq_true (hn.trans (of_decide_eq_true cap))

/-- A byte that completes no marker is scanned with the bytes held, and overflows nothing (R153, R58). -/
theorem putByte_of_not_hasMarker {s : State} {b : Byte} (hf : s.fault = false) (rest : atRest s = true)
    (wf : s.cfg.wf = true) (free : ¬HasMarker (s.residual ++ [b])) :
    putByte b s = .next (scanned (append s b)) := by
  have run : decodeLoop (append s b) = .next (scanned (append s b)) := decodeLoop_of_not_hasMarker hf free
  have fits : overflow (scanned (append s b)) = false := by
    rw [overflow, (scanned_cfg_fault _).1, append_cfg, within_of_wf wf (length_scanned _), Bool.not_true]
  refine putByte_eq_next.mpr ⟨hf, rest, _, run, ?_⟩
  rw [testCapacity, fits]
  rfl

/-- A chunk that completes no marker does what one loop behind all of it does (R156, R174). -/
theorem putBytes_of_not_hasMarker {s : State} {bs : List Byte} (hf : s.fault = false) (rest : atRest s = true)
    (wf : s.cfg.wf = true) (free : ¬HasMarker (s.residual ++ bs)) :
    putBytes bs s = .next (scanned (extend s bs)) := by
  rw [← decodeLoop_of_not_hasMarker (s := extend s bs) hf free]
  induction bs generalizing s with
  | nil => rw [extend_nil, decodeLoop_of_atRest hf rest, putBytes]
  | cons b bs ih =>
    have regroup : s.residual ++ b :: bs = s.residual ++ [b] ++ bs := by simp
    rw [regroup] at free
    have freeNow := not_hasMarker_of_isInfix (List.prefix_append _ bs).isInfix free
    have run : decodeLoop (append s b) = .next (scanned (append s b)) := decodeLoop_of_not_hasMarker hf freeNow
    obtain ⟨hcfg, hfault⟩ := scanned_cfg_fault (append s b)
    have freeBehind : ¬HasMarker ((scanned (append s b)).residual ++ bs) := by
      obtain ⟨front, held⟩ := residual_scanned_suffix (append s b)
      rw [append_residual] at held
      refine not_hasMarker_of_isInfix ⟨front, [], ?_⟩ free
      rw [List.append_nil, ← List.append_assoc, held]
    calc putBytes (b :: bs) s
        = putBytes bs (scanned (append s b)) := by
          rw [putBytes, putByte_of_not_hasMarker hf rest wf freeNow, andThen_next]
      _ = decodeLoop (extend (scanned (append s b)) bs) :=
          ih (hfault.trans hf) (atRest_scanned _) (hcfg ▸ wf) freeBehind
      _ = decodeLoop (extend (append s b) bs) := by rw [decodeLoop_extend (append s b) bs hf, run, andThen_next]
      _ = decodeLoop (extend s (b :: bs)) := by rw [← extend_singleton, extend_extend, List.singleton_append]

/-- Settles O34: WRITE answers the bytes scanned, and each clause is a case of `scanned`. -/
theorem markerFreeBytesCountOneFramingError : Obligations.MarkerFreeBytesCountOneFramingError := by
  intro s bs hf short wf free
  have write : exec (.write bs) s = .next (returnValue (scanned (extend s bs)) (.accepted bs.length)) :=
    acceptBytes_eq_next.mpr ⟨_, putBytes_of_not_hasMarker hf (atRest_of_short short).1 wf free, rfl⟩
  have length : (extend s bs).residual.length = s.residual.length + bs.length := List.length_append
  rw [write]
  refine ⟨fun long sync => ?_, fun long lost => ?_, fun held => ?_⟩
  · have loss : noteLoss (extend s bs) = emitEvent .framingLoss (raise .framing (extend s bs)) := if_pos sync
    rw [scanned_of_long (length ▸ long), loss, length]
    rfl
  · rw [scanned_of_long (length ▸ long), noteLoss_of_lost (s := extend s bs) lost, length]
    rfl
  · rw [scanned_of_short (length ▸ held)]
    rfl

end Sys2Proof.Machine

/-! SUPPORT. The header's reading (R181 to R191): the first delimiter, the maximal runs, the leftmost field, the number a digit
string denotes, and the parser as a function of its segment; and HDR_REJECT (R190). -/

namespace Sys2Proof.Wire

/-! ## The first delimiter -/

/-- A delimiter stands at an index: newlines there and behind it (R72). -/
def DelimAt (r : List Byte) (j : Nat) : Prop := r[j]? = some newline ∧ r[j + 1]? = some newline

/-- The search finds the first delimiter of its bytes, counted from the index it is given (R181). -/
theorem findDelimFrom_eq_some_iff {j d : Nat} {bs : List Byte} :
    findDelimFrom j bs = some d ↔ ∃ k, d = j + k ∧ DelimAt bs k ∧ ∀ i < k, ¬DelimAt bs i := by
  induction bs generalizing j with
  | nil => simp [findDelimFrom, DelimAt]
  | cons a bs ih =>
    cases bs with
    | nil => simp [findDelimFrom, DelimAt]
    | cons b rest =>
      have zero : DelimAt (a :: b :: rest) 0 ↔ a = newline ∧ b = newline := by simp [DelimAt]
      have succ (k : Nat) : DelimAt (a :: b :: rest) (k + 1) ↔ DelimAt (b :: rest) k := Iff.rfl
      rw [findDelimFrom, ← Nat.or_exists_add_one]
      simp only [Nat.forall_lt_succ_left, zero, succ]
      split
      · next front => simp [front, eq_comm]
      · next front => simp [front, ih, Nat.add_assoc, Nat.add_comm 1]

/-- `FindDelim` finds the first delimiter from index 11 on (R181). -/
theorem findDelim_eq_some_iff {r : List Byte} {d : Nat} :
    findDelim r = some d ↔ 11 ≤ d ∧ DelimAt r d ∧ ∀ j, 11 ≤ j → j < d → ¬DelimAt r j := by
  have shift (k : Nat) : DelimAt (r.drop 11) k ↔ DelimAt r (11 + k) := by
    simp only [DelimAt, List.getElem?_drop, Nat.add_assoc]
  simp only [findDelim, markerLen, findDelimFrom_eq_some_iff, shift]
  constructor
  · rintro ⟨k, rfl, here, first⟩
    refine ⟨by omega, here, fun j from11 before => ?_⟩
    obtain ⟨i, rfl⟩ := Nat.exists_eq_add_of_le from11
    exact first i (by omega)
  · rintro ⟨from11, here, first⟩
    obtain ⟨k, rfl⟩ := Nat.exists_eq_add_of_le from11
    exact ⟨k, rfl, here, fun i before => first (11 + i) (by omega) (by omega)⟩

/-! ## Runs -/

/-- Class `DIGIT`, written out (R76). -/
theorem isDigit_iff {b : Byte} : isDigit b = true ↔ 0x30 ≤ b.toNat ∧ b.toNat ≤ 0x39 := decide_eq_true_iff

/-- Class `HEX`, written out (R76). -/
theorem isHex_iff {b : Byte} :
    isHex b = true ↔
      (0x30 ≤ b.toNat ∧ b.toNat ≤ 0x39) ∨ (0x41 ≤ b.toNat ∧ b.toNat ≤ 0x46) ∨ (0x61 ≤ b.toNat ∧ b.toNat ≤ 0x66) := by
  simp only [isHex, isDigit, Bool.or_eq_true, decide_eq_true_eq, or_assoc]

/-- Class `WORD_ASCII`, written out (R76). -/
theorem isWordAscii_iff {b : Byte} :
    isWordAscii b = true ↔
      (0x30 ≤ b.toNat ∧ b.toNat ≤ 0x39) ∨ (0x41 ≤ b.toNat ∧ b.toNat ≤ 0x5A) ∨ b.toNat = 0x5F ∨
        (0x61 ≤ b.toNat ∧ b.toNat ≤ 0x7A) := by
  simp only [isWordAscii, isDigit, Bool.or_eq_true, decide_eq_true_eq, or_assoc]

/-- `UNICODE_WORD` by its ranges (R8). -/
theorem unicodeWord_iff {c : Config} {cp : Nat} :
    unicodeWord c cp = true ↔ ∃ range ∈ c.unicodeWord, range.1 ≤ cp ∧ cp ≤ range.2 := by
  simp only [unicodeWord, List.any_eq_true, decide_eq_true_eq]

/-- The bytes of a list up to the first one of another class, and that one. -/
theorem takeWhile_maximal {p : Byte → Bool} (l : List Byte) :
    (∀ i b, i < (l.takeWhile p).length → l[i]? = some b → p b = true) ∧
    (∀ b, l[(l.takeWhile p).length]? = some b → p b = false) := by
  induction l with
  | nil => simp
  | cons a l ih =>
    cases ha : p a with
    | false => simp [ha]
    | true =>
      refine ⟨fun i b hi hb => ?_, by simpa [ha] using ih.2⟩
      cases i with
      | zero => cases hb; exact ha
      | succ i => exact ih.1 i b (by simpa [ha] using hi) hb

/-- A run of a class is the class's bytes from `q` on, up to `d` or the first byte of another class (R185). -/
theorem runClass_maximal {p : Byte → Bool} {r : List Byte} {q d : Nat} (hq : q ≤ d) :
    (∀ i b, q ≤ i → i < runClass p r q d → r[i]? = some b → p b = true) ∧
    (∀ b, runClass p r q d < d → r[runClass p r q d]? = some b → p b = false) := by
  have inside : runClass p r q d ≤ d := runClass_le hq
  have index {i : Nat} (h : q + i < d) : (slice r q d)[i]? = r[q + i]? := by
    rw [slice, List.getElem?_drop, List.getElem?_take_of_lt h]
  obtain ⟨before, after⟩ := takeWhile_maximal (p := p) (slice r q d)
  refine ⟨fun i b from_q below hb => ?_, fun b below hb => after b ((index below).trans hb)⟩
  obtain ⟨m, rfl⟩ := Nat.exists_eq_add_of_le from_q
  exact before m b (Nat.lt_of_add_lt_add_left below) ((index (by omega)).trans hb)

/-- What a word character is, written out (R77, R78). -/
theorem wordCharAt_eq_some_iff_written {c : Config} {r : List Byte} {i e n : Nat} :
    wordCharAt c r i e = some n ↔ i < e ∧ ∃ b, r[i]? = some b ∧
      ((b.toNat < 0x80 ∧ n = 1 ∧ isWordAscii b = true) ∨
        (0x80 ≤ b.toNat ∧ ∃ cp, utf8At r i e = some (cp, n) ∧ unicodeWord c cp = true)) := by
  rw [wordCharAt]
  by_cases hi : i < e
  · cases hb : r[i]? with
    | none => simp [hi]
    | some b =>
      by_cases ascii : b.toNat < 0x80
      · simp [hi, ascii, Nat.not_le.mpr ascii, @eq_comm _ n 1, and_comm]
      · cases hcp : utf8At r i e with
        | none => simp [hi, ascii]
        | some value =>
          obtain ⟨cp, m⟩ := value
          simp [hi, ascii, Nat.not_lt.mp ascii, and_comm]
  · simp [hi]

/-- A word run goes by whole word characters and stops where none stands, if its bound lets it reach `e` (R185). -/
theorem runWordFrom_maximal {c : Config} {r : List Byte} {e k i : Nat} (enough : e ≤ i + k) :
    Relation.ReflTransGen (fun i j => ∃ n, wordCharAt c r i e = some n ∧ j = i + n) i (runWordFrom c r e k i) ∧
      wordCharAt c r (runWordFrom c r e k i) e = none := by
  induction k generalizing i with
  | zero => exact ⟨.refl, if_neg (Nat.not_lt.mpr enough)⟩
  | succ k ih =>
    rw [runWordFrom]
    split
    · next stop => exact ⟨.refl, stop⟩
    · next n here =>
      have pos := (wordCharAt_le here).1
      obtain ⟨path, stop⟩ := ih (i := i + n) (by omega)
      exact ⟨path.head ⟨n, here, rfl⟩, stop⟩

/-! ## Fields -/

/-- When a field stands at `p`: a line start, the label and a run of at least one byte behind it, inside `d` (R184). -/
theorem fieldAt_eq_some_iff {c : Config} {r : List Byte} {d p : Nat} {label value : List Byte} {run : RunKind} :
    fieldAt c r d label run p = some value ↔
      r[p - 1]? = some newline ∧ p + label.length ≤ d ∧ (r.drop p).take label.length = label ∧
        p + label.length < runEnd c run r (p + label.length) d ∧
        value = slice r (p + label.length) (runEnd c run r (p + label.length) d) := by
  rw [← slice_add]
  simp only [fieldAt, lineStart, decide_eq_true_eq]
  constructor
  · intro h
    split_ifs at h with matched nonempty
    obtain ⟨start, inside, labelled⟩ := matched
    exact ⟨start, inside, labelled, nonempty, (Option.some.inj h).symm⟩
  · rintro ⟨start, inside, labelled, nonempty, rfl⟩
    rw [if_pos ⟨start, inside, labelled⟩, if_pos nonempty]

/-- The field found is the one at the first index that has one (R184). -/
theorem findField_eq_some_iff {c : Config} {r : List Byte} {d : Nat} {label value : List Byte} {run : RunKind} :
    findField c r d label run = some value ↔
      ∃ p, 2 ≤ p ∧ p < d ∧ fieldAt c r d label run p = some value ∧
        ∀ q, 2 ≤ q → q < p → fieldAt c r d label run q = none := by
  constructor
  · intro h
    obtain ⟨before, p, behind, split, hit, miss⟩ := List.findSome?_eq_some_iff.mp h
    obtain ⟨k, -, rfl, tail⟩ := List.range'_eq_append_iff.mp split
    obtain ⟨rfl, nonempty, -⟩ := List.range'_eq_cons_iff.mp tail.symm
    refine ⟨_, by omega, by omega, hit, fun q from2 first => miss q ?_⟩
    rw [List.mem_range'_1]
    omega
  · rintro ⟨p, from2, inside, hit, miss⟩
    exact findField_of_first from2 inside hit miss

/-! ## The number a digit string denotes -/

/-- A digit counts its power of ten (R53, R188). -/
theorem digitsValue_eq_sum (digits : List Byte) :
    digitsValue digits = ((List.range digits.length).map fun i =>
      ((digits.getD i 0x30#8).toNat - 0x30) * 10 ^ (digits.length - 1 - i)).sum := by
  induction digits using List.reverseRecOn with
  | nil => rfl
  | append_singleton digits x ih =>
    rw [digitsValue_concat, ih, ← List.sum_map_mul_right, List.length_append, List.length_singleton, List.range_succ,
      List.map_append, List.sum_append]
    congr 1
    · refine congrArg _ (List.map_congr_left fun i hi => ?_)
      rw [List.mem_range] at hi
      have power : digits.length + 1 - 1 - i = digits.length - 1 - i + 1 := by omega
      rw [List.getD_append _ _ _ _ hi, power, pow_succ, Nat.mul_assoc]
    · simp

/-! ## The parser -/

/-- Being within a bound, written out (R5, R6). -/
theorem within_iff {bound : Option Nat} {n : Nat} : within bound n = true ↔ ∀ m, bound = some m → n ≤ m := by
  cases bound <;> simp [within]

/-- A header parses exactly if its three fields are found and the length is within `LEN_MAX` (R191). -/
theorem parse_eq_some_iff {c : Config} {r : List Byte} {d : Nat} {h : Header} :
    parse c r d = some h ↔
      findField c r d labelPattern .word = some h.name ∧
      (∃ digits, findField c r d labelLength .digit = some digits ∧ h.len = digitsValue digits) ∧
      findField c r d labelSha256 .hex = some h.hex ∧ within c.lenMax h.len = true := by
  obtain ⟨name, len, hex⟩ := h
  rw [parse, parseWith]
  cases findField c r d labelPattern .word with
  | none => simp
  | some name' =>
    cases findField c r d labelLength .digit with
    | none => simp
    | some digits =>
      cases findField c r d labelSha256 .hex with
      | none => simp
      | some hex' =>
        simp only [Option.ite_none_right_eq_some, Option.some.injEq, Header.mk.injEq, exists_eq_left']
        constructor
        · rintro ⟨fits, rfl, rfl, rfl⟩
          exact ⟨rfl, rfl, rfl, fits⟩
        · rintro ⟨rfl, rfl, rfl, fits⟩
          exact ⟨fits, rfl, rfl, rfl⟩

/-- No run consults the catalog (R191). -/
theorem runEnd_catalog (c : Config) (catalog : List CatalogEntry) : runEnd { c with catalog := catalog } = runEnd c := by
  have word (r : List Byte) (e k i : Nat) :
      runWordFrom { c with catalog := catalog } r e k i = runWordFrom c r e k i := by
    induction k generalizing i with
    | zero => rfl
    | succ k ih =>
      simp only [runWordFrom, ih]
      rfl
  funext run r q d
  cases run with
  | word => exact word r d (d - q) q
  | digit | hex => rfl

/-- The parser does not consult the catalog (R191). -/
theorem parse_catalog (c : Config) (catalog : List CatalogEntry) (r : List Byte) (d : Nat) :
    parse { c with catalog := catalog } r d = parse c r d := by
  have field (label : List Byte) (run : RunKind) :
      findField { c with catalog := catalog } r d label run = findField c r d label run := by
    unfold findField fieldAt
    rw [runEnd_catalog]
  simp only [parse, parseWith, field]

/-- The parser reads nothing behind its segment (R191). -/
theorem parse_take (c : Config) {r : List Byte} {d : Nat} (hd : d ≤ r.length) : parse c (r.take d) d = parse c r d := by
  conv_rhs => rw [← List.take_append_drop d r]
  exact (parse_append c _ (by simp [hd])).symm

end Sys2Proof.Wire

namespace Sys2Proof.Machine

/-! ## The statements -/

/-- Inside its bytes FindField answers what R184's function gives of them. -/
theorem exec_findField_of_le (s : State) {r : List Byte} {d : Nat} (label : List Byte) (run : RunKind) (hd : d ≤ r.length) :
    exec (.findField r d label run) s = .next { s with result := .field (Wire.findField s.cfg r d label run) } := by
  show execFindField r d label run s = _
  rw [execFindField, drawTo_of_le s hd, readTo_of_le s hd]
  rfl

/-- Inside its bytes Parse answers what R191's function gives of them. -/
theorem exec_parse_of_le (s : State) {r : List Byte} {d : Nat} (hd : d ≤ r.length) :
    exec (.parse r d) s = .next { s with result := .header (Wire.parse s.cfg r d) } := by
  show execParse r d s = _
  rw [execParse, drawTo_of_le s hd, readTo_of_le s hd]
  rfl

/-- Settles O35: the search finds the first delimiter from index 11 on. -/
theorem findDelimGivesTheFirstDelimiter : Obligations.FindDelimGivesTheFirstDelimiter := by
  intro s r
  refine ⟨_, rfl, fun d => Wire.findDelim_eq_some_iff.trans ?_⟩
  simp only [Wire.DelimAt, newline, and_assoc]

/-- Settles O36: a match at `p` is a field there, and the field found is the one at the first index that has one. -/
theorem findFieldGivesTheLeftmostMatch : Obligations.FindFieldGivesTheLeftmostMatch := by
  intro s r d label run hd Matches written
  have matches_iff (p : Nat) (value : List Byte) :
      Matches p value ↔ 2 ≤ p ∧ p < d ∧ Wire.fieldAt s.cfg r d label run p = some value := by
    rw [written, Wire.fieldAt_eq_some_iff]
    rfl
  refine ⟨_, exec_findField_of_le s label run hd, fun value => Wire.findField_eq_some_iff.trans ?_⟩
  simp only [matches_iff]
  refine exists_congr fun p => ⟨?_, ?_⟩
  · rintro ⟨from2, inside, hit, miss⟩
    refine ⟨⟨from2, inside, hit⟩, ?_⟩
    rintro q first other ⟨from2', -, hit'⟩
    cases (miss q from2' first).symm.trans hit'
  · rintro ⟨⟨from2, inside, hit⟩, miss⟩
    refine ⟨from2, inside, hit, fun q from2' first => Option.eq_none_iff_forall_ne_some.mpr fun other hit' => ?_⟩
    exact miss q first other ⟨from2', first.trans inside, hit'⟩

/-- Settles O37: each run is maximal, by its class or by its characters. -/
theorem runsAreMaximal : Obligations.RunsAreMaximal := by
  intro c r q d hq _
  have maximal {p : Byte → Bool} :
      q ≤ Wire.runClass p r q d ∧ Wire.runClass p r q d ≤ d ∧
      (∀ i b, q ≤ i → i < Wire.runClass p r q d → r[i]? = some b → p b = true) ∧
      (∀ b, Wire.runClass p r q d < d → r[Wire.runClass p r q d]? = some b → ¬p b = true) := by
    simpa only [Bool.not_eq_true] using ⟨Nat.le_add_right _ _, Wire.runClass_le hq, Wire.runClass_maximal hq⟩
  refine ⟨fun run isValue kind => ?_, fun WordChar written => ?_⟩
  · obtain ⟨rfl, rfl⟩ | ⟨rfl, rfl⟩ := kind
    · simp only [← Wire.isDigit_iff]
      exact maximal
    · simp only [← Wire.isHex_iff]
      exact maximal
  · have written' (i n : Nat) : WordChar i n ↔ Wire.wordCharAt c r i d = some n := by
      rw [written, Wire.wordCharAt_eq_some_iff_written]
      simp only [Wire.isWordAscii_iff, Wire.unicodeWord_iff]
    obtain ⟨path, stop⟩ := Wire.runWordFrom_maximal (c := c) (r := r) (e := d) (k := d - q) (i := q) (by omega)
    simp only [written']
    exact ⟨path, Wire.runEnd_le (run := .word) hq, fun n here => by cases stop.symm.trans here⟩

/-- Settles O38: the parser by its three fields, on its segment alone. -/
theorem parseGivesTheThreeFields : Obligations.ParseGivesTheThreeFields := by
  intro s r d hd
  refine ⟨_, exec_parse_of_le s hd, fun h => ?_, fun r' catalog same => ?_⟩
  · rw [Wire.parse_eq_some_iff, Wire.within_iff]
  · have hd' : d ≤ r'.length := by
      have := congrArg List.length same
      simp only [List.length_take] at this
      omega
    rw [exec_parse_of_le _ hd', Wire.parse_catalog, ← Wire.parse_take s.cfg hd', same, Wire.parse_take s.cfg hd]

/-- Settles O39, by induction on the digits from the last one on. -/
theorem digitStringsArePositional : Obligations.DigitStringsArePositional := Wire.digitsValue_eq_sum

/-- Settles O9: the guard of HDR_REJECT holds, and its effect is the state written out. -/
theorem hdrRejectDiscardsTheHeader : Obligations.HdrRejectDiscardsTheHeader := by
  intro s d hf front hd hp
  have marker : Wire.markerAtFront s.residual = true := decide_eq_true front
  exact exec_of_guard (m := .hdrReject d) hf (by simp [microGuard, marker, hd, hp]) (Nat.two_pow_pos 61)

end Sys2Proof.Machine

/-! SUPPORT. RESOLVE (R202) and its checksum verdict: what Lower does to the case of a declared string and to its length
(R84, R204), and the three independent `if`s as a table of counters (R206). -/

namespace Sys2Proof.Wire

/-- A lower-case hexadecimal letter and its upper-case form have one Lower (R84). -/
theorem lowerByte_of_upperCase {x y : Byte} (least : 0x61 ≤ y.toNat) (most : y.toNat ≤ 0x66)
    (upper : x.toNat + 0x20 = y.toNat) : lowerByte x = lowerByte y := by
  rw [lowerByte, if_pos (by omega), lowerByte, if_neg (by omega)]
  bv_omega

@[simp] theorem length_lower (hex : List Byte) : (lower hex).length = hex.length := List.length_map _

/-- Strings that agree byte for byte up to the case of the letters a to f have one Lower (R84). -/
theorem lower_eq_of_caseInsensitive {upper hex : List Byte} (length : upper.length = hex.length)
    (same : ∀ (i : Nat) x y, upper[i]? = some x → hex[i]? = some y →
      x = y ∨ (0x61 ≤ y.toNat ∧ y.toNat ≤ 0x66 ∧ x.toNat + 0x20 = y.toNat)) :
    lower upper = lower hex := by
  refine List.ext_getElem (by simp [length]) fun i hi hj => ?_
  rw [length_lower] at hi hj
  simp only [lower, List.getElem_map]
  obtain equal | ⟨least, most, shift⟩ := same i _ _ (List.getElem?_eq_getElem hi) (List.getElem?_eq_getElem hj)
  · rw [equal]
  · exact lowerByte_of_upperCase least most shift

end Sys2Proof.Wire

namespace Sys2Proof.Machine

/-! ## The two verdicts and their counters -/

/-- The digest of R203 is rendered in 64 characters. -/
@[simp] theorem length_computedDigest (payload : List Byte) : (computedDigest payload).length = 64 := by
  simp [computedDigest]

/-- A good declared checksum has 64 characters (R84, R204). -/
theorem length_of_checksumGood {hex payload : List Byte} (good : checksumGood hex payload = true) :
    hex.length = 64 := by
  rw [← Wire.length_lower, checksumGood_iff.mp good, ← computedDigest, length_computedDigest]

/-- The verdict depends on the declared string through its Lower alone (R204). -/
theorem checksumGood_congr {hex hex' : List Byte} (payload : List Byte) (same : Wire.lower hex' = Wire.lower hex) :
    checksumGood hex' payload = checksumGood hex payload := by
  rw [checksumGood, checksumGood, same]

/-- On a synchronised sink the three `if`s of R202 are the three counters, each by its own condition (R206). -/
theorem classify_resync (good : Bool) (pattern : PatternResult) (s : State) :
    classify good pattern (resync s) =
      { resync s with
        goodFrames := if good = true ∧ pattern = .matched then inc s.goodFrames else s.goodFrames
        checksumErr := if good = true then s.checksumErr else inc s.checksumErr
        patternErr := if pattern = .matched then s.patternErr else inc s.patternErr } := by
  cases good <;> cases pattern <;> rfl

/-! ## The statements -/

/-- Settles O10: the guard of RESOLVE holds, and its effect is the table of R206 on the synchronised sink. -/
theorem resolveClassifiesTheFrame : Obligations.ResolveClassifiesTheFrame := by
  intro s d len name hex hf hashed front hd hp whole payload computed good pattern read digest verdict result
  have marker : Wire.markerAtFront s.residual = true := decide_eq_true front
  have guard : microGuard s.cfg s.residual s.sync (.resolve d name len hex) = true := by
    simp [microGuard, marker, hd, hp, whole]
  obtain rfl : payload = memRead s (d + Wire.delimLen) len := read.trans (memRead_eq_take_drop s _ len).symm
  obtain rfl : pattern = patternResult s.cfg.catalog name (memRead s (d + Wire.delimLen) len) := result
  subst digest verdict
  obtain ⟨rest, next⟩ := exec_of_guard hf guard hashed
  exact ⟨rest, next.trans (congrArg _ (congrArg (emitEvent _) (classify_resync _ _ (dropFront s _))))⟩

/-- Settles O51: the comparison is of the Lower of the declared string with a digest of 64 characters. -/
theorem checksumComparesSixtyFourDigits : Obligations.ChecksumComparesSixtyFourDigits := by
  refine fun hex payload => ⟨rfl, fun upper length same => ?_, checksumGood_iff, fun _ => checksumGood_congr payload,
    fun short => ?_, checksumGood_computedDigest payload⟩
  · exact checksumGood_congr payload (Wire.lower_eq_of_caseInsensitive length same)
  · exact Bool.eq_false_iff.mpr fun good => short (length_of_checksumGood good)

end Sys2Proof.Machine

/-! SUPPORT. Errors: the overflow, after which the sink is stuck until RESET (R225, U1), and the codes of R226. -/

namespace Sys2Proof.Machine

/-! ## Stuck after an overflow -/

/-- A micro-step is stuck after an overflow, whether its guard holds or not (U1). -/
theorem whenGuarded_of_fault {m : MicroStep} {s : State} {k : Answer} (hf : s.fault = true) :
    whenGuarded m s k = .fault .stuckAfterOverflow := if_pos hf

/-- A byte is stuck after an overflow, at rest or not (R153, U1). -/
theorem putByte_of_fault {s : State} (b : Byte) (hf : s.fault = true) : putByte b s = .fault .stuckAfterOverflow :=
  if_pos hf

/-- A chunk is stuck at its first byte (R152, U1). -/
theorem acceptBytes_of_fault {s : State} (b : Byte) (bs : List Byte) (hf : s.fault = true) :
    acceptBytes (b :: bs) s = .fault .stuckAfterOverflow := by
  rw [acceptBytes_eq, putBytes, putByte_of_fault b hf]
  rfl

/-- Settles O15: each stop by its own lemma, and the reset state has no fault. -/
theorem overflowIsStuckUntilReset : Obligations.OverflowIsStuckUntilReset := by
  refine fun s hf => ⟨fun m => ?_, fun b => putByte_of_fault b hf, fun b bs => acceptBytes_of_fault b bs hf,
    resetState s, rfl, resetState_fault s⟩
  rw [exec_toInstr, runMicroStep_eq, whenGuarded_of_fault hf]

/-! ## The codes -/

/-- Settles O27: a frame's code by its two verdicts, every other code off its table. -/
theorem codesFollowTheTables : Obligations.CodesFollowTheTables := by
  refine ⟨rfl, rfl, fun _ _ _ _ good pattern => ?_, rfl, rfl, rfl, rfl, rfl, rfl, rfl, rfl, rfl⟩
  cases good <;> cases pattern <;> rfl

end Sys2Proof.Machine
